-- ==== Sys2Proof/Word.lean ====
section
/-! DEFINITION. The word types of the SD/MMC Protocol Engine (00_scope.md R10: every value is unsigned). -/

namespace Sys2Proof

/-- A 32-bit register word (u32). -/
abbrev Word := BitVec 32

/-- A byte on the serial bus or in DATA (u8). -/
abbrev Byte := BitVec 8

/-- A 16-bit data checksum (u16). -/
abbrev Half := BitVec 16

end Sys2Proof
end

