-- ==== Sys2Proof/Syntax.lean ====
section
/-! DEFINITION. The ops of the block (30_encoding.md R95), one constructor per row of spec/opcode_table.json, and the host
agent's register accesses and program statements (00_scope.md R13, 30_encoding.md R112, R113). -/

namespace Sys2Proof

/-- The data token a WRBLK sends (R94, field TOK). TOK 3 is no token: the decoder refuses it. -/
inductive Token where
  /-- TOK 0, single-block data. -/
  | single
  /-- TOK 1, multi-block data. -/
  | multi
  /-- TOK 2, multi-block stop. -/
  | stop
  deriving DecidableEq, Repr, Inhabited

/-- The fourteen ops (R95). Operands that live in registers (int.ARGL, DATA, CFG) are not part of the op. -/
inductive Instr where
  /-- R131: power-on wake-up. -/
  | pwron
  /-- R133: clear PowerState. -/
  | pwroff
  /-- R134: read PowerState. -/
  | pwrchk
  /-- R136: wait until the card is ready. -/
  | waitrdy
  /-- R137: assert chip select. -/
  | csel
  /-- R138: deassert chip select. -/
  | cdesel
  /-- R140: send command `idx` with int.ARGL, collect its response byte. -/
  | cmd (idx : BitVec 6)
  /-- R146: exchange the byte int.ARGL[7:0]. -/
  | txb
  /-- R147: read `len` raw bytes into DATA. -/
  | rxb (len : Nat)
  /-- R181: receive one data block of `len` bytes. -/
  | rdblk (len : Nat)
  /-- R186: transmit one data block, or the stop token. -/
  | wrblk (tok : Token)
  /-- R220: detect the card type. -/
  | init
  /-- R260: sector number to card address. -/
  | saddr
  /-- R261: set the static media flags. -/
  | media
  deriving DecidableEq, Repr, Inhabited

/-- The mnemonic of an op (R95, R112). -/
def Instr.mnemonic : Instr → String
  | .pwron => "PWRON"
  | .pwroff => "PWROFF"
  | .pwrchk => "PWRCHK"
  | .waitrdy => "WAITRDY"
  | .csel => "CSEL"
  | .cdesel => "CDESEL"
  | .cmd _ => "CMD"
  | .txb => "TXB"
  | .rxb _ => "RXB"
  | .rdblk _ => "RDBLK"
  | .wrblk _ => "WRBLK"
  | .init => "INIT"
  | .saddr => "SADDR"
  | .media => "MEDIA"

/-- The operand text of a token (R112). -/
def Token.asm : Token → String
  | .single => "SINGLE"
  | .multi => "MULTI"
  | .stop => "STOP"

/-- The assembler text of an op (R112): operands are decimal. -/
def Instr.asm : Instr → String
  | .cmd idx => "CMD " ++ toString idx.toNat
  | .rxb len => "RXB " ++ toString len
  | .rdblk len => "RDBLK " ++ toString len
  | .wrblk tok => "WRBLK " ++ tok.asm
  | i => i.mnemonic

/-- One access of the host to the block's register space (00_scope.md R13), by byte offset and number of bytes. A write of
`n` bytes carries its value in the low 8n bits. -/
inductive HostAccess where
  /-- `HostRead(off, n)`. -/
  | read (off n : Nat)
  /-- `HostWrite(off, n, v)`. -/
  | write (off n : Nat) (v : Word)
  deriving DecidableEq, Repr, Inhabited

/-- The registers that the `RD` statement names (R113). -/
inductive ReadReg where
  | stat | rdata | t1 | t2 | op | arg | cfg
  deriving DecidableEq, Repr, Inhabited

/-- The statements of a host program (R113). -/
inductive Stmt where
  /-- An op: `HostWrite(0x000, 4, opword)`. -/
  | op (i : Instr)
  /-- `WR ARG, imm`. -/
  | wrArg (imm : Word)
  /-- `WR CFG, imm`. -/
  | wrCfg (imm : Word)
  /-- `WRB DATA[i], imm`. -/
  | wrData (i : Nat) (imm : Byte)
  /-- `RD reg`. -/
  | rd (r : ReadReg)
  /-- `RDB DATA[i]`. -/
  | rdData (i : Nat)
  /-- `WAIT`: read STAT until its bit 0 is 0. -/
  | wait
  deriving DecidableEq, Repr, Inhabited

/-- `DO <op>` (R113). -/
def Stmt.doOp (i : Instr) : List Stmt := [.op i, .wait]

/-- `SEND <idx>, <arg>` (R113). -/
def Stmt.send (idx : BitVec 6) (arg : Word) : List Stmt := [.wrArg arg, .op (.cmd idx), .wait]

/-- `ASEND <idx>, <arg>` (R113). -/
def Stmt.asend (idx : BitVec 6) (arg : Word) : List Stmt := Stmt.send 55 0 ++ Stmt.send idx arg

/-- `TXI <imm8>` (R113). -/
def Stmt.txi (imm : Byte) : List Stmt := [.wrArg (imm.setWidth 32), .op .txb, .wait]

/-- `RELEASE` (R113): deselect, then read the trailing byte. -/
def Stmt.release : List Stmt := [.op .cdesel, .wait, .op (.rxb 1), .wait]

end Sys2Proof
end

