-- ==== Sys2Proof/Config.lean ====
section
/-! DEFINITION. What is fixed for one machine (the parameters of 00_scope.md R8) and what the spec leaves free (the draws of
93_implementation_defined.md part 1). -/

namespace Sys2Proof

/-- The parameters of R8. A state carries one record of them and no step changes it, so a statement about every state is a
statement about every parameter record (log 1). BLOCK_LEN is not here: it is 512 and not configurable (R9). TICK_BOUND is
open (D60) and is a premise of the statements that need it. -/
structure Params where
  /-- TICK_HZ: informative; no rule of the block reads it (R286). -/
  tickHz : Nat
  /-- TICK_W: width of each tick counter in bits. -/
  tickW : Nat
  /-- READY_TICKS: readiness-wait budget. -/
  readyTicks : Nat
  /-- INIT_TICKS: negotiation budget. -/
  initTicks : Nat
  /-- TOKEN_TICKS: data-token budget. -/
  tokenTicks : Nat
  /-- BUSY_TICKS: post-write busy-drain bound. -/
  busyTicks : Nat
  /-- R1_TRIES: reads of the response byte. -/
  r1Tries : Nat
  /-- POWERUP_IDLE_BYTES: idle bytes sent deselected at power-on. -/
  idleBytes : Nat
  /-- POWERUP_POLL_READS: reads allowed for the power-on acknowledgement. -/
  pollReads : Nat
  /-- DATA_RESP_TRIES: reads allowed for the data response. -/
  respTries : Nat
  /-- BASE: where the platform puts the register space (20_memory.md R62). No rule of the block reads it. -/
  base : Nat
  deriving DecidableEq, Repr

/-- BLOCK_LEN (R8, R9): payload bytes per data block. -/
def blockLen : Nat := 512

namespace Config

/-- The defaults of R8, the values of this spec's hardware. BASE has no default there: 0 is the model's choice (log 14). -/
def defaults : Params where
  tickHz := 100
  tickW := 16
  readyTicks := 50
  initTicks := 100
  tokenTicks := 10
  busyTicks := 50
  r1Tries := 10
  idleBytes := 10
  pollReads := 8192
  respTries := 65
  base := 0

/-- The constraints of R9, with TICK_W at most 32, since a counter lies in its 32-bit word (R32; log 12). -/
abbrev Admissible (p : Params) : Prop :=
  p.tickW ≤ 32 ∧
  (1 ≤ p.readyTicks ∧ p.readyTicks < 2 ^ p.tickW) ∧ (1 ≤ p.initTicks ∧ p.initTicks < 2 ^ p.tickW) ∧
  (1 ≤ p.tokenTicks ∧ p.tokenTicks < 2 ^ p.tickW) ∧ (1 ≤ p.busyTicks ∧ p.busyTicks < 2 ^ p.tickW) ∧
  1 ≤ p.r1Tries ∧ 1 ≤ p.pollReads ∧ 1 ≤ p.respTries

end Config

/-- The events of the agents of R19. One step of the machine takes one event. -/
inductive Event where
  /-- The engine makes its next engine step (10_state.md R37). -/
  | engine
  /-- One tick event (60_exceptions.md R286). -/
  | tick
  /-- The host makes a register access (R13). -/
  | host (a : HostAccess)
  /-- The host makes the next access of its program (30_encoding.md R113). -/
  | program
  /-- rst_n goes low: the reset event (70_reset_and_hazards.md R310). -/
  | resetLow
  /-- rst_n goes high. -/
  | resetHigh
  deriving DecidableEq, Repr, Inhabited

namespace Config

/-- The n-th byte the card sends beyond the listed ones (93 U1: a draw under no law). -/
opaque cardByte : Nat → Byte

/-- DATA byte i after the n-th reset (93 U2: a draw per byte, fresh at every reset). -/
opaque dataByte : Nat → Nat → Byte

/-- What the n-th host read of DATA during an op returns (93 U3: any value). -/
opaque busyDataByte : Nat → Byte

/-- The n-th event beyond the listed ones (93 U11 to U13: every order is admitted). -/
opaque nextEvent : Nat → Event

end Config

end Sys2Proof
end

