-- ==== Sys2Proof/Machine/State.lean ====
section
/-! DEFINITION. The state of the SD/MMC Protocol Engine as plain data (10_state.md), the positions of the engine in an op's
pseudocode (10_state.md R37, 42_card_type_detector.md R237), what stops a step, and the state after reset (R41). -/

namespace Sys2Proof.Machine

/-- The failure causes of 60_exceptions.md R282. The codes 8 to 15 are never produced and have no value here (log 11). -/
inductive Cause where
  /-- 0: the op succeeded. -/
  | none
  /-- 1. -/
  | notReady
  /-- 2. -/
  | timeout
  /-- 3. -/
  | badToken
  /-- 4. -/
  | crcErr
  /-- 5. -/
  | initFail
  /-- 6. -/
  | illegal
  /-- 7. -/
  | noResp
  deriving DecidableEq, Repr, Inhabited

/-- The card types of 10_state.md R27. The codes 5 to 7 are never written and have no value here (log 11). -/
inductive CardType where
  /-- 0. -/
  | none
  /-- 1. -/
  | mmc
  /-- 2. -/
  | sdv1
  /-- 3. -/
  | sdv2Byte
  /-- 4. -/
  | sdv2Block
  deriving DecidableEq, Repr, Inhabited

/-- The fields of STAT (R24). CS is the output cs_n inverted (R31). Reserved bits are not stored: they read 0. -/
structure Stat where
  busy : Bool
  done : Bool
  fail : Bool
  ovr : Bool
  cause : Cause
  ctype : CardType
  pwr : Bool
  cs : Bool
  noinit : Bool
  nodisk : Bool
  wprot : Bool
  deriving DecidableEq, Repr

/-- Positions in `waitReadyCore` (40_readiness_and_dispatch.md R130). -/
inductive WaitPos where
  /-- `arm(T2, READY_TICKS)`. -/
  | arm
  /-- `r <- Rx()`. -/
  | read
  /-- `until r == 0xFF or expired(T2)`. -/
  | test
  deriving DecidableEq, Repr

/-- Positions in `powerOnSeq` (R132). -/
inductive PowerPos where
  /-- The first `CsDeassert()`. -/
  | deselect
  /-- The k-th `Tx(0xFF)`, k from 1. -/
  | idle (k : Nat)
  /-- `CsAssert()`. -/
  | select
  /-- Byte k of the "go idle" frame. -/
  | frame (k : Fin 6)
  /-- `n <- POWERUP_POLL_READS`. -/
  | tries
  /-- `r <- Rx()` of the acknowledgement poll. -/
  | poll
  /-- `n <- n - 1`, with the branch of `until r == 0x01 or n == 0`. -/
  | count
  /-- The last `CsDeassert()`. -/
  | release
  /-- `reg.STAT.PWR <- 1`. -/
  | setPower
  deriving DecidableEq, Repr

/-- Positions in `sendCmd` (R139). -/
inductive SendPos where
  /-- Inside the readiness gate. -/
  | wait (p : WaitPos)
  /-- Byte k of the command frame. -/
  | frame (k : Fin 6)
  /-- The stuffing byte of index 12 (R141). -/
  | stuff
  /-- `n <- R1_TRIES`. -/
  | tries
  /-- `r <- Rx()` of the R1 poll (R142). -/
  | poll
  /-- `n <- n - 1`, with the branch of `until r[7] == 0 or n == 0`. -/
  | count
  deriving DecidableEq, Repr

/-- Positions in PWRON (R131). -/
inductive PwronPos where
  | seq (p : PowerPos)
  | finish
  deriving DecidableEq, Repr

/-- Positions in PWROFF (R133). -/
inductive PwroffPos where
  | clear
  | finish
  deriving DecidableEq, Repr

/-- Positions in WAITRDY (R136). -/
inductive WaitrdyPos where
  | wait (p : WaitPos)
  /-- Standing at the `finish` that the last byte, int.R, decides. -/
  | finish
  deriving DecidableEq, Repr

/-- Positions in CSEL and CDESEL (R137, R138). -/
inductive SelectPos where
  | drive
  | finish
  deriving DecidableEq, Repr

/-- Positions in CMD (R140). -/
inductive CmdPos where
  | send (p : SendPos)
  /-- Standing at `finish` with what `sendCmd` returned. -/
  | finish (r : Byte) (c : Cause)
  deriving DecidableEq, Repr

/-- Positions in TXB (R146). -/
inductive TxbPos where
  | exchange
  | finish
  deriving DecidableEq, Repr

/-- Positions in RXB (R147). -/
inductive RxbPos where
  /-- `DATA[i] <- Rx()`. -/
  | read (i : Nat)
  | finish
  deriving DecidableEq, Repr

/-- Positions in RDBLK (41_block_transfer.md R181). -/
inductive RdblkPos where
  /-- `arm(T1, TOKEN_TICKS)`. -/
  | arm
  /-- `t <- Rx()`. -/
  | token
  /-- `until t != 0xFF or expired(T1)` and the two token tests. -/
  | tokenTest
  /-- `DATA[i] <- Rx()`. -/
  | payload (i : Nat)
  /-- `c1 <- Rx()`. -/
  | check1
  /-- `c0 <- Rx()`. -/
  | check0 (c1 : Byte)
  /-- The checksum comparison and the `finish` it decides. -/
  | verify (c1 c0 : Byte)
  /-- Standing at a failing `finish` of the token stage. -/
  | finish (c : Cause) (r : Byte)
  deriving DecidableEq, Repr

/-- Positions in WRBLK (R186). -/
inductive WrblkPos where
  | wait (p : WaitPos)
  /-- `Tx(tokByte(TOK))`. -/
  | token
  /-- `Tx(DATA[i])`. -/
  | payload (i : Nat)
  /-- The two `Tx(0xFF)`. -/
  | filler (k : Fin 2)
  /-- `n <- DATA_RESP_TRIES`. -/
  | tries
  /-- `r <- Rx()` of the data-response poll (R189). -/
  | response
  /-- `n <- n - 1`, with the branch of `until (r & 0x1F) == 0x05 or n == 0`. -/
  | count
  /-- `arm(T2, BUSY_TICKS)`, holding the accepted response. -/
  | armBusy (r : Byte)
  /-- `b <- Rx()` of the busy drain (R190). -/
  | busy (r : Byte)
  /-- `until b != 0x00 or expired(T2)`. -/
  | busyTest (r : Byte)
  /-- Standing at `finish` with its outcome and RDATA byte. -/
  | finish (c : Cause) (r : Byte)
  deriving DecidableEq, Repr

/-- The legacy candidate `t` of INIT (42_card_type_detector.md R227): 2 is SDv1, 1 is MMC. -/
inductive Legacy where
  | sd
  | mmc
  deriving DecidableEq, Repr

/-- The negotiation loops of INIT (R225, R228). -/
inductive InitLoop where
  /-- State VoltageNegotiation. -/
  | v2
  /-- State LegacyPolling, for the candidate t. -/
  | legacy (t : Legacy)
  deriving DecidableEq, Repr

/-- The commands INIT sends, by the place that sends them (R220). -/
inductive InitCmd where
  /-- State IdleProbe: command 0. -/
  | goIdle
  /-- State InterfaceConditionCheck: command 8. -/
  | ifCond
  /-- State VoltageNegotiation: command 55. -/
  | v2Prefix
  /-- State VoltageNegotiation: command 41 with the high-capacity-support bit. -/
  | v2Init
  /-- State ReadOCR: command 58. -/
  | readOcr
  /-- State LegacyTypeProbe: command 55. -/
  | probePrefix
  /-- State LegacyTypeProbe: command 41. -/
  | probeInit
  /-- State LegacyPolling, t == 2: command 55. -/
  | sdPrefix
  /-- State LegacyPolling, t == 2: command 41. -/
  | sdInit
  /-- State LegacyPolling, t == 1: command 1. -/
  | mmcInit
  /-- State SetBlockLength: command 16, holding t. -/
  | blockLen (t : Legacy)
  deriving DecidableEq, Repr

/-- Positions in INIT (R220, R237). -/
inductive InitPos where
  /-- State Reset: the NODISK test. -/
  | diskTest
  /-- State Reset: inside `powerOnSeq`. -/
  | power (p : PowerPos)
  /-- State Reset: `CsAssert()`. -/
  | select
  /-- State Reset: `int.TYPE <- 0`. -/
  | clearType
  /-- Inside the `sendCmd` of command `c`. -/
  | cmd (c : InitCmd) (p : SendPos)
  /-- State InterfaceConditionCheck: `arm(T1, INIT_TICKS)`. -/
  | armBudget
  /-- `int.E[k] <- Rx()`. -/
  | echo (k : Fin 4)
  /-- `int.OK <- 0` before a negotiation loop. -/
  | clearOk (l : InitLoop)
  /-- `int.OK <- 1; break` of a negotiation loop. -/
  | setOk (l : InitLoop)
  /-- `until expired(T1)` of a negotiation loop. -/
  | loopTest (l : InitLoop)
  /-- State ReadOCR: `int.O[k] <- Rx()`. -/
  | ocr (k : Fin 4)
  /-- State ReadOCR: `int.TYPE <- (int.O[0][6] == 1) ? 4 : 3`. -/
  | ocrType
  /-- State SetBlockLength: `int.TYPE <- t`. -/
  | legacyType (t : Legacy)
  /-- Step 4: `reg.STAT.CTYPE <- int.TYPE`. -/
  | setCtype
  /-- Step 4: `CsDeassert()`. -/
  | deselect
  /-- Step 4: the trailing `Rx()`. -/
  | trailing
  /-- State Failed: `reg.STAT.PWR <- 0`. -/
  | powerOff
  /-- State Failed: `reg.STAT.NOINIT <- 1`. -/
  | setNoinit
  /-- State Ready: `reg.STAT.NOINIT <- 0`. -/
  | clearNoinit
  /-- Standing at the `finish` of step 4. -/
  | finish (c : Cause)
  deriving DecidableEq, Repr

/-- Positions in MEDIA (43_control.md R261). -/
inductive MediaPos where
  | setNodisk
  | setWprot
  | finish
  deriving DecidableEq, Repr

/-- The engine's position `pos` in an op's pseudocode (10_state.md R37), as what is left of it. PWRCHK and SADDR have one
position, their `finish`. -/
inductive Pos where
  | pwron (p : PwronPos)
  | pwroff (p : PwroffPos)
  | pwrchk
  | waitrdy (p : WaitrdyPos)
  | csel (p : SelectPos)
  | cdesel (p : SelectPos)
  | cmd (p : CmdPos)
  | txb (p : TxbPos)
  | rxb (p : RxbPos)
  | rdblk (p : RdblkPos)
  | wrblk (p : WrblkPos)
  | init (p : InitPos)
  | saddr
  | media (p : MediaPos)
  deriving DecidableEq, Repr

/-- int.PHASE (R37). -/
inductive Phase where
  | idle
  | run (op : Instr) (pos : Pos)
  deriving DecidableEq, Repr

/-- The hidden state of 10_state.md R38. -/
structure Internal where
  /-- int.OPL: the latched op word. -/
  opl : Word
  /-- int.ARGL: the latched ARG. -/
  argl : Word
  /-- int.N: the retry count of the loop running now. -/
  n : Nat
  /-- int.R: the last byte received by the running op. -/
  r : Byte
  /-- int.TYPE: INIT's candidate card type. -/
  type : CardType
  /-- int.OK: INIT's loop-success flag. -/
  ok : Bool
  /-- int.E[0..3]: the interface-condition echo. -/
  echo : Vector Byte 4
  /-- int.O[0..3]: the OCR bytes. -/
  ocr : Vector Byte 4
  /-- int.CRC: the running data checksum of RDBLK. -/
  crc : Half
  /-- int.PHASE. -/
  phase : Phase
  deriving DecidableEq, Repr

/-- The DATA buffer (R34): the bytes written since the last reset, as (index, byte) cells with indexes strictly rising and
below 512. An unlisted byte has not been written and reads as its draw. -/
abbrev Memory := List Host.Cell

/-- One exchange on the bus port (20_memory.md R63): the byte the block drove, the byte it received, and whether the card
was selected. -/
structure Exchange where
  mosi : Byte
  miso : Byte
  cs : Bool
  deriving DecidableEq, Repr

/-- What lies outside the block: the inputs of the other agents and the record of the ports. The model's own fields
(logs 2, 3, 4, 5, 8). -/
structure Env where
  /-- The events that come next. -/
  script : List Event
  /-- The bytes the card sends next. -/
  card : List Byte
  /-- The host program's remaining statements (30_encoding.md R113). -/
  program : List Stmt
  /-- Every exchange so far, the newest first. -/
  bus : List Exchange
  /-- What the last host read returned. -/
  readValue : Option Word
  /-- How many bytes were drawn from `Config.cardByte`. -/
  cardDraws : Nat
  /-- How many events were drawn from `Config.nextEvent`. -/
  eventDraws : Nat
  /-- How many bytes were drawn from `Config.busyDataByte`. -/
  readDraws : Nat
  /-- How many resets there were: DATA's draws are fresh after each. -/
  resets : Nat
  deriving DecidableEq, Repr

end Sys2Proof.Machine

namespace Sys2Proof.Machine

/-- The state of the machine: the parameters, the registers of R35, the hidden state of R38, the reset port and the world
outside. -/
structure State where
  /-- The parameter record of this machine (00_scope.md R8). -/
  params : Params
  /-- OP (R23). -/
  op : Word
  /-- ARG (R21). -/
  arg : Word
  /-- RDATA (R22). -/
  rdata : Word
  /-- STAT (R24). -/
  stat : Stat
  /-- T1 (R32), a count. -/
  t1 : Nat
  /-- T2 (R32), a count. -/
  t2 : Nat
  /-- CFG.CRCCHK (R33). -/
  crcchk : Bool
  /-- DATA (R34). -/
  data : Memory
  /-- The hidden state. -/
  int : Internal
  /-- The level of rst_n: false while the reset input is held low (70_reset_and_hazards.md R310). -/
  rstN : Bool
  /-- The world outside the block. -/
  env : Env
  deriving DecidableEq, Repr

/-- Why a step has no next state. No op ever faults: these are accesses the spec gives no outcome (93 U4). -/
inductive Fault where
  /-- Raised by a host access that 20_memory.md R61 does not admit. Safe: the run stops where the hardware gives no effect. -/
  | hostAccessNotAdmitted
  /-- Raised by a host access while rst_n is low (70_reset_and_hazards.md R310). Safe, for the same reason. -/
  | hostAccessInReset
  deriving DecidableEq, Repr

/-- Why the model gives a step no meaning. -/
inductive Refusal where
  /-- Raised by an arm of `exec` for an op without a meaning. No arm raises it now. Safe: the run stops. -/
  | notModelled (mnemonic : String)
  deriving DecidableEq, Repr

/-- STAT after reset (R41). -/
def Stat.reset : Stat where
  busy := false
  done := false
  fail := false
  ovr := false
  cause := .none
  ctype := .none
  pwr := false
  cs := false
  noinit := true
  nodisk := false
  wprot := false

/-- The hidden state after reset: PHASE is IDLE (R41). R38 says of the rest "cleared or made irrelevant"; here it is cleared
(DESIGN CHOICE, log 7). -/
def Internal.reset : Internal where
  opl := 0
  argl := 0
  n := 0
  r := 0
  type := .none
  ok := false
  echo := #v[0, 0, 0, 0]
  ocr := #v[0, 0, 0, 0]
  crc := 0
  phase := .idle

/-- The world outside with nothing placed in it: no event, card byte or host statement is listed (DESIGN CHOICE, log 8). -/
def Env.empty : Env where
  script := []
  card := []
  program := []
  bus := []
  readValue := none
  cardDraws := 0
  eventDraws := 0
  readDraws := 0
  resets := 0

/-- The machine right after reset, rst_n released (R41, R310), with the default parameters of R8. DATA lists nothing: every
byte is its draw. -/
def State.reset : State where
  params := Config.defaults
  op := 0
  arg := 0
  rdata := 0
  stat := Stat.reset
  t1 := 0
  t2 := 0
  crcchk := false
  data := []
  int := Internal.reset
  rstN := true
  env := Env.empty

end Sys2Proof.Machine
end

