-- ==== Sys2Proof/Machine/Operands.lean ====
section
/-! DEFINITION. Operand forms and wire bytes (30_encoding.md R94, R99 to R110) and the data checksum (R107). -/

namespace Sys2Proof.Machine

/-- `zext_32` of a byte (00_scope.md R10). -/
def zext (b : Byte) : Word := b.setWidth 32

/-- The byte a token is sent as (R94). The values are the spec's, from general knowledge (93 G5). -/
def tokByte : Token → Byte
  | .single => 0xFE
  | .multi => 0xFC
  | .stop => 0xFD

/-- The byte TXB sends: int.ARGL[7:0] (R99). -/
def txbByte (arg : Word) : Byte := arg.extractLsb' 0 8

/-- MEDIA's NoDisk bit: int.ARGL[0] (R99). -/
def mediaNodisk (arg : Word) : Bool := arg.getLsbD 0

/-- MEDIA's WriteProtected bit: int.ARGL[1] (R99). -/
def mediaWprot (arg : Word) : Bool := arg.getLsbD 1

/-- The checksum byte of a command frame (R101): it depends on the index only. -/
def cmdCrc (idx : BitVec 6) : Byte :=
  if idx = 0 then 0x95 else if idx = 8 then 0x87 else 0x00

/-- Byte k of the command frame (R100): 0x40 | IDX, the argument big-endian (20_memory.md R65), the checksum byte. -/
def frameByte (idx : BitVec 6) (arg : Word) (k : Fin 6) : Byte :=
  match k with
  | 0 => 0x40 ||| idx.setWidth 8
  | 1 => arg.extractLsb' 24 8
  | 2 => arg.extractLsb' 16 8
  | 3 => arg.extractLsb' 8 8
  | 4 => arg.extractLsb' 0 8
  | 5 => cmdCrc idx

/-- "stop transmission", the index that gets the stuffing byte (R110). -/
abbrev stopIndex : BitVec 6 := 12

/-- The card is ready: the all-ones idle byte (R104). -/
abbrev idleByte : Byte := 0xFF

/-- The start-of-data token RDBLK waits for (R105; 93 G5). -/
abbrev startToken : Byte := 0xFE

/-- An accepted data response: low 5 bits 0x05 (R106; 93 G6). -/
abbrev accepted (r : Byte) : Prop := r &&& 0x1F = 0x05

/-- The index of a command INIT sends (R102; 93 G3). -/
def InitCmd.index : InitCmd → BitVec 6
  | .goIdle => 0
  | .ifCond => 8
  | .v2Prefix => 55
  | .v2Init => 41
  | .readOcr => 58
  | .probePrefix => 55
  | .probeInit => 41
  | .sdPrefix => 55
  | .sdInit => 41
  | .mmcInit => 1
  | .blockLen _ => 16

/-- The argument of a command INIT sends (R102, R108, R109). -/
def InitCmd.argument : InitCmd → Word
  | .goIdle => 0x00000000
  | .ifCond => 0x000001AA
  | .v2Prefix => 0x00000000
  | .v2Init => 0x40000000
  | .readOcr => 0x00000000
  | .probePrefix => 0x00000000
  | .probeInit => 0x00000000
  | .sdPrefix => 0x00000000
  | .sdInit => 0x00000000
  | .mmcInit => 0x00000000
  | .blockLen _ => 0x00000200

/-- The echo matches: E[2] == 0x01 and E[3] == 0xAA (R108; 90_conflicts.md C4). -/
abbrev echoMatches (e : Vector Byte 4) : Prop := e[2] = 0x01 ∧ e[3] = 0xAA

/-- The card type that the OCR gives: bit 30, which is bit 6 of O[0] (R109; 42_card_type_detector.md R226). -/
def ocrType (o : Vector Byte 4) : CardType := if o[0].getLsbD 6 then .sdv2Block else .sdv2Byte

/-- The card type of a legacy candidate (R227). -/
def Legacy.type : Legacy → CardType
  | .sd => .sdv1
  | .mmc => .mmc

/-- One shift of crc16 (R107): polynomial 0x1021, most significant bit first. -/
def crcShift (c : Half) : Half := if c.msb then (c <<< 1) ^^^ 0x1021 else c <<< 1

/-- `k` shifts. -/
def crcShifts : Nat → Half → Half
  | 0, c => c
  | k + 1, c => crcShifts k (crcShift c)

/-- One byte of crc16 (R107). -/
def crcByte (c : Half) (b : Byte) : Half := crcShifts 8 (c ^^^ (b.setWidth 16 <<< 8))

/-- The data checksum crc16 (R107): initial value 0, no reflection, no final XOR (93 G7). -/
def crc16 (bs : List Byte) : Half := bs.foldl crcByte 0

/-- The checksum pair {c1, c0}, c1 first on the wire and high (20_memory.md R66). -/
def checkPair (c1 c0 : Byte) : Half := c1 ++ c0

end Sys2Proof.Machine
end

