-- ==== Sys2Proof/Machine/Flags.lean ====
section
/-! DEFINITION. The words a host reads from the flags: STAT (10_state.md R24), status() (42_card_type_detector.md R232), CFG
(R33), the counters (R32), and the block-addressed predicate (R30). -/

namespace Sys2Proof.Machine

/-- The code of a cause (60_exceptions.md R282). -/
def Cause.code : Cause → BitVec 4
  | .none => 0
  | .notReady => 1
  | .timeout => 2
  | .badToken => 3
  | .crcErr => 4
  | .initFail => 5
  | .illegal => 6
  | .noResp => 7

/-- The code of a card type (R27). -/
def CardType.code : CardType → BitVec 3
  | .none => 0
  | .mmc => 1
  | .sdv1 => 2
  | .sdv2Byte => 3
  | .sdv2Block => 4

/-- A flag as bit k of a word. -/
def flagBit (f : Bool) (k : Nat) : Word := (BitVec.ofBool f).setWidth 32 <<< k

/-- STAT as the host reads it (R24): every bit not listed reads 0. -/
def Stat.word (t : Stat) : Word :=
  flagBit t.busy 0 ||| flagBit t.done 1 ||| flagBit t.fail 2 ||| flagBit t.ovr 3 |||
  (t.cause.code.setWidth 32 <<< 4) ||| (t.ctype.code.setWidth 32 <<< 8) ||| flagBit t.pwr 11 ||| flagBit t.cs 12 |||
  flagBit t.noinit 16 ||| flagBit t.nodisk 17 ||| flagBit t.wprot 18

/-- status() (42_card_type_detector.md R232): bit 0 NOINIT, bit 1 NODISK, bit 2 WPROT. -/
def Stat.status (t : Stat) : Word := flagBit t.noinit 0 ||| flagBit t.nodisk 1 ||| flagBit t.wprot 2

/-- CFG as the host reads it (R33). -/
def State.cfgWord (s : State) : Word := flagBit s.crcchk 0

/-- CRCCHK of a word written to CFG (R33): bits [31:1] are ignored. -/
def cfgCrcchk (v : Word) : Bool := v.getLsbD 0

/-- A counter as the host reads it (R32): the upper bits read 0. -/
def counterWord (k : Nat) : Word := BitVec.ofNat 32 k

/-- The block-addressed predicate (R30). -/
abbrev State.blockAddressed (s : State) : Prop := s.stat.ctype = .sdv2Block

/-- The sector-to-card-address conversion (43_control.md R260): sector * 512 modulo 2^32 unless block-addressed. -/
def State.cardAddress (s : State) (sector : Word) : Word :=
  if s.blockAddressed then sector else sector <<< 9

/-- The level of the output cs_n (R31), active low. -/
def State.csN (s : State) : Bool := !s.stat.cs

end Sys2Proof.Machine
end

