-- ==== Sys2Proof/Machine/Ops.lean ====
section
/-! DEFINITION. The named operations: the DATA buffer, the bus primitives (00_scope.md R12), the counters (R15), acceptance
and completion (60_exceptions.md R280, R281), the tick event (R286) and the reset event (70_reset_and_hazards.md R310), and the
three shared sequences (40_readiness_and_dispatch.md R130, R132, R139). -/

namespace Sys2Proof.Machine

/-- What a step answers. -/
abbrev Result := Host.Outcome State Fault Refusal

/-! ### DATA -/

namespace Memory

/-- The byte a cell list holds at an index, if it lists one. -/
def lookup : Memory → Nat → Option Byte
  | [], _ => none
  | (j, b) :: m, i => if j = i then some b else lookup m i

/-- Write one byte, keeping the indexes strictly rising. -/
def store : Memory → Nat → Byte → Memory
  | [], i, b => [(i, b)]
  | (j, c) :: m, i, b =>
    if i < j then (i, b) :: (j, c) :: m else if i = j then (i, b) :: m else (j, c) :: store m i b

/-- The indexes rise strictly from `lo` and stay below 512. -/
def wfFrom : Nat → Memory → Bool
  | _, [] => true
  | lo, (j, _) :: m => decide (lo ≤ j) && decide (j < blockLen) && wfFrom (j + 1) m

/-- The canonical form: indexes strictly rising and below 512. No cell equals what an unlisted index holds, which is no
value at all, so equal buffers are equal lists. -/
def wf (m : Memory) : Bool := wfFrom 0 m

end Memory

/-- DATA[i] (R34). A byte that nothing has written since the last reset is its draw (log 4). -/
def State.dataByte (s : State) (i : Nat) : Byte := (Memory.lookup s.data i).getD (Config.dataByte s.env.resets i)

/-- `DATA[i] <- b`. DATA has 512 bytes: an index beyond them names nothing. -/
def State.setData (s : State) (i : Nat) (b : Byte) : State :=
  if i < blockLen then { s with data := Memory.store s.data i b } else s

/-! ### Flags and hidden locals -/

/-- `CsAssert()` and `CsDeassert()` (R12, R31). -/
def State.setCs (s : State) (f : Bool) : State := { s with stat := { s.stat with cs := f } }

/-- `reg.STAT.PWR <- f`. -/
def State.setPwr (s : State) (f : Bool) : State := { s with stat := { s.stat with pwr := f } }

/-- `reg.STAT.NOINIT <- f`. -/
def State.setNoinit (s : State) (f : Bool) : State := { s with stat := { s.stat with noinit := f } }

/-- `reg.STAT.NODISK <- f`. -/
def State.setNodisk (s : State) (f : Bool) : State := { s with stat := { s.stat with nodisk := f } }

/-- `reg.STAT.WPROT <- f`. -/
def State.setWprot (s : State) (f : Bool) : State := { s with stat := { s.stat with wprot := f } }

/-- `reg.STAT.CTYPE <- c`. -/
def State.setCtype (s : State) (c : CardType) : State := { s with stat := { s.stat with ctype := c } }

/-- `int.N <- n`. -/
def State.setN (s : State) (n : Nat) : State := { s with int := { s.int with n := n } }

/-- `int.TYPE <- c`. -/
def State.setType (s : State) (c : CardType) : State := { s with int := { s.int with type := c } }

/-- `int.OK <- f`. -/
def State.setOk (s : State) (f : Bool) : State := { s with int := { s.int with ok := f } }

/-- `int.E[k] <- b`. -/
def State.setEcho (s : State) (k : Fin 4) (b : Byte) : State := { s with int := { s.int with echo := s.int.echo.set k b } }

/-- `int.O[k] <- b`. -/
def State.setOcr (s : State) (k : Fin 4) (b : Byte) : State := { s with int := { s.int with ocr := s.int.ocr.set k b } }

/-- int.E and int.O are not kept once INIT has ended (10_state.md R38, 92_eei_decisions.md D53): they go back to what they hold
at reset (DESIGN CHOICE, log 16). -/
def State.dropReplies (s : State) : State :=
  { s with int := { s.int with echo := Internal.reset.echo, ocr := Internal.reset.ocr } }

/-- `int.CRC <- c`. -/
def State.setCrc (s : State) (c : Half) : State := { s with int := { s.int with crc := c } }

/-! ### The engine's position -/

/-- The engine goes to a position of op `i`. -/
def State.goto (s : State) (i : Instr) (p : Pos) : State := { s with int := { s.int with phase := .run i p } }

/-- The engine's position, if op `i` is the one running. -/
def State.posOf (s : State) (i : Instr) : Option Pos :=
  match s.int.phase with
  | .idle => none
  | .run j p => if j = i then some p else none

/-- Where an op's pseudocode starts. -/
def startPos : Instr → Pos
  | .pwron => .pwron (.seq .deselect)
  | .pwroff => .pwroff .clear
  | .pwrchk => .pwrchk
  | .waitrdy => .waitrdy (.wait .arm)
  | .csel => .csel .drive
  | .cdesel => .cdesel .drive
  | .cmd _ => .cmd (.send (.wait .arm))
  | .txb => .txb .exchange
  | .rxb _ => .rxb (.read 0)
  | .rdblk _ => .rdblk .arm
  | .wrblk _ => .wrblk (.wait .arm)
  | .init => .init .diskTest
  | .saddr => .saddr
  | .media => .media .setNodisk

/-- `int.PHASE <- RUN(i, start)`, the last line of acceptance (60_exceptions.md R280). -/
def State.begin (s : State) (i : Instr) : State := s.goto i (startPos i)

/-! ### Bus primitives -/

/-- The byte the card sends in the next exchange (20_memory.md R63): the next listed byte, or else a draw (log 3). -/
def Env.cardByte (e : Env) : Byte :=
  match e.card with
  | b :: _ => b
  | [] => Config.cardByte e.cardDraws

/-- The byte the next exchange receives. -/
def State.cardByte (s : State) : Byte := s.env.cardByte

/-- The world outside after the card has sent its next byte. -/
def Env.afterCard (e : Env) : Env :=
  match e.card with
  | _ :: bs => { e with card := bs }
  | [] => { e with cardDraws := e.cardDraws + 1 }

/-- `Xchg(b)` (R12) without the received byte, which is `s.cardByte`: one exchange, whatever cs_n is. -/
def State.xchg (s : State) (b : Byte) : State :=
  { s with env := { s.env.afterCard with bus := ⟨b, s.cardByte, s.stat.cs⟩ :: s.env.bus } }

/-- `Tx(b)` (R12): the received byte is discarded. -/
def State.tx (s : State) (b : Byte) : State := s.xchg b

/-- `int.R <- b`. -/
def State.setR (s : State) (b : Byte) : State := { s with int := { s.int with r := b } }

/-- `int.R <- Xchg(b)`. -/
def State.exchange (s : State) (b : Byte) : State := (s.xchg b).setR s.cardByte

/-- `int.R <- Rx()` (R12): the block drives 0xFF. -/
def State.rx (s : State) : State := s.exchange idleByte

/-! ### Counters -/

/-- What a counter of TICK_W bits holds after `arm(Tn, k)` (R15, R32). -/
def State.armed (s : State) (k : Nat) : Nat := k % 2 ^ s.params.tickW

/-- `arm(T1, k)`. -/
def State.armT1 (s : State) (k : Nat) : State := { s with t1 := s.armed k }

/-- `arm(T2, k)`. -/
def State.armT2 (s : State) (k : Nat) : State := { s with t2 := s.armed k }

/-- One tick event (60_exceptions.md R286): each nonzero counter goes down by 1. -/
def State.tick (s : State) : State := { s with t1 := s.t1 - 1, t2 := s.t2 - 1 }

/-! ### Acceptance, completion, discarded writes, reset -/

/-- The latching half of acceptance (R280): everything but `PHASE <- RUN(decode(w), start)`. -/
def State.latch (s : State) (w : Word) : State :=
  { s with
    op := w
    stat := { s.stat with busy := true, done := false, fail := false, cause := .none, ovr := false }
    int := { s.int with opl := w, argl := s.arg, phase := .idle } }

/-- `finish` (R281) with outcome `c` (cause `none` is OK) and result `v` (`none` keeps RDATA, R14). -/
def State.finish (s : State) (c : Cause) (v : Option Word) : State :=
  { s with
    rdata := v.getD s.rdata
    stat := { s.stat with fail := decide (c ≠ .none), cause := c, done := true, busy := false }
    int := { s.int with phase := .idle } }

/-- A host write that BUSY == 1 discards (R283). -/
def State.discard (s : State) : State := { s with stat := { s.stat with ovr := true } }

/-- The reset event (70_reset_and_hazards.md R310): every register at its reset value, every DATA byte a fresh draw, a
running op abandoned, no exchange. The world outside stays as it is (R312). -/
def State.resetEvent (s : State) : State :=
  { State.reset with
    params := s.params
    rstN := false
    env := { s.env with resets := s.env.resets + 1 } }

/-! ### Shared sequences -/

/-- What one engine step of a shared sequence leaves: a further position in it, or what it returned. -/
inductive Progress (π ρ : Type) where
  | more (p : π)
  | done (r : ρ)
  deriving DecidableEq, Repr

/-- One engine step of `waitReadyCore()` (R130). The test of the byte is part of the counter test; in this and the next two
sequences a test of no tick counter goes with the step before it (DESIGN CHOICE, log 27). -/
def waitStep (p : WaitPos) (s : State) : Progress WaitPos Byte × State :=
  match p with
  | .arm => (.more .read, s.armT2 s.params.readyTicks)
  | .read => (.more .test, s.rx)
  | .test => if s.int.r = idleByte ∨ s.t2 = 0 then (.done s.int.r, s) else (.more .read, s)

/-- Where `powerOnSeq` goes after its k-th idle byte: to the next one, or on to `CsAssert()`. -/
def afterIdle (s : State) (k : Nat) : PowerPos := if k < s.params.idleBytes then .idle (k + 1) else .select

/-- Where the acknowledgement poll goes once its count is lowered: `until r == 0x01 or n == 0`. -/
def afterPowerCount (r : Byte) (n : Nat) : PowerPos := if r = 0x01 ∨ n = 0 then .release else .poll

/-- One engine step of `powerOnSeq()` (R132). -/
def powerStep (p : PowerPos) (s : State) : Progress PowerPos Byte × State :=
  match p with
  | .deselect => (.more (afterIdle s 0), s.setCs false)
  | .idle k => (.more (afterIdle s k), s.tx idleByte)
  | .select => (.more (.frame 0), s.setCs true)
  | .frame k => (.more (if k = 5 then .tries else .frame (k + 1)), s.tx (frameByte 0 0 k))
  | .tries => (.more .poll, s.setN s.params.pollReads)
  | .poll => (.more .count, s.rx)
  | .count => (.more (afterPowerCount s.int.r (s.int.n - 1)), s.setN (s.int.n - 1))
  | .release => (.more .setPower, s.setCs false)
  | .setPower => (.done s.int.r, s.setPwr true)

/-- Where `sendCmd` goes after frame byte k: to the next byte, to the stuffing byte of index 12 (R141), or on to the poll. -/
def afterFrame (idx : BitVec 6) (k : Fin 6) : SendPos :=
  if k = 5 then if idx = stopIndex then .stuff else .tries else .frame (k + 1)

/-- Where the R1 poll goes once its count is lowered (R142): `until r[7] == 0 or n == 0`, then what `sendCmd` returns. -/
def afterSendCount (r : Byte) (n : Nat) : Progress SendPos (Byte × Cause) :=
  if r.msb = false then .done (r, .none) else if n = 0 then .done (r, .noResp) else .more .poll

/-- One engine step of `sendCmd(idx, arg)` (R139): the readiness gate (R143), the frame, the stuffing byte (R141), the R1
poll (R142). -/
def sendStep (idx : BitVec 6) (arg : Word) (p : SendPos) (s : State) : Progress SendPos (Byte × Cause) × State :=
  match p with
  | .wait q =>
    match waitStep q s with
    | (.more q', t) => (.more (.wait q'), t)
    | (.done w, t) => if w = idleByte then (.more (.frame 0), t) else (.done (0xFF, .notReady), t)
  | .frame k => (.more (afterFrame idx k), s.tx (frameByte idx arg k))
  | .stuff => (.more .tries, s.rx)
  | .tries => (.more .poll, s.setN s.params.r1Tries)
  | .poll => (.more .count, s.rx)
  | .count => (afterSendCount s.int.r (s.int.n - 1), s.setN (s.int.n - 1))

end Sys2Proof.Machine
end

