-- ==== Sys2Proof/Machine/Block.lean ====
section
/-! DEFINITION. The block-data ops RDBLK and WRBLK (41_block_transfer.md R180 to R192). -/

namespace Sys2Proof.Machine

/-- The running checksum takes one more payload byte, when CFG.CRCCHK == 1 (R184, 10_state.md R38). -/
def State.runCrc (s : State) (b : Byte) : State := if s.crcchk then s.setCrc (crcByte s.int.crc b) else s

/-- The token poll's test (R182): go on, or fail with TIMEOUT or BADTOKEN, or take the block. -/
def rdblkTokenTest (s : State) : RdblkPos × State :=
  if s.int.r = idleByte then
    if s.t1 = 0 then (.finish .timeout idleByte, s) else (.token, s)
  else if s.int.r = startToken then (.payload 0, s.setCrc 0)
  else (.finish .badToken s.int.r, s)

/-- RDBLK's outcome after the checksum pair (R184): it is compared only when CFG.CRCCHK == 1. -/
def rdblkCause (s : State) (c1 c0 : Byte) : Cause :=
  if s.crcchk ∧ s.int.crc ≠ checkPair c1 c0 then .crcErr else .none

/-- One engine step of RDBLK (R181). It writes DATA, though 20_memory.md R77 calls the host its only writer (DESIGN CHOICE,
log 26). int.CRC, which no line of R181 writes, follows the token and each payload byte (log 17). The checksum test is joined
to its finish, the token tests to the counter test (DESIGN CHOICE, log 27). -/
def rdblkStep (len : Nat) (p : RdblkPos) (s : State) : State :=
  match p with
  | .arm => (s.armT1 s.params.tokenTicks).goto (.rdblk len) (.rdblk .token)
  | .token => s.rx.goto (.rdblk len) (.rdblk .tokenTest)
  | .tokenTest => (rdblkTokenTest s).2.goto (.rdblk len) (.rdblk (rdblkTokenTest s).1)
  | .payload i =>
    ((s.rx.setData i s.cardByte).runCrc s.cardByte).goto (.rdblk len)
      (.rdblk (if i + 1 < len then .payload (i + 1) else .check1))
  | .check1 => s.rx.goto (.rdblk len) (.rdblk (.check0 s.cardByte))
  | .check0 c1 => s.rx.goto (.rdblk len) (.rdblk (.verify c1 s.cardByte))
  | .verify c1 c0 => s.finish (rdblkCause s c1 c0) (some ((checkPair c1 c0).setWidth 32))
  | .finish c r => s.finish c (some (zext r))

/-- RDBLK (R181): receive one data block of `len` bytes. -/
def execRdblk (len : Nat) (s : State) : Result :=
  match s.posOf (.rdblk len) with
  | some (.rdblk p) => .next (rdblkStep len p s)
  | _ => .next (s.begin (.rdblk len))

/-- Where the data-response poll goes once its count is lowered (R189): accept, run out of tries, or go on. -/
def afterRespCount (r : Byte) (n : Nat) : WrblkPos :=
  if accepted r then .armBusy r else if n = 0 then .finish .badToken r else .response

/-- The busy drain's test (R190), holding the accepted response `r`. -/
def wrblkBusyTest (s : State) (r : Byte) : WrblkPos :=
  if s.int.r ≠ 0x00 then .finish .none r
  else if s.t2 = 0 then .finish .timeout 0x00
  else .busy r

/-- One engine step of WRBLK (R186). Each test goes with the step before it (DESIGN CHOICE, log 27). -/
def wrblkStep (tok : Token) (p : WrblkPos) (s : State) : State :=
  match p with
  | .wait q =>
    match waitStep q s with
    | (.more q', t) => t.goto (.wrblk tok) (.wrblk (.wait q'))
    | (.done w, t) => t.goto (.wrblk tok) (.wrblk (if w = idleByte then .token else .finish .notReady w))
  | .token =>
    (s.tx (tokByte tok)).goto (.wrblk tok) (.wrblk (if tok = .stop then .finish .none 0xFF else .payload 0))
  | .payload i =>
    (s.tx (s.dataByte i)).goto (.wrblk tok) (.wrblk (if i + 1 < blockLen then .payload (i + 1) else .filler 0))
  | .filler k => (s.tx 0xFF).goto (.wrblk tok) (.wrblk (if k = 0 then .filler 1 else .tries))
  | .tries => (s.setN s.params.respTries).goto (.wrblk tok) (.wrblk .response)
  | .response => s.rx.goto (.wrblk tok) (.wrblk .count)
  | .count => (s.setN (s.int.n - 1)).goto (.wrblk tok) (.wrblk (afterRespCount s.int.r (s.int.n - 1)))
  | .armBusy r => (s.armT2 s.params.busyTicks).goto (.wrblk tok) (.wrblk (.busy r))
  | .busy r => s.rx.goto (.wrblk tok) (.wrblk (.busyTest r))
  | .busyTest r => s.goto (.wrblk tok) (.wrblk (wrblkBusyTest s r))
  | .finish c r => s.finish c (some (zext r))

/-- WRBLK (R186): transmit one data block or the stop token. -/
def execWrblk (tok : Token) (s : State) : Result :=
  match s.posOf (.wrblk tok) with
  | some (.wrblk p) => .next (wrblkStep tok p s)
  | _ => .next (s.begin (.wrblk tok))

end Sys2Proof.Machine
end

