-- ==== Sys2Proof/Machine/Command.lean ====
section
/-! DEFINITION. The readiness, chip-select, command and raw byte ops WAITRDY, CSEL, CDESEL, CMD, TXB and RXB
(40_readiness_and_dispatch.md R136 to R147). -/

namespace Sys2Proof.Machine

/-- WAITRDY (R136): the readiness wait; OK when it returned the idle byte, FAIL(NOTREADY) otherwise. That
test is joined to its finish (DESIGN CHOICE, log 27). -/
def execWaitrdy (s : State) : Result :=
  match s.posOf .waitrdy with
  | some (.waitrdy (.wait p)) =>
    match waitStep p s with
    | (.more q, t) => .next (t.goto .waitrdy (.waitrdy (.wait q)))
    | (.done _, t) => .next (t.goto .waitrdy (.waitrdy .finish))
  | some (.waitrdy .finish) =>
    .next (s.finish (if s.int.r = idleByte then .none else .notReady) (some (zext s.int.r)))
  | _ => .next (s.begin .waitrdy)

/-- CSEL (R137): `CsAssert(); finish(OK, 1)`. -/
def execCsel (s : State) : Result :=
  match s.posOf .csel with
  | some (.csel .drive) => .next ((s.setCs true).goto .csel (.csel .finish))
  | some (.csel .finish) => .next (s.finish .none (some 1))
  | _ => .next (s.begin .csel)

/-- CDESEL (R138): `CsDeassert(); finish(OK, 0)`. -/
def execCdesel (s : State) : Result :=
  match s.posOf .cdesel with
  | some (.cdesel .drive) => .next ((s.setCs false).goto .cdesel (.cdesel .finish))
  | some (.cdesel .finish) => .next (s.finish .none (some 0))
  | _ => .next (s.begin .cdesel)

/-- CMD (R140): `(r, c) <- sendCmd(IDX, int.ARGL)`, then `finish` with OK or FAIL(c) and RDATA r; the
test of c is joined to it (DESIGN CHOICE, log 27). -/
def execCmd (idx : BitVec 6) (s : State) : Result :=
  match s.posOf (.cmd idx) with
  | some (.cmd (.send p)) =>
    match sendStep idx s.int.argl p s with
    | (.more q, t) => .next (t.goto (.cmd idx) (.cmd (.send q)))
    | (.done (r, c), t) => .next (t.goto (.cmd idx) (.cmd (.finish r c)))
  | some (.cmd (.finish r c)) => .next (s.finish c (some (zext r)))
  | _ => .next (s.begin (.cmd idx))

/-- TXB (R146): `r <- Xchg(int.ARGL[7:0]); finish(OK, zext_32(r))`. -/
def execTxb (s : State) : Result :=
  match s.posOf .txb with
  | some (.txb .exchange) => .next ((s.exchange (txbByte s.int.argl)).goto .txb (.txb .finish))
  | some (.txb .finish) => .next (s.finish .none (some (zext s.int.r)))
  | _ => .next (s.begin .txb)

/-- RXB (R147): `for i in 0..LEN-1: DATA[i] <- Rx()`, then `finish(OK, zext_32(DATA[LEN-1]))`. RXB
writes DATA, though 20_memory.md R77 calls the host its only writer (DESIGN CHOICE, log 26). -/
def execRxb (len : Nat) (s : State) : Result :=
  match s.posOf (.rxb len) with
  | some (.rxb (.read i)) =>
    .next ((s.rx.setData i s.cardByte).goto (.rxb len) (.rxb (if i + 1 < len then .read (i + 1) else .finish)))
  | some (.rxb .finish) => .next (s.finish .none (some (zext (s.dataByte (len - 1)))))
  | _ => .next (s.begin (.rxb len))

end Sys2Proof.Machine
end

