-- ==== Sys2Proof/Machine/Control.lean ====
section
/-! DEFINITION. The address conversion SADDR and the media flags MEDIA (43_control.md R260, R261). -/

namespace Sys2Proof.Machine

/-- SADDR (R260): RDATA is the card address of sector int.ARGL. The block-addressed test is joined to its finish (DESIGN CHOICE,
log 27). -/
def execSaddr (s : State) : Result :=
  match s.posOf .saddr with
  | some .saddr => .next (s.finish .none (some (s.cardAddress s.int.argl)))
  | _ => .next (s.begin .saddr)

/-- MEDIA (R261): NODISK and WPROT from int.ARGL[1:0]; RDATA is status(). -/
def execMedia (s : State) : Result :=
  match s.posOf .media with
  | some (.media .setNodisk) => .next ((s.setNodisk (mediaNodisk s.int.argl)).goto .media (.media .setWprot))
  | some (.media .setWprot) => .next ((s.setWprot (mediaWprot s.int.argl)).goto .media (.media .finish))
  | some (.media .finish) => .next (s.finish .none (some s.stat.status))
  | _ => .next (s.begin .media)

end Sys2Proof.Machine
end

