-- ==== Sys2Proof/Machine/Detector.lean ====
section
/-! DEFINITION. The card-type detector INIT (42_card_type_detector.md R220 to R237). -/

namespace Sys2Proof.Machine

/-- The start of the `sendCmd` of command `c`. -/
def InitCmd.start (c : InitCmd) : InitPos := .cmd c (.wait .arm)

/-- The prefix is accepted: R1 <= 0x01 (30_encoding.md R103; 93 G4). -/
abbrev prefixAccepted (r : Byte) : Prop := r ≤ 0x01

/-- The first command of an iteration of a loop (R225, R228). -/
def InitLoop.first : InitLoop → InitPos
  | .v2 => InitCmd.start .v2Prefix
  | .legacy .sd => InitCmd.start .sdPrefix
  | .legacy .mmc => InitCmd.start .mmcInit

/-- The command that follows a loop's success (R226, R229). -/
def InitLoop.next : InitLoop → InitPos
  | .v2 => InitCmd.start .readOcr
  | .legacy t => InitCmd.start (.blockLen t)

/-- After a loop (R226, R229): its next command only if int.OK. -/
def afterLoop (l : InitLoop) (ok : Bool) : InitPos := if ok then l.next else .setCtype

/-- Where INIT goes on the response `r` of command `c` (R222 to R229). A failed readiness gate gives 0xFF, which every test
refuses (40_readiness_and_dispatch.md R144). -/
def initReply (c : InitCmd) (r : Byte) : InitPos :=
  match c with
  | .goIdle => if r = 0x01 then .armBudget else .setCtype
  | .ifCond => if r = 0x01 then .echo 0 else InitCmd.start .probePrefix
  | .v2Prefix => if prefixAccepted r then InitCmd.start .v2Init else .loopTest .v2
  | .v2Init => if r = 0x00 then .setOk .v2 else .loopTest .v2
  | .readOcr => if r = 0x00 then .ocr 0 else .setCtype
  | .probePrefix => if prefixAccepted r then InitCmd.start .probeInit else .clearOk (.legacy .mmc)
  | .probeInit => .clearOk (.legacy (if prefixAccepted r then .sd else .mmc))
  | .sdPrefix => if prefixAccepted r then InitCmd.start .sdInit else .loopTest (.legacy .sd)
  | .sdInit => if r = 0x00 then .setOk (.legacy .sd) else .loopTest (.legacy .sd)
  | .mmcInit => if r = 0x00 then .setOk (.legacy .mmc) else .loopTest (.legacy .mmc)
  | .blockLen t => if r = 0x00 then .legacyType t else .setCtype

/-- After echo byte k (R224): the next one, or the echo check. -/
def initAfterEcho (k : Fin 4) (e : Vector Byte 4) : InitPos :=
  if k = 3 then if echoMatches e then .clearOk .v2 else .setCtype else .echo (k + 1)

/-- After OCR byte k (R226): the next one, or the type that the OCR gives. -/
def initAfterOcr (k : Fin 4) : InitPos := if k = 3 then .ocrType else .ocr (k + 1)

/-- INIT's `finish`, with RDATA status() (R232). -/
def State.finishInit (s : State) (c : Cause) : State := s.dropReplies.finish c (some s.stat.status)

/-- Go to the position of a pair. -/
def initGoto (x : InitPos × State) : State := x.2.goto .init (.init x.1)

/-- One engine step of INIT (R220). The NODISK test is joined to its finish, or is a step of its own when NODISK is 0; every
other test goes with the step before it (DESIGN CHOICE, log 27). -/
def initStep (p : InitPos) (s : State) : State :=
  match p with
  | .diskTest =>
    if s.stat.nodisk then s.finishInit .notReady else initGoto (.power .deselect, s)
  | .power q =>
    match powerStep q s with
    | (.more q', t) => initGoto (.power q', t)
    | (.done _, t) => initGoto (.select, t)
  | .select => initGoto (.clearType, s.setCs true)
  | .clearType => initGoto (InitCmd.start .goIdle, s.setType .none)
  | .cmd c q =>
    match sendStep c.index c.argument q s with
    | (.more q', t) => initGoto (.cmd c q', t)
    | (.done (r, _), t) => initGoto (initReply c r, t)
  | .armBudget => initGoto (InitCmd.start .ifCond, s.armT1 s.params.initTicks)
  | .echo k => initGoto (initAfterEcho k (s.int.echo.set k s.cardByte), s.rx.setEcho k s.cardByte)
  | .clearOk l => initGoto (l.first, s.setOk false)
  | .setOk l => initGoto (afterLoop l true, s.setOk true)
  | .loopTest l => initGoto (if s.t1 = 0 then afterLoop l s.int.ok else l.first, s)
  | .ocr k => initGoto (initAfterOcr k, s.rx.setOcr k s.cardByte)
  | .ocrType => initGoto (.setCtype, s.setType (ocrType s.int.ocr))
  | .legacyType t => initGoto (.setCtype, s.setType t.type)
  | .setCtype => initGoto (.deselect, s.setCtype s.int.type)
  | .deselect => initGoto (.trailing, s.setCs false)
  | .trailing => initGoto (if s.int.type = .none then .powerOff else .clearNoinit, s.rx)
  | .powerOff => initGoto (.setNoinit, s.setPwr false)
  | .setNoinit => initGoto (.finish .initFail, s.setNoinit true)
  | .clearNoinit => initGoto (.finish .none, s.setNoinit false)
  | .finish c => s.finishInit c

/-- INIT (R220): detect the card type. -/
def execInit (s : State) : Result :=
  match s.posOf .init with
  | some (.init p) => .next (initStep p s)
  | _ => .next (s.begin .init)

end Sys2Proof.Machine
end

