-- ==== Sys2Proof/Machine/Power.lean ====
section
/-! DEFINITION. The power ops PWRON, PWROFF and PWRCHK (40_readiness_and_dispatch.md R131 to R135). -/

namespace Sys2Proof.Machine

/-- PWRON (R131): `r <- powerOnSeq(); finish(OK, zext_32(r))`. -/
def execPwron (s : State) : Result :=
  match s.posOf .pwron with
  | some (.pwron (.seq p)) =>
    match powerStep p s with
    | (.more q, t) => .next (t.goto .pwron (.pwron (.seq q)))
    | (.done _, t) => .next (t.goto .pwron (.pwron .finish))
  | some (.pwron .finish) => .next (s.finish .none (some (zext s.int.r)))
  | _ => .next (s.begin .pwron)

/-- PWROFF (R133): `reg.STAT.PWR <- 0; finish(OK, 0)`. -/
def execPwroff (s : State) : Result :=
  match s.posOf .pwroff with
  | some (.pwroff .clear) => .next ((s.setPwr false).goto .pwroff (.pwroff .finish))
  | some (.pwroff .finish) => .next (s.finish .none (some 0))
  | _ => .next (s.begin .pwroff)

/-- PWRCHK (R134): `finish(OK, zext_32(reg.STAT.PWR))`. -/
def execPwrchk (s : State) : Result :=
  match s.posOf .pwrchk with
  | some .pwrchk => .next (s.finish .none (some (flagBit s.stat.pwr 0)))
  | _ => .next (s.begin .pwrchk)

end Sys2Proof.Machine
end

