-- ==== Sys2Proof/Machine/Dispatch.lean ====
section
/-! DEFINITION. The meaning of each op. `exec i s` is the step the engine makes for op i in state s: in a state where op i
does not run it is the start of the op, `PHASE <- RUN(i, start)` (60_exceptions.md R280), and in a state where it runs it is
the one engine step at the position PHASE holds (10_state.md R37). -/

namespace Sys2Proof.Machine

def exec (i : Instr) (s : State) : Host.Outcome State Fault Refusal :=
  match i with
  | .pwron => Sys2Proof.Machine.execPwron s
  | .pwroff => Sys2Proof.Machine.execPwroff s
  | .pwrchk => Sys2Proof.Machine.execPwrchk s
  | .waitrdy => Sys2Proof.Machine.execWaitrdy s
  | .csel => Sys2Proof.Machine.execCsel s
  | .cdesel => Sys2Proof.Machine.execCdesel s
  | .cmd idx => Sys2Proof.Machine.execCmd idx s
  | .txb => Sys2Proof.Machine.execTxb s
  | .rxb len => Sys2Proof.Machine.execRxb len s
  | .rdblk len => Sys2Proof.Machine.execRdblk len s
  | .wrblk tok => Sys2Proof.Machine.execWrblk tok s
  | .init => Sys2Proof.Machine.execInit s
  | .saddr => Sys2Proof.Machine.execSaddr s
  | .media => Sys2Proof.Machine.execMedia s

end Sys2Proof.Machine
end

