-- ==== Sys2Proof/WellFormed.lean ====
section
/-! DEFINITION. Which ops have an op word (30_encoding.md R92, R93, R94). -/

namespace Sys2Proof

/-- LEN of RXB and RDBLK is 1 to 512 (R93). Every IDX (R92) and every token (R94) is legal. -/
abbrev lenOk (len : Nat) : Prop := 1 ≤ len ∧ len ≤ blockLen

/-- The well-formed ops: those some op word stands for. -/
def WellFormed : Instr → Bool
  | .rxb len => decide (lenOk len)
  | .rdblk len => decide (lenOk len)
  | .pwron | .pwroff | .pwrchk | .waitrdy | .csel | .cdesel | .txb | .init | .saddr | .media => true
  | .cmd _ => true
  | .wrblk _ => true

end Sys2Proof
end

