-- ==== Sys2Proof/Decode.lean ====
section
/-! DEFINITION. The decoder of op words (30_encoding.md R90 to R97), its encoder, and the opcode table of R95. -/

namespace Sys2Proof

/-- Why a word is illegal (R96). The block gives every illegal word the same outcome (R97, R285), so the reason is a name
for the reader and nothing tests it. -/
inductive Illegal where
  /-- OPC is 0x00 or in 0x0F-0xFF. -/
  | unusedOpcode
  /-- A reserved field of the format is nonzero. -/
  | reservedBits
  /-- LEN is 0 or above 512. -/
  | badLength
  /-- TOK is 3. -/
  | badToken
  deriving DecidableEq, Repr

/-- What the decoder answers: an op or a refusal by name. -/
inductive Decoded where
  | op (i : Instr)
  | illegal (why : Illegal)
  deriving DecidableEq, Repr

/-- Field OPC, bits [7:0] (R90). -/
def opcField (w : Word) : BitVec 8 := w.extractLsb' 0 8

/-- Field IDX, bits [13:8] (R92). -/
def idxField (w : Word) : BitVec 6 := w.extractLsb' 8 6

/-- Field LEN, bits [25:16] (R93). -/
def lenField (w : Word) : Nat := (w.extractLsb' 16 10).toNat

/-- Field TOK, bits [9:8] (R94). -/
def tokField (w : Word) : BitVec 2 := w.extractLsb' 8 2

/-- A format N word (R91): bits [31:8] must be 0. -/
def decodeN (w : Word) (i : Instr) : Decoded :=
  if w.extractLsb' 8 24 = 0 then .op i else .illegal .reservedBits

/-- A format C word (R92): bits [31:14] must be 0. -/
def decodeC (w : Word) : Decoded :=
  if w.extractLsb' 14 18 = 0 then .op (.cmd (idxField w)) else .illegal .reservedBits

/-- A format L word (R93): bits [31:26] and [15:8] must be 0, LEN is 1 to 512. -/
def decodeL (w : Word) (mk : Nat → Instr) : Decoded :=
  if w.extractLsb' 26 6 = 0 ∧ w.extractLsb' 8 8 = 0 then
    if lenOk (lenField w) then .op (mk (lenField w)) else .illegal .badLength
  else .illegal .reservedBits

/-- A format T word (R94): bits [31:10] must be 0, TOK is not 3. -/
def decodeT (w : Word) : Decoded :=
  if w.extractLsb' 10 22 = 0 then
    if tokField w = 0 then .op (.wrblk .single)
    else if tokField w = 1 then .op (.wrblk .multi)
    else if tokField w = 2 then .op (.wrblk .stop)
    else .illegal .badToken
  else .illegal .reservedBits

/-- The total decoder of R97. -/
def decode (w : Word) : Decoded :=
  match (opcField w).toNat with
  | 0x01 => decodeN w .pwron
  | 0x02 => decodeN w .pwroff
  | 0x03 => decodeN w .pwrchk
  | 0x04 => decodeN w .waitrdy
  | 0x05 => decodeN w .csel
  | 0x06 => decodeN w .cdesel
  | 0x07 => decodeC w
  | 0x08 => decodeN w .txb
  | 0x09 => decodeL w .rxb
  | 0x0A => decodeL w .rdblk
  | 0x0B => decodeT w
  | 0x0C => decodeN w .init
  | 0x0D => decodeN w .saddr
  | 0x0E => decodeN w .media
  | _ => .illegal .unusedOpcode

/-- TOK of a token (R94). -/
def tokCode : Token → Word
  | .single => 0
  | .multi => 1
  | .stop => 2

/-- The op word of an op (R112: `0x07 | idx << 8`, `0x09 | len << 16`, `0x0A | len << 16`, `0x0B | tok << 8`). -/
def encode : Instr → Word
  | .pwron => 0x01
  | .pwroff => 0x02
  | .pwrchk => 0x03
  | .waitrdy => 0x04
  | .csel => 0x05
  | .cdesel => 0x06
  | .cmd idx => 0x07 ||| (idx.setWidth 32 <<< 8)
  | .txb => 0x08
  | .rxb len => 0x09 ||| (BitVec.ofNat 32 len <<< 16)
  | .rdblk len => 0x0A ||| (BitVec.ofNat 32 len <<< 16)
  | .wrblk tok => 0x0B ||| (tokCode tok <<< 8)
  | .init => 0x0C
  | .saddr => 0x0D
  | .media => 0x0E

/-- The field constraint of a table row (R95). -/
inductive RowConstraint where
  | any
  /-- 1 ≤ LEN ≤ 512. -/
  | len
  /-- TOK ≠ 3. -/
  | tok
  deriving DecidableEq, Repr

/-- One row of the match and mask table of R95. -/
structure OpRow where
  mnemonic : String
  pattern : Word
  mask : Word
  constraint : RowConstraint
  deriving DecidableEq, Repr

/-- The match and mask table of R95. -/
def opTable : List OpRow :=
  [⟨"PWRON", 0x00000001, 0xFFFFFFFF, .any⟩, ⟨"PWROFF", 0x00000002, 0xFFFFFFFF, .any⟩,
   ⟨"PWRCHK", 0x00000003, 0xFFFFFFFF, .any⟩, ⟨"WAITRDY", 0x00000004, 0xFFFFFFFF, .any⟩,
   ⟨"CSEL", 0x00000005, 0xFFFFFFFF, .any⟩, ⟨"CDESEL", 0x00000006, 0xFFFFFFFF, .any⟩,
   ⟨"CMD", 0x00000007, 0xFFFFC0FF, .any⟩, ⟨"TXB", 0x00000008, 0xFFFFFFFF, .any⟩,
   ⟨"RXB", 0x00000009, 0xFC00FFFF, .len⟩, ⟨"RDBLK", 0x0000000A, 0xFC00FFFF, .len⟩,
   ⟨"WRBLK", 0x0000000B, 0xFFFFFCFF, .tok⟩, ⟨"INIT", 0x0000000C, 0xFFFFFFFF, .any⟩,
   ⟨"SADDR", 0x0000000D, 0xFFFFFFFF, .any⟩, ⟨"MEDIA", 0x0000000E, 0xFFFFFFFF, .any⟩]

/-- The field constraint of a row holds of a word. -/
def RowConstraint.holds (c : RowConstraint) (w : Word) : Prop :=
  match c with
  | .any => True
  | .len => lenOk (lenField w)
  | .tok => tokField w ≠ 3

/-- "a word w selects the row when `w & mask == match` and the row's field constraint holds" (R95). -/
def OpRow.selects (r : OpRow) (w : Word) : Prop := w &&& r.mask = r.pattern ∧ r.constraint.holds w

/-- The op the decoder reads from an op word of `nbits` bits (an op word is one 32-bit word, R111). -/
def decodeTableWord (nbits w : Nat) : Option Instr :=
  if nbits ≤ 32 then
    match decode (BitVec.ofNat 32 (w % 2 ^ nbits)) with
    | .op i => some i
    | .illegal _ => none
  else none

end Sys2Proof
end

