-- ==== Sys2Proof/Machine/HostPort.lean ====
section
/-! DEFINITION. The host's register port: the register map (10_state.md R35, R36), admitted accesses (20_memory.md R61), reads
and the writes that start no op (R70, 60_exceptions.md R283), and the host programs of 30_encoding.md R113. -/

namespace Sys2Proof.Machine

/-- What an admitted access names (R35). -/
inductive HostReg where
  | op | arg | stat | rdata | t1 | t2 | cfg
  /-- A reserved word of 0x01C-0x1FF (R36). -/
  | reserved
  /-- DATA[i], at offset 0x200 + i. -/
  | data (i : Nat)
  deriving DecidableEq, Repr

/-- The register at an aligned word offset below 0x200 (R35). -/
def wordReg (off : Nat) : HostReg :=
  match off with
  | 0x000 => .op
  | 0x004 => .arg
  | 0x008 => .stat
  | 0x00C => .rdata
  | 0x010 => .t1
  | 0x014 => .t2
  | 0x018 => .cfg
  | _ => .reserved

/-- What the access of `n` bytes at `off` names; `none` when it is not admitted (R61): only aligned 32-bit accesses at
0x000-0x1FC and single bytes at 0x200-0x3FF are. -/
def locate (off n : Nat) : Option HostReg :=
  if n = 4 ∧ off % 4 = 0 ∧ off ≤ 0x1FC then some (wordReg off)
  else if n = 1 ∧ 0x200 ≤ off ∧ off ≤ 0x3FF then some (.data (off - 0x200))
  else none

/-- The host address of an offset (R62). -/
def State.hostAddress (s : State) (off : Nat) : Nat := s.params.base + off

/-- What a read of a register returns (R22 to R24, R32 to R34, R36). DATA during an op is a draw (R34; log 5). -/
def State.hostValue (s : State) (r : HostReg) : Word :=
  match r with
  | .op => s.op
  | .arg => s.arg
  | .stat => s.stat.word
  | .rdata => s.rdata
  | .t1 => counterWord s.t1
  | .t2 => counterWord s.t2
  | .cfg => s.cfgWord
  | .reserved => 0
  | .data i => zext (if s.stat.busy then Config.busyDataByte s.env.readDraws else s.dataByte i)

/-- The world outside after a read returned `v`: the value is recorded, and a DATA read during an op used a draw. -/
def Env.afterRead (e : Env) (v : Word) (drew : Bool) : Env :=
  { e with readValue := some v, readDraws := if drew then e.readDraws + 1 else e.readDraws }

/-- A register is part of DATA. -/
def HostReg.isData : HostReg → Bool
  | .data _ => true
  | .op | .arg | .stat | .rdata | .t1 | .t2 | .cfg | .reserved => false

/-- A host read (R70): no side effect on the block. -/
def State.hostRead (s : State) (r : HostReg) : State :=
  { s with env := s.env.afterRead (s.hostValue r) (r.isData && s.stat.busy) }

/-- A host write to a register other than OP (R70, R283): ARG, CFG and DATA store, or set OVR during an op; the others ignore
it. The byte a DATA write carries is v[7:0]. -/
def State.hostStore (s : State) (r : HostReg) (v : Word) : State :=
  match r with
  | .arg => if s.stat.busy then s.discard else { s with arg := v }
  | .cfg => if s.stat.busy then s.discard else { s with crcchk := cfgCrcchk v }
  | .data i => if s.stat.busy then s.discard else s.setData i (v.extractLsb' 0 8)
  | .op | .stat | .rdata | .t1 | .t2 | .reserved => s

/-- The offset a `RD` statement reads (R113). -/
def readOffset : ReadReg → Nat
  | .op => 0x000
  | .arg => 0x004
  | .stat => 0x008
  | .rdata => 0x00C
  | .t1 => 0x010
  | .t2 => 0x014
  | .cfg => 0x018

/-- The access a statement makes (R113). WAIT reads STAT. -/
def stmtAccess : Stmt → HostAccess
  | .op i => .write 0x000 4 (encode i)
  | .wrArg v => .write 0x004 4 v
  | .wrCfg v => .write 0x018 4 v
  | .wrData i b => .write (0x200 + i) 1 (zext b)
  | .rd r => .read (readOffset r) 4
  | .rdData i => .read (0x200 + i) 1
  | .wait => .read 0x008 4

/-- A statement is over after its access, but WAIT only when the value it read has bit 0 clear (R113). -/
def stmtOver (c : Stmt) (v : Option Word) : Bool :=
  match c with
  | .wait => !((v.getD 0).getLsbD 0)
  | .op _ | .wrArg _ | .wrCfg _ | .wrData _ _ | .rd _ | .rdData _ => true

/-- The program after the access of its first statement. -/
def State.advanceProgram (s : State) : State :=
  match s.env.program with
  | [] => s
  | c :: rest => if stmtOver c s.env.readValue then { s with env := { s.env with program := rest } } else s

end Sys2Proof.Machine
end

