-- ==== Sys2Proof/Machine/Events.lean ====
section
/-! DEFINITION. What one event of one agent does (00_scope.md R19): the engine's step, the host's access, the host program's
next access, a tick, the reset input. -/

namespace Sys2Proof.Machine

/-- An engine step (10_state.md R37): the running op's step. An idle engine has none, and nothing changes. -/
def engineStep (s : State) : Result :=
  match s.int.phase with
  | .idle => .next s
  | .run i _ => exec i s

/-- Acceptance of op word `w` (60_exceptions.md R280): latch, then start the op; an illegal word finishes in the same step
with FAIL(ILLEGAL) and RDATA kept (R285). -/
def acceptOp (s : State) (w : Word) : Result :=
  match decode w with
  | .op i => exec i (s.latch w)
  | .illegal _ => .next ((s.latch w).finish .illegal none)

/-- An admitted host write (20_memory.md R70): to OP it accepts an op, or sets OVR during one (60_exceptions.md R283). -/
def hostWrite (s : State) (r : HostReg) (v : Word) : Result :=
  match r with
  | .op => if s.stat.busy then .next s.discard else acceptOp s v
  | .arg | .stat | .rdata | .t1 | .t2 | .cfg | .reserved | .data _ => .next (s.hostStore r v)

/-- A host access (20_memory.md R61): one that is not admitted has no outcome, nor has any while rst_n is low (R310). -/
def hostStep (s : State) (a : HostAccess) : Result :=
  if s.rstN then
    match a with
    | .read off n =>
      match locate off n with
      | some r => .next (s.hostRead r)
      | none => .fault .hostAccessNotAdmitted
    | .write off n v =>
      match locate off n with
      | some r => hostWrite s r v
      | none => .fault .hostAccessNotAdmitted
  else .fault .hostAccessInReset

/-- The host program's next access (30_encoding.md R113); a finished program makes none. -/
def programStep (s : State) : Result :=
  match s.env.program with
  | [] => .next s
  | c :: _ =>
    match hostStep s (stmtAccess c) with
    | .next t => .next t.advanceProgram
    | .fault f => .fault f
    | .refused r => .refused r

/-- What an event does. -/
def applyEvent (e : Event) (s : State) : Result :=
  match e with
  | .engine => engineStep s
  | .tick => .next s.tick
  | .host a => hostStep s a
  | .program => programStep s
  | .resetLow => .next s.resetEvent
  | .resetHigh => .next { s with rstN := true }

/-- The event that comes next (20_memory.md R73): the next listed one, or else a free one (93 U12; log 2). -/
def State.nextEvent (s : State) : Event :=
  match s.env.script with
  | e :: _ => e
  | [] => Config.nextEvent s.env.eventDraws

/-- The world outside after an event was taken. -/
def Env.afterEvent (e : Env) : Env :=
  match e.script with
  | _ :: es => { e with script := es }
  | [] => { e with eventDraws := e.eventDraws + 1 }

/-- The state in which the next event acts. -/
def State.takeEvent (s : State) : State := { s with env := s.env.afterEvent }

/-- The host write of `w` to OP as the next event, with no op running and rst_n high. -/
def State.placeWord (s : State) (w : Word) : State :=
  { s with
    stat := { s.stat with busy := false }
    int := { s.int with phase := .idle }
    rstN := true
    env := { s.env with script := .host (.write 0x000 4 w) :: s.env.script } }

end Sys2Proof.Machine
end

