-- ==== Sys2Proof/Machine/Step.lean ====
section
/-! DEFINITION. One step of the machine: the next event takes place (20_memory.md R73). -/

namespace Sys2Proof.Machine

/-- One step: take the next event of the interleaving and let it act. -/
def step (s : State) : Host.Outcome State Fault Refusal := applyEvent s.nextEvent s.takeEvent

/-- The op word `w` of `nbits` bits where the next step takes it: the block fetches nothing (10_state.md R37), an op comes by
a host write to OP (60_exceptions.md R280), so the next event is that write (log 13). -/
def State.withFetchWord (s : State) (nbits w : Nat) : State := s.placeWord (BitVec.ofNat 32 (w % 2 ^ nbits))

end Sys2Proof.Machine
end

