-- ==== Sys2Proof/Safety.lean ====
section
/-! DEFINITION. What claims about the machine are stated in: runs of an op and of a list of events, the invariant of the
reachable states, tick fairness, and the shapes of bus traffic. -/

namespace Sys2Proof.Machine

/-- `k` engine steps of op `i`, with no other event between them. -/
def execN (i : Instr) : Nat → State → Result
  | 0, s => .next s
  | k + 1, s =>
    match exec i s with
    | .next t => execN i k t
    | .fault f => .fault f
    | .refused r => .refused r

/-- Op `i` runs and the engine stands at position `p` of it (10_state.md R37). -/
abbrev State.standsAt (s : State) (i : Instr) (p : Pos) : Prop := s.int.phase = .run i p

/-- A position is one of the op's own. -/
def posFits : Instr → Pos → Bool
  | .pwron, .pwron _ | .pwroff, .pwroff _ | .pwrchk, .pwrchk | .waitrdy, .waitrdy _ | .csel, .csel _ | .cdesel, .cdesel _
  | .cmd _, .cmd _ | .txb, .txb _ | .rxb _, .rxb _ | .rdblk _, .rdblk _ | .wrblk _, .wrblk _ | .init, .init _
  | .saddr, .saddr | .media, .media _ => true
  | _, _ => false

/-- CardType is None exactly when NotInitialized is set (10_state.md R28). -/
abbrev Stat.typeAgrees (t : Stat) : Prop := t.ctype = .none ↔ t.noinit = true

/-- How CTYPE and NOINIT stand to each other at a position of INIT: R28 until step 4 writes CTYPE, and again at its
`finish`, where the outcome is OK exactly when a type was found (42_card_type_detector.md R232, R235). -/
def initAgrees (p : InitPos) (s : State) : Prop :=
  match p with
  | .deselect | .trailing => s.stat.ctype = s.int.type
  | .powerOff | .setNoinit => s.stat.ctype = .none
  | .clearNoinit => s.stat.ctype ≠ .none
  | .finish c => s.stat.typeAgrees ∧ (c = .none ↔ s.stat.ctype ≠ .none)
  | .diskTest | .power _ | .select | .clearType | .cmd _ _ | .armBudget | .echo _ | .clearOk _ | .setOk _ | .loopTest _
  | .ocr _ | .ocrType | .legacyType _ | .setCtype =>
    s.stat.typeAgrees

/-- R28, refined by INIT's position while INIT runs. -/
def State.typeAgrees (s : State) : Prop :=
  match s.int.phase with
  | .run .init (.init p) => initAgrees p s
  | _ => s.stat.typeAgrees

/-- The invariant of the reachable states. -/
structure State.Inv (s : State) : Prop where
  /-- BUSY is 1 exactly while an op runs (10_state.md R37). -/
  busy_iff : s.stat.busy = true ↔ s.int.phase ≠ .idle
  /-- While an op runs, DONE, FAIL and CAUSE are 0 (R25, 60_exceptions.md R280). -/
  busy_clear : s.stat.busy = true → s.stat.done = false ∧ s.stat.fail = false
  /-- FAIL is 0 exactly when CAUSE is 0 (R25). -/
  fail_iff : s.stat.fail = true ↔ s.stat.cause ≠ .none
  /-- OP reads back the latched word (R23, R38). -/
  latched : s.op = s.int.opl
  /-- The op that runs is the one the latched word decodes to (R37). -/
  running : ∀ i p, s.standsAt i p → decode s.int.opl = .op i ∧ posFits i p = true
  /-- T1 and T2 fit in TICK_W bits (R32). -/
  counters : s.t1 < 2 ^ s.params.tickW ∧ s.t2 < 2 ^ s.params.tickW
  /-- DATA keeps its canonical form. -/
  data_wf : Memory.wf s.data = true
  /-- No op runs while rst_n is low (70_reset_and_hazards.md R310). -/
  reset_idle : s.rstN = false → s.int.phase = .idle
  /-- CTYPE agrees with NOINIT (R28). -/
  type_agrees : s.typeAgrees

/-- The payload bytes DATA[0..n-1]. -/
def State.dataBytes (s : State) (n : Nat) : List Byte := (List.range n).map s.dataByte

/-- int.CRC is the checksum of the payload bytes received so far, at every position of RDBLK after the token, when CFG.CRCCHK
is 1; with CRCCHK 0 nothing is asked (10_state.md R38, 41_block_transfer.md R184; when int.CRC is written is DEDUCED, log 17;
crc16 is 93 G7's). -/
def State.crcAgrees (s : State) : Prop :=
  s.crcchk = true →
    match s.int.phase with
    | .run (.rdblk len) (.rdblk p) =>
      match p with
      | .payload i => i < len ∧ s.int.crc = crc16 (s.dataBytes i)
      | .check1 | .check0 _ | .verify _ _ => s.int.crc = crc16 (s.dataBytes len)
      | .arm | .token | .tokenTest | .finish _ _ => True
    | _ => True

/-- `runEvents es s`: the events of `es` take place one after another. -/
def runEvents : List Event → State → Result
  | [], s => .next s
  | e :: es, s =>
    match applyEvent e s with
    | .next t => runEvents es t
    | .fault f => .fault f
    | .refused r => .refused r

/-- How many engine steps stand among the events `ev k` with `from ≤ k < from + n`. -/
def engineCount (ev : Nat → Event) (start : Nat) : Nat → Nat
  | 0 => 0
  | n + 1 => engineCount ev start n + if ev (start + n) = .engine then 1 else 0

/-- TICK_BOUND = m (70_reset_and_hazards.md R320): after every engine step at most m engine steps pass before the next tick
event. -/
def TickBound (m : Nat) (ev : Nat → Event) : Prop :=
  ∀ k, ev k = .engine → ∃ n, ev (k + 1 + n) = .tick ∧ engineCount ev (k + 1) n ≤ m

/-- The engine keeps making steps. -/
def EngineGoesOn (ev : Nat → Event) : Prop := ∀ k, ∃ n, ev (k + n) = .engine

/-- `tr` is the run of the events `ev`. -/
def RunOf (ev : Nat → Event) (tr : Nat → State) : Prop := ∀ k, applyEvent (ev k) (tr k) = .next (tr (k + 1))

/-- Exchanges as the bus record holds them, the newest first: what the block drove beside what the card sent, in wire
order, at one cs level. -/
def traffic (cs : Bool) (mosi miso : List Byte) : List Exchange :=
  (List.zipWith (fun o i => (⟨o, i, cs⟩ : Exchange)) mosi miso).reverse

/-- `n` idle bytes, what the block drives while it reads (30_encoding.md R104). -/
def idles (n : Nat) : List Byte := List.replicate n 0xFF

/-- The six bytes of a command frame as R100 writes them out. -/
def frameBytes (idx : BitVec 6) (arg : Word) : List Byte :=
  [0x40 ||| idx.setWidth 8, arg.extractLsb' 24 8, arg.extractLsb' 16 8, arg.extractLsb' 8 8, arg.extractLsb' 0 8, cmdCrc idx]

/-- The card's next bytes are `bs`, listed or drawn (20_memory.md R63). -/
def Env.sends : Env → List Byte → Prop
  | _, [] => True
  | e, b :: bs => e.cardByte = b ∧ Env.sends e.afterCard bs

/-- The world outside after the card has sent its next `k` bytes. -/
def Env.afterCards : Nat → Env → Env
  | 0, e => e
  | k + 1, e => Env.afterCards k e.afterCard

/-- The world outside after the card sent `miso` while the block drove `mosi`, at the cs level of `s`. -/
def State.afterTraffic (s : State) (mosi miso : List Byte) : Env :=
  { s.env.afterCards miso.length with bus := traffic s.stat.cs mosi miso ++ s.env.bus }

/-- What the card sends to a command when it is ready at once: 0xFF, the bytes during the frame, then the response. -/
def answer (noise : List Byte) (r : Byte) : List Byte := 0xFF :: (noise ++ [r])

/-- What the block drives for a command that is ready at once and answered at the first read. -/
def sent (idx : BitVec 6) (arg : Word) : List Byte := 0xFF :: (frameBytes idx arg ++ [0xFF])

/-- The next engine step ends the `sendCmd` of INIT's command `c` with response `r` (40_readiness_and_dispatch.md R139): the R1
poll ends with `r`, answered or out of tries (R142), or the readiness gate fails and the response is 0xFF (R143). -/
def State.endsWith (s : State) (c : InitCmd) (r : Byte) : Prop :=
  (s.standsAt .init (.init (.cmd c .count)) ∧ s.int.r = r ∧ (r.msb = false ∨ s.int.n ≤ 1)) ∨
  (s.standsAt .init (.init (.cmd c (.wait .test))) ∧ r = 0xFF ∧ s.int.r ≠ 0xFF ∧ s.t2 = 0)

/-- The next engine step takes INIT to position `p` and changes nothing else but the count int.N. -/
def State.leadsTo (s : State) (p : InitPos) : Prop :=
  ∃ n, exec .init s = .next { s with int := { s.int with n := n, phase := .run .init (.init p) } }

/-- STAT after an op that started with the fields `t` has finished with outcome `c` (60_exceptions.md R281). -/
def Stat.ended (t : Stat) (c : Cause) : Stat :=
  { t with busy := false, done := true, fail := decide (c ≠ .none), cause := c }

/-- The hidden state once the op has finished, its loop locals int.N and int.R left at some value. -/
def Internal.ended (t : Internal) (n : Nat) (r : Byte) : Internal := { t with n := n, r := r, phase := .idle }

end Sys2Proof.Machine
end

