-- ==== Sys2Proof/Certificates/Slice0/Obligations.lean ====
section
/-! DEFINITION. The statements for the provers. Each docstring names the rules of spec/ it formalises. In a statement about an
op, `s` stands where the engine starts the op's pseudocode after acceptance, and `execN i k s` is `k` calls of `exec i`. -/

open Sys2Proof Sys2Proof.Machine

/-! ### Encoding -/

/-- Words written out from the opcode map of R95 and the decode vectors of 95_test_vectors.md L2.1. -/
def Obligations.DecodeOfTheListedOpWords : Prop :=
  decode 0x00000001 = .op .pwron ∧ decode 0x00000004 = .op .waitrdy ∧ decode 0x00000007 = .op (.cmd 0) ∧
  decode 0x00003F07 = .op (.cmd 63) ∧ decode 0x00000008 = .op .txb ∧ decode 0x00010009 = .op (.rxb 1) ∧
  decode 0x0200000A = .op (.rdblk 512) ∧ decode 0x0000010B = .op (.wrblk .multi) ∧ decode 0x0000020B = .op (.wrblk .stop) ∧
  decode 0x0000000C = .op .init ∧ decode 0x0000000D = .op .saddr ∧ decode 0x0000000E = .op .media ∧
  decode 0x00000101 = .illegal .reservedBits ∧ decode 0x00004007 = .illegal .reservedBits ∧
  decode 0x02010009 = .illegal .badLength ∧ decode 0x0000030B = .illegal .badToken ∧
  decode 0x00000000 = .illegal .unusedOpcode ∧ decode 0x0000000F = .illegal .unusedOpcode

/-- Decoding the word of a well-formed op gives the op back, every operand at every value it admits (R92 to R95, R112). -/
def Obligations.DecodeOfEncodeIsTheOp : Prop :=
  ∀ i : Instr, WellFormed i = true → decode (encode i) = .op i

/-- A word that decodes to an op is that op's only word, and the op is well-formed (R96: every word is either one row of R95
or illegal). -/
def Obligations.OnlyItsOwnWordDecodesToAnOp : Prop :=
  ∀ (w : Word) (i : Instr), decode w = .op i → WellFormed i = true ∧ encode i = w

/-- The decoder of R97 agrees with the match and mask table of R95, and no two rows select the same word. -/
def Obligations.DecoderAgreesWithTheMatchTable : Prop :=
  (∀ (w : Word) (m : String), (∃ i, decode w = .op i ∧ i.mnemonic = m) ↔ ∃ r ∈ opTable, r.mnemonic = m ∧ r.selects w) ∧
  ∀ (w : Word), ∀ r ∈ opTable, ∀ q ∈ opTable, r.selects w → q.selects w → r = q

/-- The illegal words are those R96 lists: unused OPC, a nonzero reserved field of the format, LEN 0 or above 512, TOK 3. -/
def Obligations.IllegalWordsAreThoseListed : Prop :=
  ∀ w : Word, (∃ e, decode w = .illegal e) ↔
    (w.toNat % 256 = 0 ∨ 0x0F ≤ w.toNat % 256) ∨
    (w.toNat % 256 ∈ [1, 2, 3, 4, 5, 6, 8, 12, 13, 14] ∧ w.toNat / 2 ^ 8 ≠ 0) ∨
    (w.toNat % 256 = 7 ∧ w.toNat / 2 ^ 14 ≠ 0) ∨
    (w.toNat % 256 ∈ [9, 10] ∧
      (w.toNat / 2 ^ 26 ≠ 0 ∨ w.toNat / 2 ^ 8 % 2 ^ 8 ≠ 0 ∨ w.toNat / 2 ^ 16 % 2 ^ 10 = 0 ∨
        512 < w.toNat / 2 ^ 16 % 2 ^ 10)) ∨
    (w.toNat % 256 = 11 ∧ (w.toNat / 2 ^ 10 ≠ 0 ∨ w.toNat / 2 ^ 8 % 4 = 3))

/-! ### Steps, acceptance, completion -/

/-- A step takes the next event. An engine step of a running op is `exec` of that op; a host write to OP of a word that
decodes to an op is `exec` of that op on the latched state (10_state.md R37, 60_exceptions.md R280). -/
def Obligations.AStepRunsTheDecodedOp : Prop :=
  (∀ (s : State) (es : List Event) (i : Instr) (p : Pos), s.env.script = .engine :: es → s.standsAt i p →
    step s = exec i { s with env := { s.env with script := es } }) ∧
  (∀ (s : State) (es : List Event) (w : Word) (i : Instr), s.env.script = .host (.write 0 4 w) :: es → s.rstN = true →
    s.stat.busy = false → decode w = .op i →
    step s = exec i
      { s with
        op := w
        stat := { s.stat with busy := true, done := false, fail := false, cause := .none, ovr := false }
        int := { s.int with opl := w, argl := s.arg, phase := .idle }
        env := { s.env with script := es } })

/-- R280: a host write to OP with BUSY == 0 latches OP, int.OPL and int.ARGL, sets BUSY, clears DONE, FAIL, CAUSE and OVR, and
sets PHASE to RUN(decode(w), start), all in one step; a legal op then goes on by engine steps; an illegal op has finished. -/
def Obligations.AcceptanceLatchesTheOp : Prop :=
  ∀ (s : State) (w : Word), s.rstN = true → s.stat.busy = false →
    (∀ i, decode w = .op i →
      hostStep s (.write 0 4 w) = .next
        { s with
          op := w
          stat := { s.stat with busy := true, done := false, fail := false, cause := .none, ovr := false }
          int := { s.int with opl := w, argl := s.arg, phase := .run i (startPos i) } } ∧
      ∀ t : State, t.standsAt i (startPos i) → engineStep t = exec i t) ∧
    (∀ e, decode w = .illegal e → ∃ t, hostStep s (.write 0 4 w) = .next t ∧ t.stat.busy = false ∧ t.stat.done = true)

/-- R285: an illegal word is accepted and finished with FAIL(ILLEGAL) in one step. No exchange, cs_n change, counter arm or
DATA write happens, RDATA keeps its value, OP holds w, and STAT then reads BUSY 0, DONE 1, FAIL 1, CAUSE 6. That OVR is cleared
and that int.OPL and int.ARGL are latched, as at every acceptance, is the model's reading (DEDUCED, log 25). -/
def Obligations.IllegalOpFinishesAtOnce : Prop :=
  ∀ (s : State) (w : Word) (e : Illegal), s.rstN = true → s.stat.busy = false → decode w = .illegal e →
    ∃ t, hostStep s (.write 0 4 w) = .next t ∧
      t = { s with
            op := w
            stat := { s.stat with busy := false, done := true, fail := true, cause := .illegal, ovr := false }
            int := { s.int with opl := w, argl := s.arg, phase := .idle } } ∧
      t.hostValue .stat &&& 0xFF = 0x66

/-- An engine step of a running op either goes on within the op, leaving OP, ARG, RDATA, the completion fields and OVR as they
are, or it is `finish` (10_state.md R22, R25; 60_exceptions.md R281, R291), at which INIT keeps neither int.E nor int.O (R38). -/
def Obligations.AnEngineStepGoesOnOrFinishes : Prop :=
  ∀ (i : Instr) (p : Pos) (s t : State), s.standsAt i p → posFits i p = true → exec i s = .next t →
    (∃ q, t.standsAt i q ∧ posFits i q = true ∧ t.op = s.op ∧ t.arg = s.arg ∧ t.rdata = s.rdata ∧
      t.stat.busy = s.stat.busy ∧ t.stat.done = s.stat.done ∧ t.stat.fail = s.stat.fail ∧ t.stat.cause = s.stat.cause ∧ t.stat.ovr = s.stat.ovr) ∨
    (∃ c v e o,
      t = { s with
            rdata := v
            stat := { s.stat with busy := false, done := true, fail := decide (c ≠ .none), cause := c }
            int := { s.int with echo := e, ocr := o, phase := .idle } } ∧
      (i ≠ .init → e = s.int.echo ∧ o = s.int.ocr))

/-- No op raises a trap: every op in every state has a next state (00_scope.md R14, 60_exceptions.md R290). -/
def Obligations.EveryOpHasANextState : Prop :=
  ∀ (i : Instr) (s : State), ∃ t, exec i s = .next t

/-! ### Frames of all ops -/

/-- What no op changes: the parameters, OP, ARG, CFG, the latches, OVR, rst_n, and the host's and the tick source's side of
the world (10_state.md R21, R23, R33, R38, R39). -/
def Obligations.NoOpChangesTheHostsRegisters : Prop :=
  ∀ (i : Instr) (s t : State), exec i s = .next t →
    t.params = s.params ∧ t.op = s.op ∧ t.arg = s.arg ∧ t.crcchk = s.crcchk ∧ t.int.opl = s.int.opl ∧
    t.int.argl = s.int.argl ∧ t.stat.ovr = s.stat.ovr ∧ t.rstN = s.rstN ∧ t.env.script = s.env.script ∧
    t.env.program = s.env.program ∧ t.env.readValue = s.env.readValue

/-- Only the ops R24 names write CTYPE, NOINIT, PWR, CS, NODISK and WPROT. -/
def Obligations.OnlyNamedOpsWriteStatFields : Prop :=
  ∀ (i : Instr) (s t : State), exec i s = .next t →
    (i ≠ .init → t.stat.ctype = s.stat.ctype ∧ t.stat.noinit = s.stat.noinit) ∧
    (i ≠ .pwron → i ≠ .pwroff → i ≠ .init → t.stat.pwr = s.stat.pwr) ∧
    (i ≠ .csel → i ≠ .cdesel → i ≠ .pwron → i ≠ .init → t.stat.cs = s.stat.cs) ∧
    (i ≠ .media → t.stat.nodisk = s.stat.nodisk ∧ t.stat.wprot = s.stat.wprot)

/-- The counters are armed by the ops of R294 with the values given there, and by no other (R322). -/
def Obligations.OnlyNamedOpsArmTheCounters : Prop :=
  ∀ (i : Instr) (s t : State), exec i s = .next t →
    (t.t1 = s.t1 ∨ (i = .init ∧ t.t1 = s.params.initTicks % 2 ^ s.params.tickW) ∨
      (∃ len, i = .rdblk len ∧ t.t1 = s.params.tokenTicks % 2 ^ s.params.tickW)) ∧
    (t.t2 = s.t2 ∨
      ((i = .waitrdy ∨ (∃ idx, i = .cmd idx) ∨ (∃ tok, i = .wrblk tok) ∨ i = .init) ∧
        t.t2 = s.params.readyTicks % 2 ^ s.params.tickW) ∨
      (∃ tok, i = .wrblk tok ∧ t.t2 = s.params.busyTicks % 2 ^ s.params.tickW))

/-- An engine step makes at most one exchange; it carries the card's next byte at the cs level before the step, and it is
added to the byte stream (20_memory.md R63, R70, R76). -/
def Obligations.AtMostOneExchangePerEngineStep : Prop :=
  ∀ (i : Instr) (s t : State), exec i s = .next t →
    t.env = s.env ∨ ∃ b, t.env = { s.env.afterCard with bus := ⟨b, s.cardByte, s.stat.cs⟩ :: s.env.bus }

/-- Only RXB and RDBLK write DATA, each in its read step, at the index of that step, the byte the card sends; every other byte
reads as before (10_state.md R34, 20_memory.md R66). -/
def Obligations.OnlyReadStepsWriteData : Prop :=
  ∀ (i : Instr) (s t : State), exec i s = .next t → ∀ j,
    (∀ len k, i = .rxb len → s.standsAt i (.rxb (.read k)) →
      t.dataByte j = if j = k ∧ k < 512 then s.cardByte else s.dataByte j) ∧
    (∀ len k, i = .rdblk len → s.standsAt i (.rdblk (.payload k)) →
      t.dataByte j = if j = k ∧ k < 512 then s.cardByte else s.dataByte j) ∧
    ((∀ len k, i = .rxb len → ¬ s.standsAt i (.rxb (.read k))) →
      (∀ len k, i = .rdblk len → ¬ s.standsAt i (.rdblk (.payload k))) → t.dataByte j = s.dataByte j)

/-! ### Noninterference -/

/-- R135: PowerState gates nothing. Every op but PWRCHK, which reads it, does with PWR 0 exactly what it does with PWR 1. -/
def Obligations.PowerStateGatesNoOp : Prop :=
  ∀ (i : Instr) (s t : State) (f : Bool), i ≠ .pwrchk → exec i s = .next t →
    ∃ u, exec i { s with stat := { s.stat with pwr := f } } = .next u ∧
      { u with stat := { u.stat with pwr := false } } = { t with stat := { t.stat with pwr := false } }

/-- No op tests cs_n: with the other level an op does the same, but for the level the byte stream records (10_state.md R31,
70_reset_and_hazards.md R321). -/
def Obligations.ChipSelectGatesNoOp : Prop :=
  ∀ (i : Instr) (s t : State) (f : Bool), exec i s = .next t →
    ∃ u, exec i { s with stat := { s.stat with cs := f } } = .next u ∧
      { u with stat := { u.stat with cs := false }, env := { u.env with bus := [] } } =
        { t with stat := { t.stat with cs := false }, env := { t.env with bus := [] } } ∧
      u.env.bus.map (fun e => (e.mosi, e.miso)) = t.env.bus.map (fun e => (e.mosi, e.miso))

/-- R262: the block does not enforce write protection. With the other value of WPROT an op does the same, but for bit 2 of
status() that INIT and MEDIA return. -/
def Obligations.WriteProtectionGatesNoOp : Prop :=
  ∀ (i : Instr) (s t : State) (f : Bool), exec i s = .next t →
    ∃ u, exec i { s with stat := { s.stat with wprot := f } } = .next u ∧
      { u with rdata := 0, stat := { u.stat with wprot := false } } =
        { t with rdata := 0, stat := { t.stat with wprot := false } } ∧
      (i ≠ .init → i ≠ .media → u.rdata = t.rdata) ∧ u.rdata &&& 0xFFFFFFFB = t.rdata &&& 0xFFFFFFFB

/-- R62: BASE changes none of the block's behaviour. Where a step has a next state, the machine at another base has the same
one. -/
def Obligations.BaseChangesNoBehaviour : Prop :=
  ∀ (s t : State) (b : Nat), step s = .next t →
    step { s with params := { s.params with base := b } } = .next { t with params := { t.params with base := b } }

/-! ### Power and chip-select ops -/

/-- R131, R132: PWRON sends its idle bytes deselected, then the "go idle" frame selected, then reads until 0x01 or until its
reads run out; it always finishes OK with the last byte, PWR 1 and the card deselected. `noise` are the bytes the card sends
during idle bytes and frame, `refusals` the poll bytes that are not 0x01. -/
def Obligations.PwronWakesTheCard : Prop :=
  ∀ (s : State) (noise refusals : List Byte) (r : Byte),
    s.standsAt .pwron (.pwron (.seq .deselect)) →
    noise.length = s.params.idleBytes + 6 → (∀ b ∈ refusals, b ≠ 0x01) →
    (r = 0x01 ∧ refusals.length < s.params.pollReads ∨ refusals.length + 1 = s.params.pollReads) →
    s.env.sends (noise ++ (refusals ++ [r])) →
    ∃ k n, execN .pwron k s = .next
      { s with
        rdata := r.setWidth 32
        stat := { s.stat with busy := false, done := true, fail := false, cause := .none, pwr := true, cs := false }
        int := s.int.ended n r
        env := { s.env.afterCards (noise ++ (refusals ++ [r])).length with
          bus := traffic true (frameBytes 0 0 ++ idles (refusals.length + 1))
                   (noise.drop s.params.idleBytes ++ (refusals ++ [r])) ++
                 (traffic false (idles s.params.idleBytes) (noise.take s.params.idleBytes) ++ s.env.bus) } }

/-- R133: PWROFF, the word 0x00000002, clears PWR and finishes OK with RDATA 0; nothing else changes. -/
def Obligations.PwroffClearsPowerOnly : Prop :=
  decode 0x00000002 = .op .pwroff ∧ ∀ s : State, s.standsAt .pwroff (.pwroff .clear) →
    ∃ u, exec .pwroff s = .next u ∧
      exec .pwroff u = .next
        { s with
          rdata := 0
          stat := { s.stat with busy := false, done := true, fail := false, cause := .none, pwr := false }
          int := { s.int with phase := .idle } }

/-- R134: PWRCHK, the word 0x00000003, finishes OK with RDATA zext_32(PWR); nothing else changes. PWR is also bit 11 of STAT. -/
def Obligations.PwrchkReadsPower : Prop :=
  decode 0x00000003 = .op .pwrchk ∧ (∀ s : State, (s.hostValue .stat).getLsbD 11 = s.stat.pwr) ∧
  ∀ s : State, s.standsAt .pwrchk .pwrchk →
    exec .pwrchk s = .next
      { s with
        rdata := if s.stat.pwr then 1 else 0
        stat := { s.stat with busy := false, done := true, fail := false, cause := .none }
        int := { s.int with phase := .idle } }

/-- R137, R138: CSEL, the word 0x00000005, drives cs_n low and finishes OK with RDATA 1; CDESEL, the word 0x00000006, drives it
high and finishes OK with RDATA 0; nothing else changes. -/
def Obligations.ChipSelectOpsDriveTheLine : Prop :=
  (decode 0x00000005 = .op .csel ∧ decode 0x00000006 = .op .cdesel) ∧
  (∀ s : State, s.standsAt .csel (.csel .drive) →
    ∃ u, exec .csel s = .next u ∧ u.csN = false ∧
      exec .csel u = .next
        { s with
          rdata := 1
          stat := { s.stat with busy := false, done := true, fail := false, cause := .none, cs := true }
          int := { s.int with phase := .idle } }) ∧
  (∀ s : State, s.standsAt .cdesel (.cdesel .drive) →
    ∃ u, exec .cdesel s = .next u ∧ u.csN = true ∧
      exec .cdesel u = .next
        { s with
          rdata := 0
          stat := { s.stat with busy := false, done := true, fail := false, cause := .none, cs := false }
          int := { s.int with phase := .idle } })

/-! ### Readiness -/

/-- R130, R136: with a card that sends other bytes and then 0xFF, and no tick between, WAITRDY arms T2, reads up to the 0xFF
and finishes OK with RDATA 0xFF. -/
def Obligations.WaitrdyFindsTheIdleByte : Prop :=
  ∀ (s : State) (bs : List Byte),
    s.standsAt .waitrdy (.waitrdy (.wait .arm)) → s.params.readyTicks % 2 ^ s.params.tickW ≠ 0 →
    (∀ b ∈ bs, b ≠ 0xFF) → s.env.sends (bs ++ [0xFF]) →
    ∃ k n, execN .waitrdy k s = .next
      { s with
        rdata := 0xFF
        t2 := s.params.readyTicks % 2 ^ s.params.tickW
        stat := s.stat.ended .none
        int := s.int.ended n 0xFF
        env := s.afterTraffic (idles (bs.length + 1)) (bs ++ [0xFF]) }

/-- R130, R136: at the test of the readiness wait, 0xFF finishes OK whatever T2 holds; another byte fails with NOTREADY and
that byte in RDATA when T2 is 0, and is read past otherwise. -/
def Obligations.WaitrdyTestsTheByteBeforeTheBudget : Prop :=
  ∀ s : State, s.standsAt .waitrdy (.waitrdy (.wait .test)) →
    (s.int.r = 0xFF ∨ s.t2 = 0 →
      ∃ u, exec .waitrdy s = .next u ∧
        exec .waitrdy u = .next
          { s with
            rdata := s.int.r.setWidth 32
            stat := s.stat.ended (if s.int.r = 0xFF then .none else .notReady)
            int := { s.int with phase := .idle } }) ∧
    (s.int.r ≠ 0xFF → s.t2 ≠ 0 →
      exec .waitrdy s = .next { s with int := { s.int with phase := .run .waitrdy (.waitrdy (.wait .read)) } })

/-- R320 and 93 U17: with no tick event a card that never sends 0xFF keeps WAITRDY running. As long as its bytes, whatever they
are, are not 0xFF, WAITRDY still runs after any number of steps up to twice as many as those bytes. -/
def Obligations.WaitrdyGoesOnWithoutTicks : Prop :=
  ∀ (s : State) (bs : List Byte), s.standsAt .waitrdy (.waitrdy (.wait .arm)) →
    s.params.readyTicks % 2 ^ s.params.tickW ≠ 0 → (∀ b ∈ bs, b ≠ 0xFF) → s.env.sends bs →
    ∀ k, k ≤ 2 * bs.length → ∃ t p, execN .waitrdy k s = .next t ∧ t.standsAt .waitrdy (.waitrdy (.wait p))

/-! ### Command dispatch and raw bytes -/

/-- R139, R140, R141, R142, R100: with a ready card CMD sends the six frame bytes, reads and discards one stuffing byte for
index 12 and for no other, polls while bit 7 is set and up to R1_TRIES reads, and finishes with the last byte: OK when its bit
7 is clear, FAIL(NORESP) otherwise. `waits` are the bytes before 0xFF, `noise` the bytes received during the frame and the
stuffing byte. -/
def Obligations.CmdSendsItsFrameAndPollsTheResponse : Prop :=
  ∀ (s : State) (idx : BitVec 6) (waits noise pending : List Byte) (r : Byte),
    s.standsAt (.cmd idx) (.cmd (.send (.wait .arm))) → s.params.readyTicks % 2 ^ s.params.tickW ≠ 0 →
    (∀ b ∈ waits, b ≠ 0xFF) → noise.length = (if idx = 12 then 7 else 6) → (∀ b ∈ pending, b.msb = true) →
    (r.msb = false ∧ pending.length < s.params.r1Tries ∨ r.msb = true ∧ pending.length + 1 = s.params.r1Tries) →
    s.env.sends (waits ++ 0xFF :: (noise ++ (pending ++ [r]))) →
    ∃ k n, execN (.cmd idx) k s = .next
      { s with
        rdata := r.setWidth 32
        t2 := s.params.readyTicks % 2 ^ s.params.tickW
        stat := s.stat.ended (if r.msb then .noResp else .none)
        int := s.int.ended n r
        env := s.afterTraffic
          (idles (waits.length + 1) ++ (frameBytes idx s.int.argl ++
            (idles (if idx = 12 then 1 else 0) ++ idles (pending.length + 1))))
          (waits ++ 0xFF :: (noise ++ (pending ++ [r]))) }

/-- R143: when the readiness wait of CMD ends with another byte than 0xFF, CMD finishes FAIL(NOTREADY) with RDATA 0xFF and
sends no frame byte. -/
def Obligations.CmdSendsNothingAfterAFailedGate : Prop :=
  ∀ (s : State) (idx : BitVec 6), s.standsAt (.cmd idx) (.cmd (.send (.wait .test))) → s.int.r ≠ 0xFF → s.t2 = 0 →
    ∃ u, exec (.cmd idx) s = .next u ∧
      exec (.cmd idx) u = .next
        { s with
          rdata := 0xFF
          stat := s.stat.ended .notReady
          int := { s.int with phase := .idle } }

/-- R146: TXB, the word 0x00000008, exchanges int.ARGL[7:0] once and finishes OK with the received byte. -/
def Obligations.TxbExchangesOneByte : Prop :=
  decode 0x00000008 = .op .txb ∧ ∀ s : State, s.standsAt .txb (.txb .exchange) →
    ∃ u, exec .txb s = .next u ∧
      exec .txb u = .next
        { s with
          rdata := s.cardByte.setWidth 32
          stat := s.stat.ended .none
          int := { s.int with r := s.cardByte, phase := .idle }
          env := s.afterTraffic [s.int.argl.extractLsb' 0 8] [s.cardByte] }

/-- R147: RXB reads LEN bytes into DATA[0..LEN-1] in wire order with LEN exchanges of 0xFF, finishes OK with DATA[LEN-1], and
leaves every other byte of DATA and every other register as it was. -/
def Obligations.RxbFillsDataInWireOrder : Prop :=
  ∀ (s : State) (bs : List Byte), s.standsAt (.rxb bs.length) (.rxb (.read 0)) → 1 ≤ bs.length → bs.length ≤ 512 →
    s.env.sends bs →
    ∃ k n m r, execN (.rxb bs.length) k s = .next
        { s with
          rdata := (bs[bs.length - 1]!).setWidth 32
          stat := s.stat.ended .none
          data := m
          int := s.int.ended n r
          env := s.afterTraffic (idles bs.length) bs } ∧
      ∀ j, ((Memory.lookup m j).getD (Config.dataByte s.env.resets j)) =
        if j < bs.length then bs[j]! else s.dataByte j

/-! ### Block transfer -/

/-- R181, R183, R184: after idle bytes and the token 0xFE, RDBLK reads LEN bytes into DATA[0..LEN-1] and the pair c1, c0, and
finishes with {c1, c0} in RDATA: FAIL(CRCERR) when CFG.CRCCHK is 1 and crc16 of the payload differs from it, OK otherwise. No
tick comes between. The algorithm of crc16 is the spec's, from general knowledge (93 G7). -/
def Obligations.RdblkReceivesABlock : Prop :=
  ∀ (s : State) (idle : Nat) (bs : List Byte) (c1 c0 : Byte),
    s.standsAt (.rdblk bs.length) (.rdblk .arm) → 1 ≤ bs.length → bs.length ≤ 512 →
    s.params.tokenTicks % 2 ^ s.params.tickW ≠ 0 →
    s.env.sends (idles idle ++ 0xFE :: (bs ++ [c1, c0])) →
    ∃ k m i, execN (.rdblk bs.length) k s = .next
        { s with
          rdata := (c1 ++ c0).setWidth 32
          t1 := s.params.tokenTicks % 2 ^ s.params.tickW
          stat := s.stat.ended (if s.crcchk = true ∧ crc16 bs ≠ c1 ++ c0 then .crcErr else .none)
          data := m
          int := i
          env := s.afterTraffic (idles (idle + 1 + bs.length + 2)) (idles idle ++ 0xFE :: (bs ++ [c1, c0])) } ∧
      i = { s.int with r := c0, crc := i.crc, phase := .idle } ∧
      ∀ j, ((Memory.lookup m j).getD (Config.dataByte s.env.resets j)) =
        if j < bs.length then bs[j]! else s.dataByte j

/-- R182: at the token test 0xFE takes the block, another non-idle byte fails with BADTOKEN and that byte in RDATA whatever T1
holds, 0xFF fails with TIMEOUT and 0xFF in RDATA when T1 is 0 and is read past otherwise. On both failures DATA is
unchanged. -/
def Obligations.RdblkTokenDecidesTheOutcome : Prop :=
  ∀ (s : State) (len : Nat), s.standsAt (.rdblk len) (.rdblk .tokenTest) →
    (s.int.r = 0xFE → ∃ t, exec (.rdblk len) s = .next t ∧ t.standsAt (.rdblk len) (.rdblk (.payload 0))) ∧
    (s.int.r = 0xFF → s.t1 ≠ 0 →
      exec (.rdblk len) s = .next { s with int := { s.int with phase := .run (.rdblk len) (.rdblk .token) } }) ∧
    ((s.int.r ≠ 0xFF ∧ s.int.r ≠ 0xFE) ∨ (s.int.r = 0xFF ∧ s.t1 = 0) →
      ∃ u, exec (.rdblk len) s = .next u ∧
        exec (.rdblk len) u = .next
          { s with
            rdata := s.int.r.setWidth 32
            stat := s.stat.ended (if s.int.r = 0xFF then .timeout else .badToken)
            int := { s.int with phase := .idle } })

/-- R186, R188, R189, R191: WRBLK with a data token sends, after the readiness wait, the token, DATA[0..511] in order and two
bytes 0xFF; then it polls for a response with low bits 0x05 up to DATA_RESP_TRIES reads; after an accepted one it reads past
bytes 0x00 and finishes OK with that response. No tick comes between. -/
def Obligations.WrblkSendsABlock : Prop :=
  ∀ (s : State) (tok : Token) (waits noise refusals : List Byte) (r : Byte) (drain : Nat) (b : Byte),
    tok ≠ .stop → s.standsAt (.wrblk tok) (.wrblk (.wait .arm)) →
    s.params.readyTicks % 2 ^ s.params.tickW ≠ 0 → s.params.busyTicks % 2 ^ s.params.tickW ≠ 0 →
    (∀ x ∈ waits, x ≠ 0xFF) → noise.length = 515 → (∀ x ∈ refusals, x &&& 0x1F ≠ 0x05) →
    refusals.length < s.params.respTries → r &&& 0x1F = 0x05 → b ≠ 0x00 →
    s.env.sends (waits ++ 0xFF :: (noise ++ (refusals ++ r :: (List.replicate drain 0x00 ++ [b])))) →
    ∃ k n, execN (.wrblk tok) k s = .next
      { s with
        rdata := r.setWidth 32
        t2 := s.params.busyTicks % 2 ^ s.params.tickW
        stat := s.stat.ended .none
        int := s.int.ended n b
        env := s.afterTraffic
          (idles (waits.length + 1) ++ ((if tok = .single then 0xFE else 0xFC) :: (s.dataBytes 512 ++
            (idles 2 ++ (idles (refusals.length + 1) ++ idles (drain + 1))))))
          (waits ++ 0xFF :: (noise ++ (refusals ++ r :: (List.replicate drain 0x00 ++ [b])))) }

/-- R187: WRBLK STOP waits for readiness, sends the byte 0xFD and finishes OK with RDATA 0xFF, with no response poll and no
busy drain. -/
def Obligations.WrblkStopSendsTheTokenOnly : Prop :=
  ∀ (s : State) (waits : List Byte) (x : Byte),
    s.standsAt (.wrblk .stop) (.wrblk (.wait .arm)) → s.params.readyTicks % 2 ^ s.params.tickW ≠ 0 →
    (∀ b ∈ waits, b ≠ 0xFF) → s.env.sends (waits ++ [0xFF, x]) →
    ∃ k n, execN (.wrblk .stop) k s = .next
      { s with
        rdata := 0xFF
        t2 := s.params.readyTicks % 2 ^ s.params.tickW
        stat := s.stat.ended .none
        int := s.int.ended n 0xFF
        env := s.afterTraffic (idles (waits.length + 1) ++ [0xFD]) (waits ++ [0xFF, x]) }

/-- R189, R190, and the failures of R186: a readiness wait that ends with another byte fails with NOTREADY and that byte, and
nothing is sent; a response poll whose last try is not accepted fails with BADTOKEN and that byte; a busy drain that finds T2
at 0 while the last byte is 0x00 fails with TIMEOUT and RDATA 0; a nonzero byte ends the drain OK whatever T2 holds. -/
def Obligations.WrblkFailsAsItsStagesSay : Prop :=
  ∀ (s : State) (tok : Token),
    (s.standsAt (.wrblk tok) (.wrblk (.wait .test)) → s.int.r ≠ 0xFF → s.t2 = 0 →
      ∃ u, exec (.wrblk tok) s = .next u ∧
        exec (.wrblk tok) u = .next
          { s with
            rdata := s.int.r.setWidth 32, stat := s.stat.ended .notReady, int := { s.int with phase := .idle } }) ∧
    (s.standsAt (.wrblk tok) (.wrblk .response) → s.cardByte &&& 0x1F ≠ 0x05 → s.int.n = 1 →
      ∃ u v, exec (.wrblk tok) s = .next u ∧ exec (.wrblk tok) u = .next v ∧
        exec (.wrblk tok) v = .next
          { s with
            rdata := s.cardByte.setWidth 32
            stat := s.stat.ended .badToken
            int := s.int.ended 0 s.cardByte
            env := s.afterTraffic [0xFF] [s.cardByte] }) ∧
    (∀ r : Byte, s.standsAt (.wrblk tok) (.wrblk (.busyTest r)) →
      (s.int.r = 0x00 → s.t2 ≠ 0 →
        exec (.wrblk tok) s = .next { s with int := { s.int with phase := .run (.wrblk tok) (.wrblk (.busy r)) } }) ∧
      (s.int.r ≠ 0x00 ∨ s.t2 = 0 →
        ∃ u, exec (.wrblk tok) s = .next u ∧
          exec (.wrblk tok) u = .next
            { s with
              rdata := if s.int.r = 0x00 then 0 else r.setWidth 32
              stat := s.stat.ended (if s.int.r = 0x00 then .timeout else .none)
              int := { s.int with phase := .idle } }))

/-! ### INIT -/

/-- R221: with NODISK 1 INIT finishes at once with FAIL(NOTREADY) and RDATA status(); no exchange, no cs_n change, CTYPE,
NOINIT and PWR unchanged. Of the hidden int.E and int.O, which INIT does not keep (R38), nothing is said. -/
def Obligations.InitWithoutDiskFailsAtOnce : Prop :=
  ∀ s : State, s.standsAt .init (.init .diskTest) → s.stat.nodisk = true →
    ∃ e o, exec .init s = .next
      { s with
        rdata := (if s.stat.noinit then 1 else 0) + 2 + (if s.stat.wprot then 4 else 0)
        stat := s.stat.ended .notReady
        int := { s.int with echo := e, ocr := o, phase := .idle } }

/-- R232: step 4 of INIT writes CTYPE <- TYPE, deselects, reads one trailing byte, and then powers off, sets NOINIT and
finishes FAIL(INITFAIL) when TYPE is None, or clears NOINIT and finishes OK; RDATA is status(). Of the hidden int.E and int.O,
which INIT does not keep (R38), nothing is said. -/
def Obligations.InitCompletesByItsCandidate : Prop :=
  ∀ s : State, s.standsAt .init (.init .setCtype) →
    ∃ k e o, execN .init k s = .next
      { s with
        rdata := (if s.int.type = .none then 1 else 0) + (if s.stat.nodisk then 2 else 0) + (if s.stat.wprot then 4 else 0)
        stat := { s.stat.ended (if s.int.type = .none then .initFail else .none) with
          ctype := s.int.type
          cs := false
          pwr := if s.int.type = .none then false else s.stat.pwr
          noinit := decide (s.int.type = .none) }
        int := { s.int with r := s.cardByte, echo := e, ocr := o, phase := .idle }
        env := { s.env.afterCard with bus := ⟨0xFF, s.cardByte, false⟩ :: s.env.bus } }

/-- R222, R236: a card that answers the idle probe with another byte than 0x01, or does not answer it within R1_TRIES reads,
leaves INIT with CTYPE None, NOINIT 1, PWR 0, CS 0 and FAIL(INITFAIL), after the power-on sequence, one command 0 and the trailing
byte, whether or not the power-on poll was acknowledged. R222 to R229: each response of each command of INIT, the 0xFF of a failed
readiness gate among them, and each echo leads on as those rules say; a refusal never ends INIT but by step 4. -/
def Obligations.InitFailsOnARefusedIdleProbe : Prop :=
  (∀ (s : State) (wake refusals waits noise pending : List Byte) (a r x : Byte),
    s.standsAt .init (.init .diskTest) → s.stat.nodisk = false → s.params.readyTicks % 2 ^ s.params.tickW ≠ 0 →
    wake.length = s.params.idleBytes + 6 → (∀ b ∈ refusals, b ≠ 0x01) →
    (a = 0x01 ∧ refusals.length < s.params.pollReads ∨ refusals.length + 1 = s.params.pollReads) →
    (∀ b ∈ waits, b ≠ 0xFF) → noise.length = 6 → (∀ b ∈ pending, b.msb = true) →
    (r.msb = false ∧ r ≠ 0x01 ∧ pending.length < s.params.r1Tries ∨ r.msb = true ∧ pending.length + 1 = s.params.r1Tries) →
    s.env.sends (wake ++ (refusals ++ a :: (waits ++ 0xFF :: (noise ++ (pending ++ [r, x]))))) →
    ∃ k i, i.phase = .idle ∧ execN .init k s = .next
      { s with
        rdata := 1 + (if s.stat.wprot then 4 else 0)
        t2 := s.params.readyTicks % 2 ^ s.params.tickW
        stat := { s.stat.ended .initFail with ctype := .none, noinit := true, pwr := false, cs := false }
        int := i
        env := { s.env.afterCards (s.params.idleBytes + refusals.length + waits.length + pending.length + 16) with
          bus := traffic false [0xFF] [x] ++
            (traffic true
              (frameBytes 0 0 ++ (idles (refusals.length + 1) ++ (idles (waits.length + 1) ++ (frameBytes 0 0 ++
                idles (pending.length + 1)))))
              (wake.drop s.params.idleBytes ++ (refusals ++ a :: (waits ++ 0xFF :: (noise ++ (pending ++ [r]))))) ++
            (traffic false (idles s.params.idleBytes) (wake.take s.params.idleBytes) ++ s.env.bus)) } }) ∧
  ∀ (s : State) (r : Byte),
    (s.endsWith .goIdle r → s.leadsTo (if r = 0x01 then .armBudget else .setCtype)) ∧
    (s.endsWith .ifCond r → s.leadsTo (if r = 0x01 then .echo 0 else .cmd .probePrefix (.wait .arm))) ∧
    (s.endsWith .v2Prefix r → s.leadsTo (if r ≤ 0x01 then .cmd .v2Init (.wait .arm) else .loopTest .v2)) ∧
    (s.endsWith .v2Init r → s.leadsTo (if r = 0x00 then .setOk .v2 else .loopTest .v2)) ∧
    (s.endsWith .readOcr r → s.leadsTo (if r = 0x00 then .ocr 0 else .setCtype)) ∧
    (s.endsWith .probePrefix r → s.leadsTo (if r ≤ 0x01 then .cmd .probeInit (.wait .arm) else .clearOk (.legacy .mmc))) ∧
    (s.endsWith .probeInit r → s.leadsTo (if r ≤ 0x01 then .clearOk (.legacy .sd) else .clearOk (.legacy .mmc))) ∧
    (s.endsWith .sdPrefix r → s.leadsTo (if r ≤ 0x01 then .cmd .sdInit (.wait .arm) else .loopTest (.legacy .sd))) ∧
    (s.endsWith .sdInit r → s.leadsTo (if r = 0x00 then .setOk (.legacy .sd) else .loopTest (.legacy .sd))) ∧
    (s.endsWith .mmcInit r → s.leadsTo (if r = 0x00 then .setOk (.legacy .mmc) else .loopTest (.legacy .mmc))) ∧
    (∀ t, s.endsWith (.blockLen t) r → s.leadsTo (if r = 0x00 then .legacyType t else .setCtype)) ∧
    (s.standsAt .init (.init (.echo 3)) → exec .init s = .next
      { s with
        int := { s.int with
          r := s.cardByte
          echo := s.int.echo.set 3 s.cardByte
          phase := .run .init (.init (if s.int.echo[2] = 0x01 ∧ s.cardByte = 0xAA then .clearOk .v2 else .setCtype)) }
        env := s.afterTraffic [0xFF] [s.cardByte] })

/-- R222 to R226, R236: a card that acknowledges command 0, accepts command 8 and echoes 0x01, 0xAA in its last two bytes,
accepts the prefix 55, answers command 41 (argument 0x40000000) with 0x00 at once and command 58 with 0x00, leaves INIT OK with
CTYPE 4 when bit 6 of the first OCR byte is set and 3 otherwise, NOINIT 0, PWR 1, CS 0. -/
def Obligations.InitDetectsAnSdv2Card : Prop :=
  ∀ (s : State) (wake n0 n8 n55 n41 n58 : List Byte) (e0 e1 p o0 o1 o2 o3 x : Byte),
    s.standsAt .init (.init .diskTest) → s.stat.nodisk = false → s.params.readyTicks % 2 ^ s.params.tickW ≠ 0 →
    1 ≤ s.params.r1Tries → 1 ≤ s.params.pollReads → wake.length = s.params.idleBytes + 6 →
    n0.length = 6 → n8.length = 6 → n55.length = 6 → n41.length = 6 → n58.length = 6 → p ≤ 0x01 →
    s.env.sends (wake ++ 0x01 :: (answer n0 0x01 ++ (answer n8 0x01 ++ ([e0, e1, 0x01, 0xAA] ++ (answer n55 p ++
      (answer n41 0x00 ++ (answer n58 0x00 ++ [o0, o1, o2, o3, x]))))))) →
    ∃ k i, i.phase = .idle ∧ execN .init k s = .next
      { s with
        rdata := if s.stat.wprot then 4 else 0
        t1 := s.params.initTicks % 2 ^ s.params.tickW
        t2 := s.params.readyTicks % 2 ^ s.params.tickW
        stat := { s.stat.ended .none with
          ctype := if o0.getLsbD 6 then .sdv2Block else .sdv2Byte
          noinit := false, pwr := true, cs := false }
        int := i
        env := { s.env.afterCards (s.params.idleBytes + 56) with
          bus := traffic false [0xFF] [x] ++
            (traffic true
              (frameBytes 0 0 ++ 0xFF :: (sent 0 0 ++ (sent 8 0x1AA ++ (idles 4 ++ (sent 55 0 ++ (sent 41 0x40000000 ++
                (sent 58 0 ++ idles 4)))))))
              (wake.drop s.params.idleBytes ++ 0x01 :: (answer n0 0x01 ++ (answer n8 0x01 ++ ([e0, e1, 0x01, 0xAA] ++
                (answer n55 p ++ (answer n41 0x00 ++ (answer n58 0x00 ++ [o0, o1, o2, o3]))))))) ++
            (traffic false (idles s.params.idleBytes) (wake.take s.params.idleBytes) ++ s.env.bus)) } }

/-- R222, R223, R227 to R229, R236: a card that refuses command 8 and answers the probe's prefix and command 41 with at most
0x01 each is SDv1: it is polled with prefix and command 41, gets command 16 (argument 0x200), and after 0x00 to both INIT
finishes OK with CTYPE 2, NOINIT 0, PWR 1, CS 0. -/
def Obligations.InitDetectsAnSdv1Card : Prop :=
  ∀ (s : State) (wake n0 n8 a b c d n16 : List Byte) (r8 p q p' x : Byte),
    s.standsAt .init (.init .diskTest) → s.stat.nodisk = false → s.params.readyTicks % 2 ^ s.params.tickW ≠ 0 →
    1 ≤ s.params.r1Tries → 1 ≤ s.params.pollReads → wake.length = s.params.idleBytes + 6 →
    n0.length = 6 → n8.length = 6 → a.length = 6 → b.length = 6 → c.length = 6 → d.length = 6 → n16.length = 6 →
    r8.msb = false → r8 ≠ 0x01 → p ≤ 0x01 → q ≤ 0x01 → p' ≤ 0x01 →
    s.env.sends (wake ++ 0x01 :: (answer n0 0x01 ++ (answer n8 r8 ++ (answer a p ++ (answer b q ++ (answer c p' ++
      (answer d 0x00 ++ (answer n16 0x00 ++ [x])))))))) →
    ∃ k i, i.phase = .idle ∧ execN .init k s = .next
      { s with
        rdata := if s.stat.wprot then 4 else 0
        t1 := s.params.initTicks % 2 ^ s.params.tickW
        t2 := s.params.readyTicks % 2 ^ s.params.tickW
        stat := { s.stat.ended .none with ctype := .sdv1, noinit := false, pwr := true, cs := false }
        int := i
        env := { s.env.afterCards (s.params.idleBytes + 64) with
          bus := traffic false [0xFF] [x] ++
            (traffic true
              (frameBytes 0 0 ++ 0xFF :: (sent 0 0 ++ (sent 8 0x1AA ++ (sent 55 0 ++ (sent 41 0 ++ (sent 55 0 ++
                (sent 41 0 ++ sent 16 0x200)))))))
              (wake.drop s.params.idleBytes ++ 0x01 :: (answer n0 0x01 ++ (answer n8 r8 ++ (answer a p ++ (answer b q ++
                (answer c p' ++ (answer d 0x00 ++ answer n16 0x00))))))) ++
            (traffic false (idles s.params.idleBytes) (wake.take s.params.idleBytes) ++ s.env.bus)) } }

/-- R222, R223, R227 to R229, R236: a card that refuses command 8 and the prefix is MMC: no command 41 is sent, it is polled
with command 1, gets command 16 (argument 0x200), and after 0x00 to both INIT finishes OK with CTYPE 1, NOINIT 0, PWR 1,
CS 0. -/
def Obligations.InitDetectsAnMmcCard : Prop :=
  ∀ (s : State) (wake n0 n8 a b n16 : List Byte) (r8 p x : Byte),
    s.standsAt .init (.init .diskTest) → s.stat.nodisk = false → s.params.readyTicks % 2 ^ s.params.tickW ≠ 0 →
    1 ≤ s.params.r1Tries → 1 ≤ s.params.pollReads → wake.length = s.params.idleBytes + 6 →
    n0.length = 6 → n8.length = 6 → a.length = 6 → b.length = 6 → n16.length = 6 →
    r8.msb = false → r8 ≠ 0x01 → p.msb = false → ¬ p ≤ 0x01 →
    s.env.sends (wake ++ 0x01 :: (answer n0 0x01 ++ (answer n8 r8 ++ (answer a p ++ (answer b 0x00 ++
      (answer n16 0x00 ++ [x])))))) →
    ∃ k i, i.phase = .idle ∧ execN .init k s = .next
      { s with
        rdata := if s.stat.wprot then 4 else 0
        t1 := s.params.initTicks % 2 ^ s.params.tickW
        t2 := s.params.readyTicks % 2 ^ s.params.tickW
        stat := { s.stat.ended .none with ctype := .mmc, noinit := false, pwr := true, cs := false }
        int := i
        env := { s.env.afterCards (s.params.idleBytes + 48) with
          bus := traffic false [0xFF] [x] ++
            (traffic true
              (frameBytes 0 0 ++ 0xFF :: (sent 0 0 ++ (sent 8 0x1AA ++ (sent 55 0 ++ (sent 1 0 ++ sent 16 0x200)))))
              (wake.drop s.params.idleBytes ++ 0x01 :: (answer n0 0x01 ++ (answer n8 r8 ++ (answer a p ++ (answer b 0x00 ++
                answer n16 0x00))))) ++
            (traffic false (idles s.params.idleBytes) (wake.take s.params.idleBytes) ++ s.env.bus)) } }

/-- R225, R228, R230: at the end of a negotiation iteration INIT tests T1 only: with T1 not 0 it goes on with the first command
of the iteration, with T1 at 0 and no success recorded it goes to step 4. -/
def Obligations.InitNegotiatesUntilTheBudgetEnds : Prop :=
  ∀ s : State,
    (s.standsAt .init (.init (.loopTest .v2)) →
      (s.t1 ≠ 0 → exec .init s = .next
        { s with int := { s.int with phase := .run .init (.init (.cmd .v2Prefix (.wait .arm))) } }) ∧
      (s.t1 = 0 → s.int.ok = false → exec .init s = .next
        { s with int := { s.int with phase := .run .init (.init .setCtype) } })) ∧
    (s.standsAt .init (.init (.loopTest (.legacy .sd))) →
      (s.t1 ≠ 0 → exec .init s = .next
        { s with int := { s.int with phase := .run .init (.init (.cmd .sdPrefix (.wait .arm))) } }) ∧
      (s.t1 = 0 → s.int.ok = false → exec .init s = .next
        { s with int := { s.int with phase := .run .init (.init .setCtype) } })) ∧
    (s.standsAt .init (.init (.loopTest (.legacy .mmc))) →
      (s.t1 ≠ 0 → exec .init s = .next
        { s with int := { s.int with phase := .run .init (.init (.cmd .mmcInit (.wait .arm))) } }) ∧
      (s.t1 = 0 → s.int.ok = false → exec .init s = .next
        { s with int := { s.int with phase := .run .init (.init .setCtype) } }))

/-! ### Control ops -/

/-- R260: SADDR, the word 0x0000000D, finishes OK with int.ARGL when CTYPE is 4, and with int.ARGL * 512 modulo 2^32 otherwise;
no exchange, no flag. -/
def Obligations.SaddrConvertsASector : Prop :=
  decode 0x0000000D = .op .saddr ∧ ∀ s : State, s.standsAt .saddr .saddr →
    exec .saddr s = .next
      { s with
        rdata := if s.stat.ctype = .sdv2Block then s.int.argl else BitVec.ofNat 32 (s.int.argl.toNat * 512)
        stat := s.stat.ended .none
        int := { s.int with phase := .idle } }

/-- R261: MEDIA, the word 0x0000000E, sets NODISK and WPROT from int.ARGL[1:0] and finishes OK with status(); no exchange,
NOINIT, CTYPE and PWR unchanged. -/
def Obligations.MediaSetsTheFlags : Prop :=
  decode 0x0000000E = .op .media ∧ ∀ s : State, s.standsAt .media (.media .setNodisk) →
    ∃ u v, exec .media s = .next u ∧ exec .media u = .next v ∧
      exec .media v = .next
        { s with
          rdata := (if s.stat.noinit then 1 else 0) + (if s.int.argl.getLsbD 0 then 2 else 0) +
            (if s.int.argl.getLsbD 1 then 4 else 0)
          stat := { s.stat.ended .none with nodisk := s.int.argl.getLsbD 0, wprot := s.int.argl.getLsbD 1 }
          int := { s.int with phase := .idle } }

/-! ### The host's port -/

/-- R61: the admitted accesses are aligned 32-bit ones at 0x000-0x1FC and single bytes at 0x200-0x3FF. Any other has no
outcome; an admitted one, with rst_n high, has a next state. -/
def Obligations.OnlyAdmittedAccessesHaveAnOutcome : Prop :=
  ∀ (s : State) (off n : Nat) (v : Word), s.rstN = true →
    if (n = 4 ∧ off % 4 = 0 ∧ off ≤ 0x1FC) ∨ (n = 1 ∧ 0x200 ≤ off ∧ off ≤ 0x3FF) then
      (∃ t, hostStep s (.read off n) = .next t) ∧ ∃ t, hostStep s (.write off n v) = .next t
    else
      hostStep s (.read off n) = .fault .hostAccessNotAdmitted ∧ hostStep s (.write off n v) = .fault .hostAccessNotAdmitted

/-- R35, R36, R70: a read returns the register its offset names and has no side effect on the block; reserved words read 0;
DATA with no op running reads its byte, and during an op some byte. -/
def Obligations.HostReadsReturnTheMap : Prop :=
  ∀ s : State, s.rstN = true →
    (∀ (off : Nat) (v : Word),
      (off, v) ∈ [(0x000, s.op), (0x004, s.arg), (0x008, s.stat.word), (0x00C, s.rdata), (0x010, BitVec.ofNat 32 s.t1),
        (0x014, BitVec.ofNat 32 s.t2), (0x018, if s.crcchk then 1 else 0)] →
      hostStep s (.read off 4) = .next { s with env := { s.env with readValue := some v } }) ∧
    (∀ off, off % 4 = 0 → 0x01C ≤ off → off ≤ 0x1FC →
      hostStep s (.read off 4) = .next { s with env := { s.env with readValue := some 0 } }) ∧
    (∀ i, i < 512 → s.stat.busy = false →
      hostStep s (.read (0x200 + i) 1) = .next { s with env := { s.env with readValue := some ((s.dataByte i).setWidth 32) } }) ∧
    (∀ i, i < 512 → s.stat.busy = true →
      ∃ b : Byte, hostStep s (.read (0x200 + i) 1) = .next
        { s with env := { s.env with readValue := some (b.setWidth 32), readDraws := s.env.readDraws + 1 } })

/-- R24: the bits of STAT as the host reads it, with the codes of CAUSE (60_exceptions.md R282) and of CTYPE (R27) as numbers;
every bit not listed reads 0. -/
def Obligations.StatReadsItsFields : Prop :=
  ∀ t : Stat,
    t.word.getLsbD 0 = t.busy ∧ t.word.getLsbD 1 = t.done ∧ t.word.getLsbD 2 = t.fail ∧ t.word.getLsbD 3 = t.ovr ∧
    t.word.extractLsb' 4 4 = (match t.cause with
      | .none => 0 | .notReady => 1 | .timeout => 2 | .badToken => 3 | .crcErr => 4 | .initFail => 5 | .illegal => 6
      | .noResp => 7) ∧
    t.word.extractLsb' 8 3 = (match t.ctype with
      | .none => 0 | .mmc => 1 | .sdv1 => 2 | .sdv2Byte => 3 | .sdv2Block => 4) ∧
    t.word.getLsbD 11 = t.pwr ∧
    t.word.getLsbD 12 = t.cs ∧ t.word.extractLsb' 13 3 = 0 ∧ t.word.getLsbD 16 = t.noinit ∧
    t.word.getLsbD 17 = t.nodisk ∧ t.word.getLsbD 18 = t.wprot ∧ t.word.extractLsb' 19 13 = 0 ∧
    t.status = (t.word.extractLsb' 16 3).setWidth 32

/-- R21, R33, R34, R36, R70: with no op running a host write stores ARG, CFG bit 0 or one DATA byte, every other byte of DATA
reading as before; writes to STAT, RDATA, T1, T2 and reserved words are ignored. -/
def Obligations.HostWritesWithNoOpRunning : Prop :=
  ∀ (s : State) (v : Word), s.rstN = true → s.stat.busy = false →
    hostStep s (.write 0x004 4 v) = .next { s with arg := v } ∧
    hostStep s (.write 0x018 4 v) = .next { s with crcchk := v.getLsbD 0 } ∧
    (∀ i, i < 512 → ∃ m, hostStep s (.write (0x200 + i) 1 v) = .next { s with data := m } ∧
      ∀ j, ((Memory.lookup m j).getD (Config.dataByte s.env.resets j)) =
        if j = i then v.extractLsb' 0 8 else s.dataByte j) ∧
    (∀ off, off % 4 = 0 → off ≤ 0x1FC → off ≠ 0x000 → off ≠ 0x004 → off ≠ 0x018 → hostStep s (.write off 4 v) = .next s)

/-- R283: during an op a write to OP, ARG, CFG or DATA changes nothing but OVR <- 1; a write to a read-only or reserved word is
ignored whatever BUSY is and does not set OVR. An admitted read is never discarded and leaves OVR. OVR stays through every engine
step and tick, and acceptance and reset clear it. That acceptance of an illegal word clears it too is the model's reading
(DEDUCED, log 25). -/
def Obligations.WritesDuringAnOpAreDiscarded : Prop :=
  (∀ (s : State) (v : Word), s.rstN = true → s.stat.busy = true →
    (∀ off, off = 0x000 ∨ off = 0x004 ∨ off = 0x018 →
      hostStep s (.write off 4 v) = .next { s with stat := { s.stat with ovr := true } }) ∧
    ∀ i, i < 512 → hostStep s (.write (0x200 + i) 1 v) = .next { s with stat := { s.stat with ovr := true } }) ∧
  (∀ (s : State) (v : Word), s.rstN = true →
    ∀ off, off % 4 = 0 → off ≤ 0x1FC → off ≠ 0x000 → off ≠ 0x004 → off ≠ 0x018 → hostStep s (.write off 4 v) = .next s) ∧
  (∀ (s : State) (off n : Nat) (r : HostReg), s.rstN = true → locate off n = some r →
    ∃ t, hostStep s (.read off n) = .next t ∧ t.env.readValue = some (s.hostValue r) ∧ t.stat.ovr = s.stat.ovr) ∧
  (∀ s t : State, (engineStep s = .next t ∨ applyEvent .tick s = .next t) → t.stat.ovr = s.stat.ovr) ∧
  (∀ (s t : State) (w : Word), s.rstN = true → s.stat.busy = false → hostStep s (.write 0 4 w) = .next t →
    t.stat.ovr = false) ∧
  ∀ s t : State, applyEvent .resetLow s = .next t → t.stat.ovr = false

/-- R113: a statement of a host program makes its access and is over: an op statement writes the op's word to OP, WR and WRB
write ARG, CFG and DATA, RD and RDB read; an access that has no outcome stops the program. WAIT reads STAT and is over only when
BUSY was 0. The pseudo-instructions are their expansions. That the program is an agent making one access at an event of its own is
the model's choice (DESIGN CHOICE, log 24). -/
def Obligations.HostProgramsMakeTheirAccesses : Prop :=
  (∀ (s : State) (cs : List Stmt) (i : Instr) (v : Word) (j : Nat) (b : Byte), ∀ x ∈
      [(Stmt.op i, HostAccess.write 0x000 4 (encode i)), (.wrArg v, .write 0x004 4 v), (.wrCfg v, .write 0x018 4 v),
       (.wrData j b, .write (0x200 + j) 1 (b.setWidth 32)), (.rd .op, .read 0x000 4), (.rd .arg, .read 0x004 4),
       (.rd .stat, .read 0x008 4), (.rd .rdata, .read 0x00C 4), (.rd .t1, .read 0x010 4), (.rd .t2, .read 0x014 4),
       (.rd .cfg, .read 0x018 4), (.rdData j, .read (0x200 + j) 1)],
    s.env.program = x.1 :: cs →
    (∀ t, hostStep s x.2 = .next t → applyEvent .program s = .next { t with env := { t.env with program := cs } }) ∧
    ∀ f, hostStep s x.2 = .fault f → applyEvent .program s = .fault f) ∧
  (∀ (s : State) (cs : List Stmt), s.rstN = true → s.env.program = .wait :: cs →
    applyEvent .program s = .next
      { s with env := { s.env with
        readValue := some s.stat.word
        program := if s.stat.busy then .wait :: cs else cs } }) ∧
  ∀ (i : Instr) (idx : BitVec 6) (v : Word) (b : Byte),
    Stmt.doOp i = [.op i, .wait] ∧ Stmt.send idx v = [.wrArg v, .op (.cmd idx), .wait] ∧
    Stmt.asend idx v = [.wrArg 0, .op (.cmd 55), .wait, .wrArg v, .op (.cmd idx), .wait] ∧
    Stmt.txi b = [.wrArg (b.setWidth 32), .op .txb, .wait] ∧
    Stmt.release = [.op .cdesel, .wait, .op (.rxb 1), .wait]

/-! ### Ticks and reset -/

/-- R286: a tick event, in whatever state it comes, is one step of its own. It lowers each nonzero counter by 1 and leaves a
counter at 0, and everything else, as it is; a tick together with an arm of a counter leaves the armed value. -/
def Obligations.TicksCountDownAndSaturate : Prop :=
  (∀ (s : State) (es : List Event), s.env.script = .tick :: es →
    step s = applyEvent .tick { s with env := { s.env with script := es } }) ∧
  ∀ s : State,
    applyEvent .tick s = .next
      { s with t1 := if s.t1 ≠ 0 then s.t1 - 1 else 0, t2 := if s.t2 ≠ 0 then s.t2 - 1 else 0 } ∧
    ∀ k, (s.tick.armT1 k).t1 = (s.armT1 k).t1 ∧ (s.tick.armT2 k).t2 = (s.armT2 k).t2

/-- R41: the values after reset. -/
def Obligations.ResetStateHasTheListedValues : Prop :=
  State.reset.op = 0 ∧ State.reset.arg = 0 ∧ State.reset.rdata = 0 ∧ State.reset.stat.word = 0x00010000 ∧
  State.reset.csN = true ∧ State.reset.t1 = 0 ∧ State.reset.t2 = 0 ∧ State.reset.crcchk = false ∧
  State.reset.int.phase = .idle ∧ ∀ i, State.reset.dataByte i = Config.dataByte 0 i

/-- R310, R312: a reset event, in any state and during any op, sets every register to its reset value, drives cs_n high, makes
every DATA byte a fresh draw, abandons the running op and makes no exchange; the card's bytes to come stay as they were. While
rst_n is low a host access has no outcome. -/
def Obligations.ResetBeatsARunningOp : Prop :=
  (∀ s : State, ∃ t, applyEvent .resetLow s = .next t ∧
    t.op = 0 ∧ t.arg = 0 ∧ t.rdata = 0 ∧ t.stat = Stat.reset ∧ t.csN = true ∧ t.t1 = 0 ∧ t.t2 = 0 ∧ t.crcchk = false ∧
    t.int.phase = .idle ∧ t.params = s.params ∧ t.env.bus = s.env.bus ∧ t.env.card = s.env.card ∧
    t.env.cardDraws = s.env.cardDraws ∧ t.env.resets = s.env.resets + 1 ∧
    (∀ i, t.dataByte i = Config.dataByte (s.env.resets + 1) i) ∧
    ∀ a, hostStep t a = .fault .hostAccessInReset) ∧
  ∀ (s : State) (a : HostAccess), s.rstN = false → hostStep s a = .fault .hostAccessInReset

/-! ### Invariants -/

/-- The reset state meets the invariant and the checksum agreement `State.crcAgrees` (which asks nothing of it: no op runs and
CFG.CRCCHK is 0). -/
def Obligations.ResetMeetsTheInvariant : Prop := State.reset.Inv ∧ State.reset.crcAgrees

/-- Every step, whatever event it takes, keeps the invariant: BUSY exactly while an op runs, completion fields as R25 says,
the running op the latched word's (R37), counters within TICK_W bits (R32), DATA canonical, and CTYPE None exactly when NOINIT
is 1 outside a running INIT (R28). -/
def Obligations.EveryStepKeepsTheInvariant : Prop :=
  ∀ s t : State, s.Inv → step s = .next t → t.Inv

/-- While CFG.CRCCHK is 1: every step from a state that meets the invariant keeps int.CRC equal to crc16 of the payload bytes
RDBLK has received so far, at each of its positions from the first payload byte to the comparison. While CFG.CRCCHK is 0 this
says nothing of int.CRC. When int.CRC is written is the model's reading (DEDUCED, log 17: no line of R181's pseudocode writes
it); the algorithm of crc16 is the spec's, from general knowledge (93 G7, as U26 asks to be named). -/
def Obligations.EveryStepKeepsTheRunningChecksum : Prop :=
  ∀ s t : State, s.Inv → s.crcAgrees → step s = .next t → t.crcAgrees

/-- R28, from the invariant: outside a running INIT, CTYPE is None exactly when NOINIT is 1, along every run. -/
def Obligations.CardTypeIsNoneExactlyWhenNotInitialised : Prop :=
  ∀ (k : Nat) (s t : State), s.Inv → Sys2Proof.core.run k s = .next t → (∀ p, ¬ t.standsAt .init p) →
    (t.stat.ctype = .none ↔ t.stat.noinit = true)

/-- R184, with the checksum algorithm that the spec takes from general knowledge (93 G7) and int.CRC written when the model
writes it (DEDUCED, log 17): in a state that the invariants admit,
RDBLK finishes FAIL(CRCERR) exactly when CFG.CRCCHK is 1 and crc16 of DATA[0..LEN-1] differs from {c1, c0}; RDATA is {c1, c0}
either way. -/
def Obligations.RdblkComparesTheChecksumOfData : Prop :=
  ∀ (s : State) (len : Nat) (c1 c0 : Byte), s.Inv → s.crcAgrees → s.standsAt (.rdblk len) (.rdblk (.verify c1 c0)) →
    exec (.rdblk len) s = .next
      { s with
        rdata := (c1 ++ c0).setWidth 32
        stat := s.stat.ended (if s.crcchk = true ∧ crc16 (s.dataBytes len) ≠ c1 ++ c0 then .crcErr else .none)
        int := { s.int with phase := .idle } }

/-! ### Termination -/

/-- R320, first part: PWRON, PWROFF, PWRCHK, CSEL, CDESEL, TXB, RXB, SADDR and MEDIA end after a bounded number of engine steps
whatever the card sends and with no tick. -/
def Obligations.CountedOpsAlwaysEnd : Prop :=
  ∀ i ∈ [Instr.pwron, .pwroff, .pwrchk, .csel, .cdesel, .txb, .saddr, .media] ++ (List.range' 1 512).map Instr.rxb,
    ∀ p : Params, ∃ bound : Nat, ∀ s : State, s.params = p → s.standsAt i (startPos i) →
      ∃ k t, k ≤ bound ∧ execN i k s = .next t ∧ t.stat.busy = false ∧ t.stat.done = true

/-- R320, second part, and R233: under tick fairness (TICK_BOUND = m) with an engine that goes on, and whatever the card
sends and the host does, every op that runs ends: BUSY is 0 at some later moment. -/
def Obligations.EveryOpEndsUnderTickFairness : Prop :=
  ∀ (m : Nat) (ev : Nat → Event) (tr : Nat → State), RunOf ev tr → TickBound m ev → EngineGoesOn ev → (tr 0).Inv →
    ∃ k, (tr k).stat.busy = false
end

