-- ==== Sys2Proof/Laws/State.lean ====
section
/-! SUPPORT. One lemma per field per update of State: what each named operation writes, and that it leaves the rest. -/

namespace Sys2Proof.Machine

/-! ### Fields of STAT -/

@[simp] theorem State.setCs_params (s : State) (x : Bool) : (s.setCs x).params = s.params := rfl
@[simp] theorem State.setCs_op (s : State) (x : Bool) : (s.setCs x).op = s.op := rfl
@[simp] theorem State.setCs_arg (s : State) (x : Bool) : (s.setCs x).arg = s.arg := rfl
@[simp] theorem State.setCs_rdata (s : State) (x : Bool) : (s.setCs x).rdata = s.rdata := rfl
@[simp] theorem State.setCs_t1 (s : State) (x : Bool) : (s.setCs x).t1 = s.t1 := rfl
@[simp] theorem State.setCs_t2 (s : State) (x : Bool) : (s.setCs x).t2 = s.t2 := rfl
@[simp] theorem State.setCs_crcchk (s : State) (x : Bool) : (s.setCs x).crcchk = s.crcchk := rfl
@[simp] theorem State.setCs_data (s : State) (x : Bool) : (s.setCs x).data = s.data := rfl
@[simp] theorem State.setCs_int (s : State) (x : Bool) : (s.setCs x).int = s.int := rfl
@[simp] theorem State.setCs_rstN (s : State) (x : Bool) : (s.setCs x).rstN = s.rstN := rfl
@[simp] theorem State.setCs_env (s : State) (x : Bool) : (s.setCs x).env = s.env := rfl
@[simp] theorem State.setCs_stat_busy (s : State) (x : Bool) : (s.setCs x).stat.busy = s.stat.busy := rfl
@[simp] theorem State.setCs_stat_done (s : State) (x : Bool) : (s.setCs x).stat.done = s.stat.done := rfl
@[simp] theorem State.setCs_stat_fail (s : State) (x : Bool) : (s.setCs x).stat.fail = s.stat.fail := rfl
@[simp] theorem State.setCs_stat_ovr (s : State) (x : Bool) : (s.setCs x).stat.ovr = s.stat.ovr := rfl
@[simp] theorem State.setCs_stat_cause (s : State) (x : Bool) : (s.setCs x).stat.cause = s.stat.cause := rfl
@[simp] theorem State.setCs_stat_ctype (s : State) (x : Bool) : (s.setCs x).stat.ctype = s.stat.ctype := rfl
@[simp] theorem State.setCs_stat_pwr (s : State) (x : Bool) : (s.setCs x).stat.pwr = s.stat.pwr := rfl
@[simp] theorem State.setCs_stat_cs (s : State) (x : Bool) : (s.setCs x).stat.cs = x := rfl
@[simp] theorem State.setCs_stat_noinit (s : State) (x : Bool) : (s.setCs x).stat.noinit = s.stat.noinit := rfl
@[simp] theorem State.setCs_stat_nodisk (s : State) (x : Bool) : (s.setCs x).stat.nodisk = s.stat.nodisk := rfl
@[simp] theorem State.setCs_stat_wprot (s : State) (x : Bool) : (s.setCs x).stat.wprot = s.stat.wprot := rfl
@[simp] theorem State.setPwr_params (s : State) (x : Bool) : (s.setPwr x).params = s.params := rfl
@[simp] theorem State.setPwr_op (s : State) (x : Bool) : (s.setPwr x).op = s.op := rfl
@[simp] theorem State.setPwr_arg (s : State) (x : Bool) : (s.setPwr x).arg = s.arg := rfl
@[simp] theorem State.setPwr_rdata (s : State) (x : Bool) : (s.setPwr x).rdata = s.rdata := rfl
@[simp] theorem State.setPwr_t1 (s : State) (x : Bool) : (s.setPwr x).t1 = s.t1 := rfl
@[simp] theorem State.setPwr_t2 (s : State) (x : Bool) : (s.setPwr x).t2 = s.t2 := rfl
@[simp] theorem State.setPwr_crcchk (s : State) (x : Bool) : (s.setPwr x).crcchk = s.crcchk := rfl
@[simp] theorem State.setPwr_data (s : State) (x : Bool) : (s.setPwr x).data = s.data := rfl
@[simp] theorem State.setPwr_int (s : State) (x : Bool) : (s.setPwr x).int = s.int := rfl
@[simp] theorem State.setPwr_rstN (s : State) (x : Bool) : (s.setPwr x).rstN = s.rstN := rfl
@[simp] theorem State.setPwr_env (s : State) (x : Bool) : (s.setPwr x).env = s.env := rfl
@[simp] theorem State.setPwr_stat_busy (s : State) (x : Bool) : (s.setPwr x).stat.busy = s.stat.busy := rfl
@[simp] theorem State.setPwr_stat_done (s : State) (x : Bool) : (s.setPwr x).stat.done = s.stat.done := rfl
@[simp] theorem State.setPwr_stat_fail (s : State) (x : Bool) : (s.setPwr x).stat.fail = s.stat.fail := rfl
@[simp] theorem State.setPwr_stat_ovr (s : State) (x : Bool) : (s.setPwr x).stat.ovr = s.stat.ovr := rfl
@[simp] theorem State.setPwr_stat_cause (s : State) (x : Bool) : (s.setPwr x).stat.cause = s.stat.cause := rfl
@[simp] theorem State.setPwr_stat_ctype (s : State) (x : Bool) : (s.setPwr x).stat.ctype = s.stat.ctype := rfl
@[simp] theorem State.setPwr_stat_pwr (s : State) (x : Bool) : (s.setPwr x).stat.pwr = x := rfl
@[simp] theorem State.setPwr_stat_cs (s : State) (x : Bool) : (s.setPwr x).stat.cs = s.stat.cs := rfl
@[simp] theorem State.setPwr_stat_noinit (s : State) (x : Bool) : (s.setPwr x).stat.noinit = s.stat.noinit := rfl
@[simp] theorem State.setPwr_stat_nodisk (s : State) (x : Bool) : (s.setPwr x).stat.nodisk = s.stat.nodisk := rfl
@[simp] theorem State.setPwr_stat_wprot (s : State) (x : Bool) : (s.setPwr x).stat.wprot = s.stat.wprot := rfl
@[simp] theorem State.setNoinit_params (s : State) (x : Bool) : (s.setNoinit x).params = s.params := rfl
@[simp] theorem State.setNoinit_op (s : State) (x : Bool) : (s.setNoinit x).op = s.op := rfl
@[simp] theorem State.setNoinit_arg (s : State) (x : Bool) : (s.setNoinit x).arg = s.arg := rfl
@[simp] theorem State.setNoinit_rdata (s : State) (x : Bool) : (s.setNoinit x).rdata = s.rdata := rfl
@[simp] theorem State.setNoinit_t1 (s : State) (x : Bool) : (s.setNoinit x).t1 = s.t1 := rfl
@[simp] theorem State.setNoinit_t2 (s : State) (x : Bool) : (s.setNoinit x).t2 = s.t2 := rfl
@[simp] theorem State.setNoinit_crcchk (s : State) (x : Bool) : (s.setNoinit x).crcchk = s.crcchk := rfl
@[simp] theorem State.setNoinit_data (s : State) (x : Bool) : (s.setNoinit x).data = s.data := rfl
@[simp] theorem State.setNoinit_int (s : State) (x : Bool) : (s.setNoinit x).int = s.int := rfl
@[simp] theorem State.setNoinit_rstN (s : State) (x : Bool) : (s.setNoinit x).rstN = s.rstN := rfl
@[simp] theorem State.setNoinit_env (s : State) (x : Bool) : (s.setNoinit x).env = s.env := rfl
@[simp] theorem State.setNoinit_stat_busy (s : State) (x : Bool) : (s.setNoinit x).stat.busy = s.stat.busy := rfl
@[simp] theorem State.setNoinit_stat_done (s : State) (x : Bool) : (s.setNoinit x).stat.done = s.stat.done := rfl
@[simp] theorem State.setNoinit_stat_fail (s : State) (x : Bool) : (s.setNoinit x).stat.fail = s.stat.fail := rfl
@[simp] theorem State.setNoinit_stat_ovr (s : State) (x : Bool) : (s.setNoinit x).stat.ovr = s.stat.ovr := rfl
@[simp] theorem State.setNoinit_stat_cause (s : State) (x : Bool) : (s.setNoinit x).stat.cause = s.stat.cause := rfl
@[simp] theorem State.setNoinit_stat_ctype (s : State) (x : Bool) : (s.setNoinit x).stat.ctype = s.stat.ctype := rfl
@[simp] theorem State.setNoinit_stat_pwr (s : State) (x : Bool) : (s.setNoinit x).stat.pwr = s.stat.pwr := rfl
@[simp] theorem State.setNoinit_stat_cs (s : State) (x : Bool) : (s.setNoinit x).stat.cs = s.stat.cs := rfl
@[simp] theorem State.setNoinit_stat_noinit (s : State) (x : Bool) : (s.setNoinit x).stat.noinit = x := rfl
@[simp] theorem State.setNoinit_stat_nodisk (s : State) (x : Bool) : (s.setNoinit x).stat.nodisk = s.stat.nodisk := rfl
@[simp] theorem State.setNoinit_stat_wprot (s : State) (x : Bool) : (s.setNoinit x).stat.wprot = s.stat.wprot := rfl
@[simp] theorem State.setNodisk_params (s : State) (x : Bool) : (s.setNodisk x).params = s.params := rfl
@[simp] theorem State.setNodisk_op (s : State) (x : Bool) : (s.setNodisk x).op = s.op := rfl
@[simp] theorem State.setNodisk_arg (s : State) (x : Bool) : (s.setNodisk x).arg = s.arg := rfl
@[simp] theorem State.setNodisk_rdata (s : State) (x : Bool) : (s.setNodisk x).rdata = s.rdata := rfl
@[simp] theorem State.setNodisk_t1 (s : State) (x : Bool) : (s.setNodisk x).t1 = s.t1 := rfl
@[simp] theorem State.setNodisk_t2 (s : State) (x : Bool) : (s.setNodisk x).t2 = s.t2 := rfl
@[simp] theorem State.setNodisk_crcchk (s : State) (x : Bool) : (s.setNodisk x).crcchk = s.crcchk := rfl
@[simp] theorem State.setNodisk_data (s : State) (x : Bool) : (s.setNodisk x).data = s.data := rfl
@[simp] theorem State.setNodisk_int (s : State) (x : Bool) : (s.setNodisk x).int = s.int := rfl
@[simp] theorem State.setNodisk_rstN (s : State) (x : Bool) : (s.setNodisk x).rstN = s.rstN := rfl
@[simp] theorem State.setNodisk_env (s : State) (x : Bool) : (s.setNodisk x).env = s.env := rfl
@[simp] theorem State.setNodisk_stat_busy (s : State) (x : Bool) : (s.setNodisk x).stat.busy = s.stat.busy := rfl
@[simp] theorem State.setNodisk_stat_done (s : State) (x : Bool) : (s.setNodisk x).stat.done = s.stat.done := rfl
@[simp] theorem State.setNodisk_stat_fail (s : State) (x : Bool) : (s.setNodisk x).stat.fail = s.stat.fail := rfl
@[simp] theorem State.setNodisk_stat_ovr (s : State) (x : Bool) : (s.setNodisk x).stat.ovr = s.stat.ovr := rfl
@[simp] theorem State.setNodisk_stat_cause (s : State) (x : Bool) : (s.setNodisk x).stat.cause = s.stat.cause := rfl
@[simp] theorem State.setNodisk_stat_ctype (s : State) (x : Bool) : (s.setNodisk x).stat.ctype = s.stat.ctype := rfl
@[simp] theorem State.setNodisk_stat_pwr (s : State) (x : Bool) : (s.setNodisk x).stat.pwr = s.stat.pwr := rfl
@[simp] theorem State.setNodisk_stat_cs (s : State) (x : Bool) : (s.setNodisk x).stat.cs = s.stat.cs := rfl
@[simp] theorem State.setNodisk_stat_noinit (s : State) (x : Bool) : (s.setNodisk x).stat.noinit = s.stat.noinit := rfl
@[simp] theorem State.setNodisk_stat_nodisk (s : State) (x : Bool) : (s.setNodisk x).stat.nodisk = x := rfl
@[simp] theorem State.setNodisk_stat_wprot (s : State) (x : Bool) : (s.setNodisk x).stat.wprot = s.stat.wprot := rfl
@[simp] theorem State.setWprot_params (s : State) (x : Bool) : (s.setWprot x).params = s.params := rfl
@[simp] theorem State.setWprot_op (s : State) (x : Bool) : (s.setWprot x).op = s.op := rfl
@[simp] theorem State.setWprot_arg (s : State) (x : Bool) : (s.setWprot x).arg = s.arg := rfl
@[simp] theorem State.setWprot_rdata (s : State) (x : Bool) : (s.setWprot x).rdata = s.rdata := rfl
@[simp] theorem State.setWprot_t1 (s : State) (x : Bool) : (s.setWprot x).t1 = s.t1 := rfl
@[simp] theorem State.setWprot_t2 (s : State) (x : Bool) : (s.setWprot x).t2 = s.t2 := rfl
@[simp] theorem State.setWprot_crcchk (s : State) (x : Bool) : (s.setWprot x).crcchk = s.crcchk := rfl
@[simp] theorem State.setWprot_data (s : State) (x : Bool) : (s.setWprot x).data = s.data := rfl
@[simp] theorem State.setWprot_int (s : State) (x : Bool) : (s.setWprot x).int = s.int := rfl
@[simp] theorem State.setWprot_rstN (s : State) (x : Bool) : (s.setWprot x).rstN = s.rstN := rfl
@[simp] theorem State.setWprot_env (s : State) (x : Bool) : (s.setWprot x).env = s.env := rfl
@[simp] theorem State.setWprot_stat_busy (s : State) (x : Bool) : (s.setWprot x).stat.busy = s.stat.busy := rfl
@[simp] theorem State.setWprot_stat_done (s : State) (x : Bool) : (s.setWprot x).stat.done = s.stat.done := rfl
@[simp] theorem State.setWprot_stat_fail (s : State) (x : Bool) : (s.setWprot x).stat.fail = s.stat.fail := rfl
@[simp] theorem State.setWprot_stat_ovr (s : State) (x : Bool) : (s.setWprot x).stat.ovr = s.stat.ovr := rfl
@[simp] theorem State.setWprot_stat_cause (s : State) (x : Bool) : (s.setWprot x).stat.cause = s.stat.cause := rfl
@[simp] theorem State.setWprot_stat_ctype (s : State) (x : Bool) : (s.setWprot x).stat.ctype = s.stat.ctype := rfl
@[simp] theorem State.setWprot_stat_pwr (s : State) (x : Bool) : (s.setWprot x).stat.pwr = s.stat.pwr := rfl
@[simp] theorem State.setWprot_stat_cs (s : State) (x : Bool) : (s.setWprot x).stat.cs = s.stat.cs := rfl
@[simp] theorem State.setWprot_stat_noinit (s : State) (x : Bool) : (s.setWprot x).stat.noinit = s.stat.noinit := rfl
@[simp] theorem State.setWprot_stat_nodisk (s : State) (x : Bool) : (s.setWprot x).stat.nodisk = s.stat.nodisk := rfl
@[simp] theorem State.setWprot_stat_wprot (s : State) (x : Bool) : (s.setWprot x).stat.wprot = x := rfl
@[simp] theorem State.setCtype_params (s : State) (x : CardType) : (s.setCtype x).params = s.params := rfl
@[simp] theorem State.setCtype_op (s : State) (x : CardType) : (s.setCtype x).op = s.op := rfl
@[simp] theorem State.setCtype_arg (s : State) (x : CardType) : (s.setCtype x).arg = s.arg := rfl
@[simp] theorem State.setCtype_rdata (s : State) (x : CardType) : (s.setCtype x).rdata = s.rdata := rfl
@[simp] theorem State.setCtype_t1 (s : State) (x : CardType) : (s.setCtype x).t1 = s.t1 := rfl
@[simp] theorem State.setCtype_t2 (s : State) (x : CardType) : (s.setCtype x).t2 = s.t2 := rfl
@[simp] theorem State.setCtype_crcchk (s : State) (x : CardType) : (s.setCtype x).crcchk = s.crcchk := rfl
@[simp] theorem State.setCtype_data (s : State) (x : CardType) : (s.setCtype x).data = s.data := rfl
@[simp] theorem State.setCtype_int (s : State) (x : CardType) : (s.setCtype x).int = s.int := rfl
@[simp] theorem State.setCtype_rstN (s : State) (x : CardType) : (s.setCtype x).rstN = s.rstN := rfl
@[simp] theorem State.setCtype_env (s : State) (x : CardType) : (s.setCtype x).env = s.env := rfl
@[simp] theorem State.setCtype_stat_busy (s : State) (x : CardType) : (s.setCtype x).stat.busy = s.stat.busy := rfl
@[simp] theorem State.setCtype_stat_done (s : State) (x : CardType) : (s.setCtype x).stat.done = s.stat.done := rfl
@[simp] theorem State.setCtype_stat_fail (s : State) (x : CardType) : (s.setCtype x).stat.fail = s.stat.fail := rfl
@[simp] theorem State.setCtype_stat_ovr (s : State) (x : CardType) : (s.setCtype x).stat.ovr = s.stat.ovr := rfl
@[simp] theorem State.setCtype_stat_cause (s : State) (x : CardType) : (s.setCtype x).stat.cause = s.stat.cause := rfl
@[simp] theorem State.setCtype_stat_ctype (s : State) (x : CardType) : (s.setCtype x).stat.ctype = x := rfl
@[simp] theorem State.setCtype_stat_pwr (s : State) (x : CardType) : (s.setCtype x).stat.pwr = s.stat.pwr := rfl
@[simp] theorem State.setCtype_stat_cs (s : State) (x : CardType) : (s.setCtype x).stat.cs = s.stat.cs := rfl
@[simp] theorem State.setCtype_stat_noinit (s : State) (x : CardType) : (s.setCtype x).stat.noinit = s.stat.noinit := rfl
@[simp] theorem State.setCtype_stat_nodisk (s : State) (x : CardType) : (s.setCtype x).stat.nodisk = s.stat.nodisk := rfl
@[simp] theorem State.setCtype_stat_wprot (s : State) (x : CardType) : (s.setCtype x).stat.wprot = s.stat.wprot := rfl
@[simp] theorem State.discard_params (s : State) : (s.discard).params = s.params := rfl
@[simp] theorem State.discard_op (s : State) : (s.discard).op = s.op := rfl
@[simp] theorem State.discard_arg (s : State) : (s.discard).arg = s.arg := rfl
@[simp] theorem State.discard_rdata (s : State) : (s.discard).rdata = s.rdata := rfl
@[simp] theorem State.discard_t1 (s : State) : (s.discard).t1 = s.t1 := rfl
@[simp] theorem State.discard_t2 (s : State) : (s.discard).t2 = s.t2 := rfl
@[simp] theorem State.discard_crcchk (s : State) : (s.discard).crcchk = s.crcchk := rfl
@[simp] theorem State.discard_data (s : State) : (s.discard).data = s.data := rfl
@[simp] theorem State.discard_int (s : State) : (s.discard).int = s.int := rfl
@[simp] theorem State.discard_rstN (s : State) : (s.discard).rstN = s.rstN := rfl
@[simp] theorem State.discard_env (s : State) : (s.discard).env = s.env := rfl
@[simp] theorem State.discard_stat_busy (s : State) : (s.discard).stat.busy = s.stat.busy := rfl
@[simp] theorem State.discard_stat_done (s : State) : (s.discard).stat.done = s.stat.done := rfl
@[simp] theorem State.discard_stat_fail (s : State) : (s.discard).stat.fail = s.stat.fail := rfl
@[simp] theorem State.discard_stat_ovr (s : State) : (s.discard).stat.ovr = true := rfl
@[simp] theorem State.discard_stat_cause (s : State) : (s.discard).stat.cause = s.stat.cause := rfl
@[simp] theorem State.discard_stat_ctype (s : State) : (s.discard).stat.ctype = s.stat.ctype := rfl
@[simp] theorem State.discard_stat_pwr (s : State) : (s.discard).stat.pwr = s.stat.pwr := rfl
@[simp] theorem State.discard_stat_cs (s : State) : (s.discard).stat.cs = s.stat.cs := rfl
@[simp] theorem State.discard_stat_noinit (s : State) : (s.discard).stat.noinit = s.stat.noinit := rfl
@[simp] theorem State.discard_stat_nodisk (s : State) : (s.discard).stat.nodisk = s.stat.nodisk := rfl
@[simp] theorem State.discard_stat_wprot (s : State) : (s.discard).stat.wprot = s.stat.wprot := rfl

/-! ### Hidden locals -/

@[simp] theorem State.setN_params (s : State) (x : Nat) : (s.setN x).params = s.params := rfl
@[simp] theorem State.setN_op (s : State) (x : Nat) : (s.setN x).op = s.op := rfl
@[simp] theorem State.setN_arg (s : State) (x : Nat) : (s.setN x).arg = s.arg := rfl
@[simp] theorem State.setN_rdata (s : State) (x : Nat) : (s.setN x).rdata = s.rdata := rfl
@[simp] theorem State.setN_stat (s : State) (x : Nat) : (s.setN x).stat = s.stat := rfl
@[simp] theorem State.setN_t1 (s : State) (x : Nat) : (s.setN x).t1 = s.t1 := rfl
@[simp] theorem State.setN_t2 (s : State) (x : Nat) : (s.setN x).t2 = s.t2 := rfl
@[simp] theorem State.setN_crcchk (s : State) (x : Nat) : (s.setN x).crcchk = s.crcchk := rfl
@[simp] theorem State.setN_data (s : State) (x : Nat) : (s.setN x).data = s.data := rfl
@[simp] theorem State.setN_rstN (s : State) (x : Nat) : (s.setN x).rstN = s.rstN := rfl
@[simp] theorem State.setN_env (s : State) (x : Nat) : (s.setN x).env = s.env := rfl
@[simp] theorem State.setN_int_opl (s : State) (x : Nat) : (s.setN x).int.opl = s.int.opl := rfl
@[simp] theorem State.setN_int_argl (s : State) (x : Nat) : (s.setN x).int.argl = s.int.argl := rfl
@[simp] theorem State.setN_int_n (s : State) (x : Nat) : (s.setN x).int.n = x := rfl
@[simp] theorem State.setN_int_r (s : State) (x : Nat) : (s.setN x).int.r = s.int.r := rfl
@[simp] theorem State.setN_int_type (s : State) (x : Nat) : (s.setN x).int.type = s.int.type := rfl
@[simp] theorem State.setN_int_ok (s : State) (x : Nat) : (s.setN x).int.ok = s.int.ok := rfl
@[simp] theorem State.setN_int_echo (s : State) (x : Nat) : (s.setN x).int.echo = s.int.echo := rfl
@[simp] theorem State.setN_int_ocr (s : State) (x : Nat) : (s.setN x).int.ocr = s.int.ocr := rfl
@[simp] theorem State.setN_int_crc (s : State) (x : Nat) : (s.setN x).int.crc = s.int.crc := rfl
@[simp] theorem State.setN_int_phase (s : State) (x : Nat) : (s.setN x).int.phase = s.int.phase := rfl
@[simp] theorem State.setType_params (s : State) (x : CardType) : (s.setType x).params = s.params := rfl
@[simp] theorem State.setType_op (s : State) (x : CardType) : (s.setType x).op = s.op := rfl
@[simp] theorem State.setType_arg (s : State) (x : CardType) : (s.setType x).arg = s.arg := rfl
@[simp] theorem State.setType_rdata (s : State) (x : CardType) : (s.setType x).rdata = s.rdata := rfl
@[simp] theorem State.setType_stat (s : State) (x : CardType) : (s.setType x).stat = s.stat := rfl
@[simp] theorem State.setType_t1 (s : State) (x : CardType) : (s.setType x).t1 = s.t1 := rfl
@[simp] theorem State.setType_t2 (s : State) (x : CardType) : (s.setType x).t2 = s.t2 := rfl
@[simp] theorem State.setType_crcchk (s : State) (x : CardType) : (s.setType x).crcchk = s.crcchk := rfl
@[simp] theorem State.setType_data (s : State) (x : CardType) : (s.setType x).data = s.data := rfl
@[simp] theorem State.setType_rstN (s : State) (x : CardType) : (s.setType x).rstN = s.rstN := rfl
@[simp] theorem State.setType_env (s : State) (x : CardType) : (s.setType x).env = s.env := rfl
@[simp] theorem State.setType_int_opl (s : State) (x : CardType) : (s.setType x).int.opl = s.int.opl := rfl
@[simp] theorem State.setType_int_argl (s : State) (x : CardType) : (s.setType x).int.argl = s.int.argl := rfl
@[simp] theorem State.setType_int_n (s : State) (x : CardType) : (s.setType x).int.n = s.int.n := rfl
@[simp] theorem State.setType_int_r (s : State) (x : CardType) : (s.setType x).int.r = s.int.r := rfl
@[simp] theorem State.setType_int_type (s : State) (x : CardType) : (s.setType x).int.type = x := rfl
@[simp] theorem State.setType_int_ok (s : State) (x : CardType) : (s.setType x).int.ok = s.int.ok := rfl
@[simp] theorem State.setType_int_echo (s : State) (x : CardType) : (s.setType x).int.echo = s.int.echo := rfl
@[simp] theorem State.setType_int_ocr (s : State) (x : CardType) : (s.setType x).int.ocr = s.int.ocr := rfl
@[simp] theorem State.setType_int_crc (s : State) (x : CardType) : (s.setType x).int.crc = s.int.crc := rfl
@[simp] theorem State.setType_int_phase (s : State) (x : CardType) : (s.setType x).int.phase = s.int.phase := rfl
@[simp] theorem State.setOk_params (s : State) (x : Bool) : (s.setOk x).params = s.params := rfl
@[simp] theorem State.setOk_op (s : State) (x : Bool) : (s.setOk x).op = s.op := rfl
@[simp] theorem State.setOk_arg (s : State) (x : Bool) : (s.setOk x).arg = s.arg := rfl
@[simp] theorem State.setOk_rdata (s : State) (x : Bool) : (s.setOk x).rdata = s.rdata := rfl
@[simp] theorem State.setOk_stat (s : State) (x : Bool) : (s.setOk x).stat = s.stat := rfl
@[simp] theorem State.setOk_t1 (s : State) (x : Bool) : (s.setOk x).t1 = s.t1 := rfl
@[simp] theorem State.setOk_t2 (s : State) (x : Bool) : (s.setOk x).t2 = s.t2 := rfl
@[simp] theorem State.setOk_crcchk (s : State) (x : Bool) : (s.setOk x).crcchk = s.crcchk := rfl
@[simp] theorem State.setOk_data (s : State) (x : Bool) : (s.setOk x).data = s.data := rfl
@[simp] theorem State.setOk_rstN (s : State) (x : Bool) : (s.setOk x).rstN = s.rstN := rfl
@[simp] theorem State.setOk_env (s : State) (x : Bool) : (s.setOk x).env = s.env := rfl
@[simp] theorem State.setOk_int_opl (s : State) (x : Bool) : (s.setOk x).int.opl = s.int.opl := rfl
@[simp] theorem State.setOk_int_argl (s : State) (x : Bool) : (s.setOk x).int.argl = s.int.argl := rfl
@[simp] theorem State.setOk_int_n (s : State) (x : Bool) : (s.setOk x).int.n = s.int.n := rfl
@[simp] theorem State.setOk_int_r (s : State) (x : Bool) : (s.setOk x).int.r = s.int.r := rfl
@[simp] theorem State.setOk_int_type (s : State) (x : Bool) : (s.setOk x).int.type = s.int.type := rfl
@[simp] theorem State.setOk_int_ok (s : State) (x : Bool) : (s.setOk x).int.ok = x := rfl
@[simp] theorem State.setOk_int_echo (s : State) (x : Bool) : (s.setOk x).int.echo = s.int.echo := rfl
@[simp] theorem State.setOk_int_ocr (s : State) (x : Bool) : (s.setOk x).int.ocr = s.int.ocr := rfl
@[simp] theorem State.setOk_int_crc (s : State) (x : Bool) : (s.setOk x).int.crc = s.int.crc := rfl
@[simp] theorem State.setOk_int_phase (s : State) (x : Bool) : (s.setOk x).int.phase = s.int.phase := rfl
@[simp] theorem State.setCrc_params (s : State) (x : Half) : (s.setCrc x).params = s.params := rfl
@[simp] theorem State.setCrc_op (s : State) (x : Half) : (s.setCrc x).op = s.op := rfl
@[simp] theorem State.setCrc_arg (s : State) (x : Half) : (s.setCrc x).arg = s.arg := rfl
@[simp] theorem State.setCrc_rdata (s : State) (x : Half) : (s.setCrc x).rdata = s.rdata := rfl
@[simp] theorem State.setCrc_stat (s : State) (x : Half) : (s.setCrc x).stat = s.stat := rfl
@[simp] theorem State.setCrc_t1 (s : State) (x : Half) : (s.setCrc x).t1 = s.t1 := rfl
@[simp] theorem State.setCrc_t2 (s : State) (x : Half) : (s.setCrc x).t2 = s.t2 := rfl
@[simp] theorem State.setCrc_crcchk (s : State) (x : Half) : (s.setCrc x).crcchk = s.crcchk := rfl
@[simp] theorem State.setCrc_data (s : State) (x : Half) : (s.setCrc x).data = s.data := rfl
@[simp] theorem State.setCrc_rstN (s : State) (x : Half) : (s.setCrc x).rstN = s.rstN := rfl
@[simp] theorem State.setCrc_env (s : State) (x : Half) : (s.setCrc x).env = s.env := rfl
@[simp] theorem State.setCrc_int_opl (s : State) (x : Half) : (s.setCrc x).int.opl = s.int.opl := rfl
@[simp] theorem State.setCrc_int_argl (s : State) (x : Half) : (s.setCrc x).int.argl = s.int.argl := rfl
@[simp] theorem State.setCrc_int_n (s : State) (x : Half) : (s.setCrc x).int.n = s.int.n := rfl
@[simp] theorem State.setCrc_int_r (s : State) (x : Half) : (s.setCrc x).int.r = s.int.r := rfl
@[simp] theorem State.setCrc_int_type (s : State) (x : Half) : (s.setCrc x).int.type = s.int.type := rfl
@[simp] theorem State.setCrc_int_ok (s : State) (x : Half) : (s.setCrc x).int.ok = s.int.ok := rfl
@[simp] theorem State.setCrc_int_echo (s : State) (x : Half) : (s.setCrc x).int.echo = s.int.echo := rfl
@[simp] theorem State.setCrc_int_ocr (s : State) (x : Half) : (s.setCrc x).int.ocr = s.int.ocr := rfl
@[simp] theorem State.setCrc_int_crc (s : State) (x : Half) : (s.setCrc x).int.crc = x := rfl
@[simp] theorem State.setCrc_int_phase (s : State) (x : Half) : (s.setCrc x).int.phase = s.int.phase := rfl
@[simp] theorem State.setR_params (s : State) (x : Byte) : (s.setR x).params = s.params := rfl
@[simp] theorem State.setR_op (s : State) (x : Byte) : (s.setR x).op = s.op := rfl
@[simp] theorem State.setR_arg (s : State) (x : Byte) : (s.setR x).arg = s.arg := rfl
@[simp] theorem State.setR_rdata (s : State) (x : Byte) : (s.setR x).rdata = s.rdata := rfl
@[simp] theorem State.setR_stat (s : State) (x : Byte) : (s.setR x).stat = s.stat := rfl
@[simp] theorem State.setR_t1 (s : State) (x : Byte) : (s.setR x).t1 = s.t1 := rfl
@[simp] theorem State.setR_t2 (s : State) (x : Byte) : (s.setR x).t2 = s.t2 := rfl
@[simp] theorem State.setR_crcchk (s : State) (x : Byte) : (s.setR x).crcchk = s.crcchk := rfl
@[simp] theorem State.setR_data (s : State) (x : Byte) : (s.setR x).data = s.data := rfl
@[simp] theorem State.setR_rstN (s : State) (x : Byte) : (s.setR x).rstN = s.rstN := rfl
@[simp] theorem State.setR_env (s : State) (x : Byte) : (s.setR x).env = s.env := rfl
@[simp] theorem State.setR_int_opl (s : State) (x : Byte) : (s.setR x).int.opl = s.int.opl := rfl
@[simp] theorem State.setR_int_argl (s : State) (x : Byte) : (s.setR x).int.argl = s.int.argl := rfl
@[simp] theorem State.setR_int_n (s : State) (x : Byte) : (s.setR x).int.n = s.int.n := rfl
@[simp] theorem State.setR_int_r (s : State) (x : Byte) : (s.setR x).int.r = x := rfl
@[simp] theorem State.setR_int_type (s : State) (x : Byte) : (s.setR x).int.type = s.int.type := rfl
@[simp] theorem State.setR_int_ok (s : State) (x : Byte) : (s.setR x).int.ok = s.int.ok := rfl
@[simp] theorem State.setR_int_echo (s : State) (x : Byte) : (s.setR x).int.echo = s.int.echo := rfl
@[simp] theorem State.setR_int_ocr (s : State) (x : Byte) : (s.setR x).int.ocr = s.int.ocr := rfl
@[simp] theorem State.setR_int_crc (s : State) (x : Byte) : (s.setR x).int.crc = s.int.crc := rfl
@[simp] theorem State.setR_int_phase (s : State) (x : Byte) : (s.setR x).int.phase = s.int.phase := rfl
@[simp] theorem State.dropReplies_params (s : State) : (s.dropReplies).params = s.params := rfl
@[simp] theorem State.dropReplies_op (s : State) : (s.dropReplies).op = s.op := rfl
@[simp] theorem State.dropReplies_arg (s : State) : (s.dropReplies).arg = s.arg := rfl
@[simp] theorem State.dropReplies_rdata (s : State) : (s.dropReplies).rdata = s.rdata := rfl
@[simp] theorem State.dropReplies_stat (s : State) : (s.dropReplies).stat = s.stat := rfl
@[simp] theorem State.dropReplies_t1 (s : State) : (s.dropReplies).t1 = s.t1 := rfl
@[simp] theorem State.dropReplies_t2 (s : State) : (s.dropReplies).t2 = s.t2 := rfl
@[simp] theorem State.dropReplies_crcchk (s : State) : (s.dropReplies).crcchk = s.crcchk := rfl
@[simp] theorem State.dropReplies_data (s : State) : (s.dropReplies).data = s.data := rfl
@[simp] theorem State.dropReplies_rstN (s : State) : (s.dropReplies).rstN = s.rstN := rfl
@[simp] theorem State.dropReplies_env (s : State) : (s.dropReplies).env = s.env := rfl
@[simp] theorem State.dropReplies_int_opl (s : State) : (s.dropReplies).int.opl = s.int.opl := rfl
@[simp] theorem State.dropReplies_int_argl (s : State) : (s.dropReplies).int.argl = s.int.argl := rfl
@[simp] theorem State.dropReplies_int_n (s : State) : (s.dropReplies).int.n = s.int.n := rfl
@[simp] theorem State.dropReplies_int_r (s : State) : (s.dropReplies).int.r = s.int.r := rfl
@[simp] theorem State.dropReplies_int_type (s : State) : (s.dropReplies).int.type = s.int.type := rfl
@[simp] theorem State.dropReplies_int_ok (s : State) : (s.dropReplies).int.ok = s.int.ok := rfl
@[simp] theorem State.dropReplies_int_crc (s : State) : (s.dropReplies).int.crc = s.int.crc := rfl
@[simp] theorem State.dropReplies_int_phase (s : State) : (s.dropReplies).int.phase = s.int.phase := rfl
@[simp] theorem State.dropReplies_int_echo (s : State) : (s.dropReplies).int.echo = Internal.reset.echo := rfl
@[simp] theorem State.dropReplies_int_ocr (s : State) : (s.dropReplies).int.ocr = Internal.reset.ocr := rfl
@[simp] theorem State.setEcho_params (s : State) (k : Fin 4) (x : Byte) : (s.setEcho k x).params = s.params := rfl
@[simp] theorem State.setEcho_op (s : State) (k : Fin 4) (x : Byte) : (s.setEcho k x).op = s.op := rfl
@[simp] theorem State.setEcho_arg (s : State) (k : Fin 4) (x : Byte) : (s.setEcho k x).arg = s.arg := rfl
@[simp] theorem State.setEcho_rdata (s : State) (k : Fin 4) (x : Byte) : (s.setEcho k x).rdata = s.rdata := rfl
@[simp] theorem State.setEcho_stat (s : State) (k : Fin 4) (x : Byte) : (s.setEcho k x).stat = s.stat := rfl
@[simp] theorem State.setEcho_t1 (s : State) (k : Fin 4) (x : Byte) : (s.setEcho k x).t1 = s.t1 := rfl
@[simp] theorem State.setEcho_t2 (s : State) (k : Fin 4) (x : Byte) : (s.setEcho k x).t2 = s.t2 := rfl
@[simp] theorem State.setEcho_crcchk (s : State) (k : Fin 4) (x : Byte) : (s.setEcho k x).crcchk = s.crcchk := rfl
@[simp] theorem State.setEcho_data (s : State) (k : Fin 4) (x : Byte) : (s.setEcho k x).data = s.data := rfl
@[simp] theorem State.setEcho_rstN (s : State) (k : Fin 4) (x : Byte) : (s.setEcho k x).rstN = s.rstN := rfl
@[simp] theorem State.setEcho_env (s : State) (k : Fin 4) (x : Byte) : (s.setEcho k x).env = s.env := rfl
@[simp] theorem State.setEcho_int_opl (s : State) (k : Fin 4) (x : Byte) : (s.setEcho k x).int.opl = s.int.opl := rfl
@[simp] theorem State.setEcho_int_argl (s : State) (k : Fin 4) (x : Byte) : (s.setEcho k x).int.argl = s.int.argl := rfl
@[simp] theorem State.setEcho_int_n (s : State) (k : Fin 4) (x : Byte) : (s.setEcho k x).int.n = s.int.n := rfl
@[simp] theorem State.setEcho_int_r (s : State) (k : Fin 4) (x : Byte) : (s.setEcho k x).int.r = s.int.r := rfl
@[simp] theorem State.setEcho_int_type (s : State) (k : Fin 4) (x : Byte) : (s.setEcho k x).int.type = s.int.type := rfl
@[simp] theorem State.setEcho_int_ok (s : State) (k : Fin 4) (x : Byte) : (s.setEcho k x).int.ok = s.int.ok := rfl
@[simp] theorem State.setEcho_int_echo (s : State) (k : Fin 4) (x : Byte) : (s.setEcho k x).int.echo = s.int.echo.set k x := rfl
@[simp] theorem State.setEcho_int_ocr (s : State) (k : Fin 4) (x : Byte) : (s.setEcho k x).int.ocr = s.int.ocr := rfl
@[simp] theorem State.setEcho_int_crc (s : State) (k : Fin 4) (x : Byte) : (s.setEcho k x).int.crc = s.int.crc := rfl
@[simp] theorem State.setEcho_int_phase (s : State) (k : Fin 4) (x : Byte) : (s.setEcho k x).int.phase = s.int.phase := rfl
@[simp] theorem State.setOcr_params (s : State) (k : Fin 4) (x : Byte) : (s.setOcr k x).params = s.params := rfl
@[simp] theorem State.setOcr_op (s : State) (k : Fin 4) (x : Byte) : (s.setOcr k x).op = s.op := rfl
@[simp] theorem State.setOcr_arg (s : State) (k : Fin 4) (x : Byte) : (s.setOcr k x).arg = s.arg := rfl
@[simp] theorem State.setOcr_rdata (s : State) (k : Fin 4) (x : Byte) : (s.setOcr k x).rdata = s.rdata := rfl
@[simp] theorem State.setOcr_stat (s : State) (k : Fin 4) (x : Byte) : (s.setOcr k x).stat = s.stat := rfl
@[simp] theorem State.setOcr_t1 (s : State) (k : Fin 4) (x : Byte) : (s.setOcr k x).t1 = s.t1 := rfl
@[simp] theorem State.setOcr_t2 (s : State) (k : Fin 4) (x : Byte) : (s.setOcr k x).t2 = s.t2 := rfl
@[simp] theorem State.setOcr_crcchk (s : State) (k : Fin 4) (x : Byte) : (s.setOcr k x).crcchk = s.crcchk := rfl
@[simp] theorem State.setOcr_data (s : State) (k : Fin 4) (x : Byte) : (s.setOcr k x).data = s.data := rfl
@[simp] theorem State.setOcr_rstN (s : State) (k : Fin 4) (x : Byte) : (s.setOcr k x).rstN = s.rstN := rfl
@[simp] theorem State.setOcr_env (s : State) (k : Fin 4) (x : Byte) : (s.setOcr k x).env = s.env := rfl
@[simp] theorem State.setOcr_int_opl (s : State) (k : Fin 4) (x : Byte) : (s.setOcr k x).int.opl = s.int.opl := rfl
@[simp] theorem State.setOcr_int_argl (s : State) (k : Fin 4) (x : Byte) : (s.setOcr k x).int.argl = s.int.argl := rfl
@[simp] theorem State.setOcr_int_n (s : State) (k : Fin 4) (x : Byte) : (s.setOcr k x).int.n = s.int.n := rfl
@[simp] theorem State.setOcr_int_r (s : State) (k : Fin 4) (x : Byte) : (s.setOcr k x).int.r = s.int.r := rfl
@[simp] theorem State.setOcr_int_type (s : State) (k : Fin 4) (x : Byte) : (s.setOcr k x).int.type = s.int.type := rfl
@[simp] theorem State.setOcr_int_ok (s : State) (k : Fin 4) (x : Byte) : (s.setOcr k x).int.ok = s.int.ok := rfl
@[simp] theorem State.setOcr_int_echo (s : State) (k : Fin 4) (x : Byte) : (s.setOcr k x).int.echo = s.int.echo := rfl
@[simp] theorem State.setOcr_int_ocr (s : State) (k : Fin 4) (x : Byte) : (s.setOcr k x).int.ocr = s.int.ocr.set k x := rfl
@[simp] theorem State.setOcr_int_crc (s : State) (k : Fin 4) (x : Byte) : (s.setOcr k x).int.crc = s.int.crc := rfl
@[simp] theorem State.setOcr_int_phase (s : State) (k : Fin 4) (x : Byte) : (s.setOcr k x).int.phase = s.int.phase := rfl
@[simp] theorem State.goto_params (s : State) (i : Instr) (p : Pos) : (s.goto i p).params = s.params := rfl
@[simp] theorem State.goto_op (s : State) (i : Instr) (p : Pos) : (s.goto i p).op = s.op := rfl
@[simp] theorem State.goto_arg (s : State) (i : Instr) (p : Pos) : (s.goto i p).arg = s.arg := rfl
@[simp] theorem State.goto_rdata (s : State) (i : Instr) (p : Pos) : (s.goto i p).rdata = s.rdata := rfl
@[simp] theorem State.goto_stat (s : State) (i : Instr) (p : Pos) : (s.goto i p).stat = s.stat := rfl
@[simp] theorem State.goto_t1 (s : State) (i : Instr) (p : Pos) : (s.goto i p).t1 = s.t1 := rfl
@[simp] theorem State.goto_t2 (s : State) (i : Instr) (p : Pos) : (s.goto i p).t2 = s.t2 := rfl
@[simp] theorem State.goto_crcchk (s : State) (i : Instr) (p : Pos) : (s.goto i p).crcchk = s.crcchk := rfl
@[simp] theorem State.goto_data (s : State) (i : Instr) (p : Pos) : (s.goto i p).data = s.data := rfl
@[simp] theorem State.goto_rstN (s : State) (i : Instr) (p : Pos) : (s.goto i p).rstN = s.rstN := rfl
@[simp] theorem State.goto_env (s : State) (i : Instr) (p : Pos) : (s.goto i p).env = s.env := rfl
@[simp] theorem State.goto_int_opl (s : State) (i : Instr) (p : Pos) : (s.goto i p).int.opl = s.int.opl := rfl
@[simp] theorem State.goto_int_argl (s : State) (i : Instr) (p : Pos) : (s.goto i p).int.argl = s.int.argl := rfl
@[simp] theorem State.goto_int_n (s : State) (i : Instr) (p : Pos) : (s.goto i p).int.n = s.int.n := rfl
@[simp] theorem State.goto_int_r (s : State) (i : Instr) (p : Pos) : (s.goto i p).int.r = s.int.r := rfl
@[simp] theorem State.goto_int_type (s : State) (i : Instr) (p : Pos) : (s.goto i p).int.type = s.int.type := rfl
@[simp] theorem State.goto_int_ok (s : State) (i : Instr) (p : Pos) : (s.goto i p).int.ok = s.int.ok := rfl
@[simp] theorem State.goto_int_echo (s : State) (i : Instr) (p : Pos) : (s.goto i p).int.echo = s.int.echo := rfl
@[simp] theorem State.goto_int_ocr (s : State) (i : Instr) (p : Pos) : (s.goto i p).int.ocr = s.int.ocr := rfl
@[simp] theorem State.goto_int_crc (s : State) (i : Instr) (p : Pos) : (s.goto i p).int.crc = s.int.crc := rfl
@[simp] theorem State.goto_int_phase (s : State) (i : Instr) (p : Pos) : (s.goto i p).int.phase = .run i p := rfl
@[simp] theorem State.begin_params (s : State) (i : Instr) : (s.begin i).params = s.params := rfl
@[simp] theorem State.begin_op (s : State) (i : Instr) : (s.begin i).op = s.op := rfl
@[simp] theorem State.begin_arg (s : State) (i : Instr) : (s.begin i).arg = s.arg := rfl
@[simp] theorem State.begin_rdata (s : State) (i : Instr) : (s.begin i).rdata = s.rdata := rfl
@[simp] theorem State.begin_stat (s : State) (i : Instr) : (s.begin i).stat = s.stat := rfl
@[simp] theorem State.begin_t1 (s : State) (i : Instr) : (s.begin i).t1 = s.t1 := rfl
@[simp] theorem State.begin_t2 (s : State) (i : Instr) : (s.begin i).t2 = s.t2 := rfl
@[simp] theorem State.begin_crcchk (s : State) (i : Instr) : (s.begin i).crcchk = s.crcchk := rfl
@[simp] theorem State.begin_data (s : State) (i : Instr) : (s.begin i).data = s.data := rfl
@[simp] theorem State.begin_rstN (s : State) (i : Instr) : (s.begin i).rstN = s.rstN := rfl
@[simp] theorem State.begin_env (s : State) (i : Instr) : (s.begin i).env = s.env := rfl
@[simp] theorem State.begin_int_opl (s : State) (i : Instr) : (s.begin i).int.opl = s.int.opl := rfl
@[simp] theorem State.begin_int_argl (s : State) (i : Instr) : (s.begin i).int.argl = s.int.argl := rfl
@[simp] theorem State.begin_int_n (s : State) (i : Instr) : (s.begin i).int.n = s.int.n := rfl
@[simp] theorem State.begin_int_r (s : State) (i : Instr) : (s.begin i).int.r = s.int.r := rfl
@[simp] theorem State.begin_int_type (s : State) (i : Instr) : (s.begin i).int.type = s.int.type := rfl
@[simp] theorem State.begin_int_ok (s : State) (i : Instr) : (s.begin i).int.ok = s.int.ok := rfl
@[simp] theorem State.begin_int_echo (s : State) (i : Instr) : (s.begin i).int.echo = s.int.echo := rfl
@[simp] theorem State.begin_int_ocr (s : State) (i : Instr) : (s.begin i).int.ocr = s.int.ocr := rfl
@[simp] theorem State.begin_int_crc (s : State) (i : Instr) : (s.begin i).int.crc = s.int.crc := rfl
@[simp] theorem State.begin_int_phase (s : State) (i : Instr) : (s.begin i).int.phase = .run i (startPos i) := rfl

/-! ### Counters -/

@[simp] theorem State.armT1_params (s : State) (k : Nat) : (s.armT1 k).params = s.params := rfl
@[simp] theorem State.armT1_op (s : State) (k : Nat) : (s.armT1 k).op = s.op := rfl
@[simp] theorem State.armT1_arg (s : State) (k : Nat) : (s.armT1 k).arg = s.arg := rfl
@[simp] theorem State.armT1_rdata (s : State) (k : Nat) : (s.armT1 k).rdata = s.rdata := rfl
@[simp] theorem State.armT1_stat (s : State) (k : Nat) : (s.armT1 k).stat = s.stat := rfl
@[simp] theorem State.armT1_t2 (s : State) (k : Nat) : (s.armT1 k).t2 = s.t2 := rfl
@[simp] theorem State.armT1_crcchk (s : State) (k : Nat) : (s.armT1 k).crcchk = s.crcchk := rfl
@[simp] theorem State.armT1_data (s : State) (k : Nat) : (s.armT1 k).data = s.data := rfl
@[simp] theorem State.armT1_int (s : State) (k : Nat) : (s.armT1 k).int = s.int := rfl
@[simp] theorem State.armT1_rstN (s : State) (k : Nat) : (s.armT1 k).rstN = s.rstN := rfl
@[simp] theorem State.armT1_env (s : State) (k : Nat) : (s.armT1 k).env = s.env := rfl
@[simp] theorem State.armT1_t1 (s : State) (k : Nat) : (s.armT1 k).t1 = k % 2 ^ s.params.tickW := rfl
@[simp] theorem State.armT2_params (s : State) (k : Nat) : (s.armT2 k).params = s.params := rfl
@[simp] theorem State.armT2_op (s : State) (k : Nat) : (s.armT2 k).op = s.op := rfl
@[simp] theorem State.armT2_arg (s : State) (k : Nat) : (s.armT2 k).arg = s.arg := rfl
@[simp] theorem State.armT2_rdata (s : State) (k : Nat) : (s.armT2 k).rdata = s.rdata := rfl
@[simp] theorem State.armT2_stat (s : State) (k : Nat) : (s.armT2 k).stat = s.stat := rfl
@[simp] theorem State.armT2_t1 (s : State) (k : Nat) : (s.armT2 k).t1 = s.t1 := rfl
@[simp] theorem State.armT2_crcchk (s : State) (k : Nat) : (s.armT2 k).crcchk = s.crcchk := rfl
@[simp] theorem State.armT2_data (s : State) (k : Nat) : (s.armT2 k).data = s.data := rfl
@[simp] theorem State.armT2_int (s : State) (k : Nat) : (s.armT2 k).int = s.int := rfl
@[simp] theorem State.armT2_rstN (s : State) (k : Nat) : (s.armT2 k).rstN = s.rstN := rfl
@[simp] theorem State.armT2_env (s : State) (k : Nat) : (s.armT2 k).env = s.env := rfl
@[simp] theorem State.armT2_t2 (s : State) (k : Nat) : (s.armT2 k).t2 = k % 2 ^ s.params.tickW := rfl
@[simp] theorem State.tick_params (s : State) : (s.tick).params = s.params := rfl
@[simp] theorem State.tick_op (s : State) : (s.tick).op = s.op := rfl
@[simp] theorem State.tick_arg (s : State) : (s.tick).arg = s.arg := rfl
@[simp] theorem State.tick_rdata (s : State) : (s.tick).rdata = s.rdata := rfl
@[simp] theorem State.tick_stat (s : State) : (s.tick).stat = s.stat := rfl
@[simp] theorem State.tick_crcchk (s : State) : (s.tick).crcchk = s.crcchk := rfl
@[simp] theorem State.tick_data (s : State) : (s.tick).data = s.data := rfl
@[simp] theorem State.tick_int (s : State) : (s.tick).int = s.int := rfl
@[simp] theorem State.tick_rstN (s : State) : (s.tick).rstN = s.rstN := rfl
@[simp] theorem State.tick_env (s : State) : (s.tick).env = s.env := rfl
@[simp] theorem State.tick_t1 (s : State) : (s.tick).t1 = s.t1 - 1 := rfl
@[simp] theorem State.tick_t2 (s : State) : (s.tick).t2 = s.t2 - 1 := rfl

/-! ### Acceptance and completion -/

@[simp] theorem State.latch_params (s : State) (w : Word) : (s.latch w).params = s.params := rfl
@[simp] theorem State.latch_arg (s : State) (w : Word) : (s.latch w).arg = s.arg := rfl
@[simp] theorem State.latch_rdata (s : State) (w : Word) : (s.latch w).rdata = s.rdata := rfl
@[simp] theorem State.latch_t1 (s : State) (w : Word) : (s.latch w).t1 = s.t1 := rfl
@[simp] theorem State.latch_t2 (s : State) (w : Word) : (s.latch w).t2 = s.t2 := rfl
@[simp] theorem State.latch_crcchk (s : State) (w : Word) : (s.latch w).crcchk = s.crcchk := rfl
@[simp] theorem State.latch_data (s : State) (w : Word) : (s.latch w).data = s.data := rfl
@[simp] theorem State.latch_rstN (s : State) (w : Word) : (s.latch w).rstN = s.rstN := rfl
@[simp] theorem State.latch_env (s : State) (w : Word) : (s.latch w).env = s.env := rfl
@[simp] theorem State.latch_stat_busy (s : State) (w : Word) : (s.latch w).stat.busy = true := rfl
@[simp] theorem State.latch_stat_done (s : State) (w : Word) : (s.latch w).stat.done = false := rfl
@[simp] theorem State.latch_stat_fail (s : State) (w : Word) : (s.latch w).stat.fail = false := rfl
@[simp] theorem State.latch_stat_ovr (s : State) (w : Word) : (s.latch w).stat.ovr = false := rfl
@[simp] theorem State.latch_stat_cause (s : State) (w : Word) : (s.latch w).stat.cause = .none := rfl
@[simp] theorem State.latch_stat_ctype (s : State) (w : Word) : (s.latch w).stat.ctype = s.stat.ctype := rfl
@[simp] theorem State.latch_stat_pwr (s : State) (w : Word) : (s.latch w).stat.pwr = s.stat.pwr := rfl
@[simp] theorem State.latch_stat_cs (s : State) (w : Word) : (s.latch w).stat.cs = s.stat.cs := rfl
@[simp] theorem State.latch_stat_noinit (s : State) (w : Word) : (s.latch w).stat.noinit = s.stat.noinit := rfl
@[simp] theorem State.latch_stat_nodisk (s : State) (w : Word) : (s.latch w).stat.nodisk = s.stat.nodisk := rfl
@[simp] theorem State.latch_stat_wprot (s : State) (w : Word) : (s.latch w).stat.wprot = s.stat.wprot := rfl
@[simp] theorem State.latch_int_opl (s : State) (w : Word) : (s.latch w).int.opl = w := rfl
@[simp] theorem State.latch_int_argl (s : State) (w : Word) : (s.latch w).int.argl = s.arg := rfl
@[simp] theorem State.latch_int_n (s : State) (w : Word) : (s.latch w).int.n = s.int.n := rfl
@[simp] theorem State.latch_int_r (s : State) (w : Word) : (s.latch w).int.r = s.int.r := rfl
@[simp] theorem State.latch_int_type (s : State) (w : Word) : (s.latch w).int.type = s.int.type := rfl
@[simp] theorem State.latch_int_ok (s : State) (w : Word) : (s.latch w).int.ok = s.int.ok := rfl
@[simp] theorem State.latch_int_echo (s : State) (w : Word) : (s.latch w).int.echo = s.int.echo := rfl
@[simp] theorem State.latch_int_ocr (s : State) (w : Word) : (s.latch w).int.ocr = s.int.ocr := rfl
@[simp] theorem State.latch_int_crc (s : State) (w : Word) : (s.latch w).int.crc = s.int.crc := rfl
@[simp] theorem State.latch_int_phase (s : State) (w : Word) : (s.latch w).int.phase = .idle := rfl
@[simp] theorem State.latch_op (s : State) (w : Word) : (s.latch w).op = w := rfl
@[simp] theorem State.finish_params (s : State) (c : Cause) (v : Option Word) : (s.finish c v).params = s.params := rfl
@[simp] theorem State.finish_op (s : State) (c : Cause) (v : Option Word) : (s.finish c v).op = s.op := rfl
@[simp] theorem State.finish_arg (s : State) (c : Cause) (v : Option Word) : (s.finish c v).arg = s.arg := rfl
@[simp] theorem State.finish_t1 (s : State) (c : Cause) (v : Option Word) : (s.finish c v).t1 = s.t1 := rfl
@[simp] theorem State.finish_t2 (s : State) (c : Cause) (v : Option Word) : (s.finish c v).t2 = s.t2 := rfl
@[simp] theorem State.finish_crcchk (s : State) (c : Cause) (v : Option Word) : (s.finish c v).crcchk = s.crcchk := rfl
@[simp] theorem State.finish_data (s : State) (c : Cause) (v : Option Word) : (s.finish c v).data = s.data := rfl
@[simp] theorem State.finish_rstN (s : State) (c : Cause) (v : Option Word) : (s.finish c v).rstN = s.rstN := rfl
@[simp] theorem State.finish_env (s : State) (c : Cause) (v : Option Word) : (s.finish c v).env = s.env := rfl
@[simp] theorem State.finish_stat_busy (s : State) (c : Cause) (v : Option Word) : (s.finish c v).stat.busy = false := rfl
@[simp] theorem State.finish_stat_done (s : State) (c : Cause) (v : Option Word) : (s.finish c v).stat.done = true := rfl
@[simp] theorem State.finish_stat_fail (s : State) (c : Cause) (v : Option Word) : (s.finish c v).stat.fail = decide (c ≠ .none) := rfl
@[simp] theorem State.finish_stat_ovr (s : State) (c : Cause) (v : Option Word) : (s.finish c v).stat.ovr = s.stat.ovr := rfl
@[simp] theorem State.finish_stat_cause (s : State) (c : Cause) (v : Option Word) : (s.finish c v).stat.cause = c := rfl
@[simp] theorem State.finish_stat_ctype (s : State) (c : Cause) (v : Option Word) : (s.finish c v).stat.ctype = s.stat.ctype := rfl
@[simp] theorem State.finish_stat_pwr (s : State) (c : Cause) (v : Option Word) : (s.finish c v).stat.pwr = s.stat.pwr := rfl
@[simp] theorem State.finish_stat_cs (s : State) (c : Cause) (v : Option Word) : (s.finish c v).stat.cs = s.stat.cs := rfl
@[simp] theorem State.finish_stat_noinit (s : State) (c : Cause) (v : Option Word) : (s.finish c v).stat.noinit = s.stat.noinit := rfl
@[simp] theorem State.finish_stat_nodisk (s : State) (c : Cause) (v : Option Word) : (s.finish c v).stat.nodisk = s.stat.nodisk := rfl
@[simp] theorem State.finish_stat_wprot (s : State) (c : Cause) (v : Option Word) : (s.finish c v).stat.wprot = s.stat.wprot := rfl
@[simp] theorem State.finish_int_opl (s : State) (c : Cause) (v : Option Word) : (s.finish c v).int.opl = s.int.opl := rfl
@[simp] theorem State.finish_int_argl (s : State) (c : Cause) (v : Option Word) : (s.finish c v).int.argl = s.int.argl := rfl
@[simp] theorem State.finish_int_n (s : State) (c : Cause) (v : Option Word) : (s.finish c v).int.n = s.int.n := rfl
@[simp] theorem State.finish_int_r (s : State) (c : Cause) (v : Option Word) : (s.finish c v).int.r = s.int.r := rfl
@[simp] theorem State.finish_int_type (s : State) (c : Cause) (v : Option Word) : (s.finish c v).int.type = s.int.type := rfl
@[simp] theorem State.finish_int_ok (s : State) (c : Cause) (v : Option Word) : (s.finish c v).int.ok = s.int.ok := rfl
@[simp] theorem State.finish_int_echo (s : State) (c : Cause) (v : Option Word) : (s.finish c v).int.echo = s.int.echo := rfl
@[simp] theorem State.finish_int_ocr (s : State) (c : Cause) (v : Option Word) : (s.finish c v).int.ocr = s.int.ocr := rfl
@[simp] theorem State.finish_int_crc (s : State) (c : Cause) (v : Option Word) : (s.finish c v).int.crc = s.int.crc := rfl
@[simp] theorem State.finish_int_phase (s : State) (c : Cause) (v : Option Word) : (s.finish c v).int.phase = .idle := rfl
@[simp] theorem State.finish_rdata (s : State) (c : Cause) (v : Option Word) : (s.finish c v).rdata = v.getD s.rdata := rfl

/-! ### Exchanges -/

@[simp] theorem State.xchg_params (s : State) (b : Byte) : (s.xchg b).params = s.params := rfl
@[simp] theorem State.xchg_op (s : State) (b : Byte) : (s.xchg b).op = s.op := rfl
@[simp] theorem State.xchg_arg (s : State) (b : Byte) : (s.xchg b).arg = s.arg := rfl
@[simp] theorem State.xchg_rdata (s : State) (b : Byte) : (s.xchg b).rdata = s.rdata := rfl
@[simp] theorem State.xchg_stat (s : State) (b : Byte) : (s.xchg b).stat = s.stat := rfl
@[simp] theorem State.xchg_t1 (s : State) (b : Byte) : (s.xchg b).t1 = s.t1 := rfl
@[simp] theorem State.xchg_t2 (s : State) (b : Byte) : (s.xchg b).t2 = s.t2 := rfl
@[simp] theorem State.xchg_crcchk (s : State) (b : Byte) : (s.xchg b).crcchk = s.crcchk := rfl
@[simp] theorem State.xchg_data (s : State) (b : Byte) : (s.xchg b).data = s.data := rfl
@[simp] theorem State.xchg_int (s : State) (b : Byte) : (s.xchg b).int = s.int := rfl
@[simp] theorem State.xchg_rstN (s : State) (b : Byte) : (s.xchg b).rstN = s.rstN := rfl
@[simp] theorem State.xchg_env (s : State) (b : Byte) : (s.xchg b).env = { s.env.afterCard with bus := ⟨b, s.cardByte, s.stat.cs⟩ :: s.env.bus } := rfl
@[simp] theorem State.tx_params (s : State) (b : Byte) : (s.tx b).params = s.params := rfl
@[simp] theorem State.tx_op (s : State) (b : Byte) : (s.tx b).op = s.op := rfl
@[simp] theorem State.tx_arg (s : State) (b : Byte) : (s.tx b).arg = s.arg := rfl
@[simp] theorem State.tx_rdata (s : State) (b : Byte) : (s.tx b).rdata = s.rdata := rfl
@[simp] theorem State.tx_stat (s : State) (b : Byte) : (s.tx b).stat = s.stat := rfl
@[simp] theorem State.tx_t1 (s : State) (b : Byte) : (s.tx b).t1 = s.t1 := rfl
@[simp] theorem State.tx_t2 (s : State) (b : Byte) : (s.tx b).t2 = s.t2 := rfl
@[simp] theorem State.tx_crcchk (s : State) (b : Byte) : (s.tx b).crcchk = s.crcchk := rfl
@[simp] theorem State.tx_data (s : State) (b : Byte) : (s.tx b).data = s.data := rfl
@[simp] theorem State.tx_int (s : State) (b : Byte) : (s.tx b).int = s.int := rfl
@[simp] theorem State.tx_rstN (s : State) (b : Byte) : (s.tx b).rstN = s.rstN := rfl
@[simp] theorem State.tx_env (s : State) (b : Byte) : (s.tx b).env = { s.env.afterCard with bus := ⟨b, s.cardByte, s.stat.cs⟩ :: s.env.bus } := rfl
@[simp] theorem State.exchange_params (s : State) (b : Byte) : (s.exchange b).params = s.params := rfl
@[simp] theorem State.exchange_op (s : State) (b : Byte) : (s.exchange b).op = s.op := rfl
@[simp] theorem State.exchange_arg (s : State) (b : Byte) : (s.exchange b).arg = s.arg := rfl
@[simp] theorem State.exchange_rdata (s : State) (b : Byte) : (s.exchange b).rdata = s.rdata := rfl
@[simp] theorem State.exchange_stat (s : State) (b : Byte) : (s.exchange b).stat = s.stat := rfl
@[simp] theorem State.exchange_t1 (s : State) (b : Byte) : (s.exchange b).t1 = s.t1 := rfl
@[simp] theorem State.exchange_t2 (s : State) (b : Byte) : (s.exchange b).t2 = s.t2 := rfl
@[simp] theorem State.exchange_crcchk (s : State) (b : Byte) : (s.exchange b).crcchk = s.crcchk := rfl
@[simp] theorem State.exchange_data (s : State) (b : Byte) : (s.exchange b).data = s.data := rfl
@[simp] theorem State.exchange_rstN (s : State) (b : Byte) : (s.exchange b).rstN = s.rstN := rfl
@[simp] theorem State.exchange_int_opl (s : State) (b : Byte) : (s.exchange b).int.opl = s.int.opl := rfl
@[simp] theorem State.exchange_int_argl (s : State) (b : Byte) : (s.exchange b).int.argl = s.int.argl := rfl
@[simp] theorem State.exchange_int_n (s : State) (b : Byte) : (s.exchange b).int.n = s.int.n := rfl
@[simp] theorem State.exchange_int_r (s : State) (b : Byte) : (s.exchange b).int.r = s.cardByte := rfl
@[simp] theorem State.exchange_int_type (s : State) (b : Byte) : (s.exchange b).int.type = s.int.type := rfl
@[simp] theorem State.exchange_int_ok (s : State) (b : Byte) : (s.exchange b).int.ok = s.int.ok := rfl
@[simp] theorem State.exchange_int_echo (s : State) (b : Byte) : (s.exchange b).int.echo = s.int.echo := rfl
@[simp] theorem State.exchange_int_ocr (s : State) (b : Byte) : (s.exchange b).int.ocr = s.int.ocr := rfl
@[simp] theorem State.exchange_int_crc (s : State) (b : Byte) : (s.exchange b).int.crc = s.int.crc := rfl
@[simp] theorem State.exchange_int_phase (s : State) (b : Byte) : (s.exchange b).int.phase = s.int.phase := rfl
@[simp] theorem State.exchange_env (s : State) (b : Byte) : (s.exchange b).env = { s.env.afterCard with bus := ⟨b, s.cardByte, s.stat.cs⟩ :: s.env.bus } := rfl
@[simp] theorem State.rx_params (s : State) : (s.rx).params = s.params := rfl
@[simp] theorem State.rx_op (s : State) : (s.rx).op = s.op := rfl
@[simp] theorem State.rx_arg (s : State) : (s.rx).arg = s.arg := rfl
@[simp] theorem State.rx_rdata (s : State) : (s.rx).rdata = s.rdata := rfl
@[simp] theorem State.rx_stat (s : State) : (s.rx).stat = s.stat := rfl
@[simp] theorem State.rx_t1 (s : State) : (s.rx).t1 = s.t1 := rfl
@[simp] theorem State.rx_t2 (s : State) : (s.rx).t2 = s.t2 := rfl
@[simp] theorem State.rx_crcchk (s : State) : (s.rx).crcchk = s.crcchk := rfl
@[simp] theorem State.rx_data (s : State) : (s.rx).data = s.data := rfl
@[simp] theorem State.rx_rstN (s : State) : (s.rx).rstN = s.rstN := rfl
@[simp] theorem State.rx_int_opl (s : State) : (s.rx).int.opl = s.int.opl := rfl
@[simp] theorem State.rx_int_argl (s : State) : (s.rx).int.argl = s.int.argl := rfl
@[simp] theorem State.rx_int_n (s : State) : (s.rx).int.n = s.int.n := rfl
@[simp] theorem State.rx_int_r (s : State) : (s.rx).int.r = s.cardByte := rfl
@[simp] theorem State.rx_int_type (s : State) : (s.rx).int.type = s.int.type := rfl
@[simp] theorem State.rx_int_ok (s : State) : (s.rx).int.ok = s.int.ok := rfl
@[simp] theorem State.rx_int_echo (s : State) : (s.rx).int.echo = s.int.echo := rfl
@[simp] theorem State.rx_int_ocr (s : State) : (s.rx).int.ocr = s.int.ocr := rfl
@[simp] theorem State.rx_int_crc (s : State) : (s.rx).int.crc = s.int.crc := rfl
@[simp] theorem State.rx_int_phase (s : State) : (s.rx).int.phase = s.int.phase := rfl
@[simp] theorem State.rx_env (s : State) : (s.rx).env = { s.env.afterCard with bus := ⟨0xFF, s.cardByte, s.stat.cs⟩ :: s.env.bus } := rfl

/-! ### DATA -/

@[simp] theorem State.setData_params (s : State) (i : Nat) (b : Byte) : (s.setData i b).params = s.params := by unfold State.setData; split <;> rfl
@[simp] theorem State.setData_op (s : State) (i : Nat) (b : Byte) : (s.setData i b).op = s.op := by unfold State.setData; split <;> rfl
@[simp] theorem State.setData_arg (s : State) (i : Nat) (b : Byte) : (s.setData i b).arg = s.arg := by unfold State.setData; split <;> rfl
@[simp] theorem State.setData_rdata (s : State) (i : Nat) (b : Byte) : (s.setData i b).rdata = s.rdata := by unfold State.setData; split <;> rfl
@[simp] theorem State.setData_stat (s : State) (i : Nat) (b : Byte) : (s.setData i b).stat = s.stat := by unfold State.setData; split <;> rfl
@[simp] theorem State.setData_t1 (s : State) (i : Nat) (b : Byte) : (s.setData i b).t1 = s.t1 := by unfold State.setData; split <;> rfl
@[simp] theorem State.setData_t2 (s : State) (i : Nat) (b : Byte) : (s.setData i b).t2 = s.t2 := by unfold State.setData; split <;> rfl
@[simp] theorem State.setData_crcchk (s : State) (i : Nat) (b : Byte) : (s.setData i b).crcchk = s.crcchk := by unfold State.setData; split <;> rfl
@[simp] theorem State.setData_int (s : State) (i : Nat) (b : Byte) : (s.setData i b).int = s.int := by unfold State.setData; split <;> rfl
@[simp] theorem State.setData_rstN (s : State) (i : Nat) (b : Byte) : (s.setData i b).rstN = s.rstN := by unfold State.setData; split <;> rfl
@[simp] theorem State.setData_env (s : State) (i : Nat) (b : Byte) : (s.setData i b).env = s.env := by unfold State.setData; split <;> rfl
@[simp] theorem State.runCrc_params (s : State) (b : Byte) : (s.runCrc b).params = s.params := by unfold State.runCrc; split <;> rfl
@[simp] theorem State.runCrc_op (s : State) (b : Byte) : (s.runCrc b).op = s.op := by unfold State.runCrc; split <;> rfl
@[simp] theorem State.runCrc_arg (s : State) (b : Byte) : (s.runCrc b).arg = s.arg := by unfold State.runCrc; split <;> rfl
@[simp] theorem State.runCrc_rdata (s : State) (b : Byte) : (s.runCrc b).rdata = s.rdata := by unfold State.runCrc; split <;> rfl
@[simp] theorem State.runCrc_stat (s : State) (b : Byte) : (s.runCrc b).stat = s.stat := by unfold State.runCrc; split <;> rfl
@[simp] theorem State.runCrc_t1 (s : State) (b : Byte) : (s.runCrc b).t1 = s.t1 := by unfold State.runCrc; split <;> rfl
@[simp] theorem State.runCrc_t2 (s : State) (b : Byte) : (s.runCrc b).t2 = s.t2 := by unfold State.runCrc; split <;> rfl
@[simp] theorem State.runCrc_crcchk (s : State) (b : Byte) : (s.runCrc b).crcchk = s.crcchk := by unfold State.runCrc; split <;> rfl
@[simp] theorem State.runCrc_data (s : State) (b : Byte) : (s.runCrc b).data = s.data := by unfold State.runCrc; split <;> rfl
@[simp] theorem State.runCrc_rstN (s : State) (b : Byte) : (s.runCrc b).rstN = s.rstN := by unfold State.runCrc; split <;> rfl
@[simp] theorem State.runCrc_env (s : State) (b : Byte) : (s.runCrc b).env = s.env := by unfold State.runCrc; split <;> rfl
@[simp] theorem State.runCrc_int_opl (s : State) (b : Byte) : (s.runCrc b).int.opl = s.int.opl := by unfold State.runCrc; split <;> rfl
@[simp] theorem State.runCrc_int_argl (s : State) (b : Byte) : (s.runCrc b).int.argl = s.int.argl := by unfold State.runCrc; split <;> rfl
@[simp] theorem State.runCrc_int_n (s : State) (b : Byte) : (s.runCrc b).int.n = s.int.n := by unfold State.runCrc; split <;> rfl
@[simp] theorem State.runCrc_int_r (s : State) (b : Byte) : (s.runCrc b).int.r = s.int.r := by unfold State.runCrc; split <;> rfl
@[simp] theorem State.runCrc_int_type (s : State) (b : Byte) : (s.runCrc b).int.type = s.int.type := by unfold State.runCrc; split <;> rfl
@[simp] theorem State.runCrc_int_ok (s : State) (b : Byte) : (s.runCrc b).int.ok = s.int.ok := by unfold State.runCrc; split <;> rfl
@[simp] theorem State.runCrc_int_echo (s : State) (b : Byte) : (s.runCrc b).int.echo = s.int.echo := by unfold State.runCrc; split <;> rfl
@[simp] theorem State.runCrc_int_ocr (s : State) (b : Byte) : (s.runCrc b).int.ocr = s.int.ocr := by unfold State.runCrc; split <;> rfl
@[simp] theorem State.runCrc_int_phase (s : State) (b : Byte) : (s.runCrc b).int.phase = s.int.phase := by unfold State.runCrc; split <;> rfl

/-! ### The world outside -/

@[simp] theorem State.takeEvent_params (s : State) : (s.takeEvent).params = s.params := rfl
@[simp] theorem State.takeEvent_op (s : State) : (s.takeEvent).op = s.op := rfl
@[simp] theorem State.takeEvent_arg (s : State) : (s.takeEvent).arg = s.arg := rfl
@[simp] theorem State.takeEvent_rdata (s : State) : (s.takeEvent).rdata = s.rdata := rfl
@[simp] theorem State.takeEvent_stat (s : State) : (s.takeEvent).stat = s.stat := rfl
@[simp] theorem State.takeEvent_t1 (s : State) : (s.takeEvent).t1 = s.t1 := rfl
@[simp] theorem State.takeEvent_t2 (s : State) : (s.takeEvent).t2 = s.t2 := rfl
@[simp] theorem State.takeEvent_crcchk (s : State) : (s.takeEvent).crcchk = s.crcchk := rfl
@[simp] theorem State.takeEvent_data (s : State) : (s.takeEvent).data = s.data := rfl
@[simp] theorem State.takeEvent_int (s : State) : (s.takeEvent).int = s.int := rfl
@[simp] theorem State.takeEvent_rstN (s : State) : (s.takeEvent).rstN = s.rstN := rfl
@[simp] theorem State.takeEvent_env (s : State) : (s.takeEvent).env = s.env.afterEvent := rfl
@[simp] theorem State.resetEvent_params (s : State) : (s.resetEvent).params = s.params := rfl
@[simp] theorem State.resetEvent_stat (s : State) : (s.resetEvent).stat = Stat.reset := rfl
@[simp] theorem State.resetEvent_int (s : State) : (s.resetEvent).int = Internal.reset := rfl
@[simp] theorem State.resetEvent_env (s : State) : (s.resetEvent).env = { s.env with resets := s.env.resets + 1 } := rfl
@[simp] theorem State.resetEvent_op (s : State) : (s.resetEvent).op = 0 := rfl
@[simp] theorem State.resetEvent_arg (s : State) : (s.resetEvent).arg = 0 := rfl
@[simp] theorem State.resetEvent_rdata (s : State) : (s.resetEvent).rdata = 0 := rfl
@[simp] theorem State.resetEvent_t1 (s : State) : (s.resetEvent).t1 = 0 := rfl
@[simp] theorem State.resetEvent_t2 (s : State) : (s.resetEvent).t2 = 0 := rfl
@[simp] theorem State.resetEvent_crcchk (s : State) : (s.resetEvent).crcchk = false := rfl
@[simp] theorem State.resetEvent_data (s : State) : (s.resetEvent).data = [] := rfl
@[simp] theorem State.resetEvent_rstN (s : State) : (s.resetEvent).rstN = false := rfl

/-- The parameters are no step's to change. -/
@[simp] theorem State.armed_def (s : State) (k : Nat) : s.armed k = k % 2 ^ s.params.tickW := rfl

end Sys2Proof.Machine
end

