-- ==== Sys2Proof/Laws/Ops.lean ====
section
/-! SUPPORT. One lemma per shared operation: the DATA buffer, the card's bytes, the engine's position, runs of an op, and what
each step of the three shared sequences can do. -/

namespace Sys2Proof.Machine

/-! ### DATA -/

/-- A read after a write gives the byte written; every other index reads as before. -/
theorem Memory.lookup_store (m : Memory) (i j : Nat) (b : Byte) :
    Memory.lookup (Memory.store m i b) j = if j = i then some b else Memory.lookup m j := by
  induction m with
  | nil => simp [Memory.store, Memory.lookup, eq_comm]
  | cons c m ih =>
    obtain ⟨k, d⟩ := c
    simp only [Memory.store]
    split
    · simp only [Memory.lookup, eq_comm]
    · split
      · subst_vars
        simp only [Memory.lookup]
        split <;> simp_all [eq_comm]
      · simp only [Memory.lookup, ih]
        split <;> split <;> first | rfl | omega

/-- A write inside DATA keeps the canonical form. -/
theorem Memory.wfFrom_store {m : Memory} {lo i : Nat} (b : Byte) (h : Memory.wfFrom lo m = true) (hlo : lo ≤ i)
    (hi : i < blockLen) : Memory.wfFrom lo (Memory.store m i b) = true := by
  induction m generalizing lo with
  | nil => simp [Memory.store, Memory.wfFrom, hlo, hi]
  | cons c m ih =>
    obtain ⟨k, d⟩ := c
    simp only [Memory.wfFrom, Bool.and_eq_true, decide_eq_true_eq] at h
    obtain ⟨⟨h1, h2⟩, h3⟩ := h
    simp only [Memory.store]
    split
    · simp only [Memory.wfFrom, Bool.and_eq_true, decide_eq_true_eq]
      exact ⟨⟨hlo, hi⟩, ⟨by omega, h2⟩, h3⟩
    · split
      · subst_vars
        simp only [Memory.wfFrom, Bool.and_eq_true, decide_eq_true_eq]
        exact ⟨⟨hlo, hi⟩, h3⟩
      · simp only [Memory.wfFrom, Bool.and_eq_true, decide_eq_true_eq]
        exact ⟨⟨h1, h2⟩, ih h3 (by omega)⟩

/-- `DATA[i] <- b` keeps the canonical form, at every index. -/
theorem State.setData_wf {s : State} (i : Nat) (b : Byte) (h : Memory.wf s.data = true) :
    Memory.wf (s.setData i b).data = true := by
  unfold State.setData
  split
  · exact Memory.wfFrom_store b h (Nat.zero_le _) ‹_›
  · exact h

/-- The reset state's DATA is in canonical form. -/
theorem State.reset_data_wf : Memory.wf State.reset.data = true := rfl

/-- DATA[j] depends on the cells and on the number of resets only. -/
theorem State.dataByte_congr {s t : State} (hd : t.data = s.data) (hr : t.env.resets = s.env.resets) (j : Nat) :
    t.dataByte j = s.dataByte j := by
  unfold State.dataByte; rw [hd, hr]

/-- DATA after `DATA[i] <- b`. -/
theorem State.dataByte_setData (s : State) (i j : Nat) (b : Byte) :
    (s.setData i b).dataByte j = if j = i ∧ i < blockLen then b else s.dataByte j := by
  unfold State.setData State.dataByte
  by_cases hi : i < blockLen
  · simp only [hi, if_true, Memory.lookup_store, and_true]
    split <;> rfl
  · simp [hi]

/-! ### The card's bytes -/

@[simp] theorem Env.afterCard_script (e : Env) : e.afterCard.script = e.script := by unfold Env.afterCard; split <;> rfl
@[simp] theorem Env.afterCard_program (e : Env) : e.afterCard.program = e.program := by unfold Env.afterCard; split <;> rfl
@[simp] theorem Env.afterCard_bus (e : Env) : e.afterCard.bus = e.bus := by unfold Env.afterCard; split <;> rfl
@[simp] theorem Env.afterCard_readValue (e : Env) : e.afterCard.readValue = e.readValue := by
  unfold Env.afterCard; split <;> rfl
@[simp] theorem Env.afterCard_eventDraws (e : Env) : e.afterCard.eventDraws = e.eventDraws := by
  unfold Env.afterCard; split <;> rfl
@[simp] theorem Env.afterCard_readDraws (e : Env) : e.afterCard.readDraws = e.readDraws := by
  unfold Env.afterCard; split <;> rfl
@[simp] theorem Env.afterCard_resets (e : Env) : e.afterCard.resets = e.resets := by unfold Env.afterCard; split <;> rfl

/-- The bus record does not decide what the card sends. -/
@[simp] theorem Env.cardByte_bus (e : Env) (x : List Exchange) : ({ e with bus := x } : Env).cardByte = e.cardByte := rfl

/-- The bus record does not decide what is left after a byte. -/
theorem Env.afterCard_setBus (e : Env) (x : List Exchange) :
    ({ e with bus := x } : Env).afterCard = { e.afterCard with bus := x } := by
  unfold Env.afterCard; rcases e.card with _ | ⟨b, bs⟩ <;> rfl

/-- The bus record does not decide what the card sends next. -/
theorem Env.sends_setBus (e : Env) (x : List Exchange) (bs : List Byte) :
    ({ e with bus := x } : Env).sends bs ↔ e.sends bs := by
  induction bs generalizing e x with
  | nil => rfl
  | cons b bs ih => simp only [Env.sends, Env.cardByte_bus, Env.afterCard_setBus, ih]

/-- What the card sends, in two parts. -/
theorem Env.sends_append (e : Env) (as bs : List Byte) :
    e.sends (as ++ bs) ↔ e.sends as ∧ (e.afterCards as.length).sends bs := by
  induction as generalizing e with
  | nil => simp [Env.sends, Env.afterCards]
  | cons a as ih => simp only [List.cons_append, Env.sends, ih, List.length_cons, Env.afterCards, and_assoc]

/-- The card sends its next bytes in two parts. -/
theorem Env.afterCards_add (e : Env) (j k : Nat) : e.afterCards (j + k) = (e.afterCards j).afterCards k := by
  induction j generalizing e with
  | zero => simp [Env.afterCards]
  | succ j ih => rw [Nat.succ_add]; exact ih e.afterCard

/-- A card whose next bytes are listed sends them. -/
theorem Env.sends_of_card {e : Env} (bs rest : List Byte) (h : e.card = bs ++ rest) : e.sends bs := by
  induction bs generalizing e with
  | nil => trivial
  | cons b bs ih =>
    refine ⟨by simp [Env.cardByte, h], ih ?_⟩
    simp [Env.afterCard, h]

/-- The bus record stays apart from the card's bytes. -/
theorem Env.afterCards_setBus (e : Env) (k : Nat) (x : List Exchange) :
    ({ e with bus := x } : Env).afterCards k = { e.afterCards k with bus := x } := by
  induction k generalizing e with
  | zero => rfl
  | succ k ih => rw [Env.afterCards, Env.afterCards, Env.afterCard_setBus, ih]

/-- Sending bytes leaves the bus record. -/
@[simp] theorem Env.afterCards_bus (e : Env) (k : Nat) : (e.afterCards k).bus = e.bus := by
  induction k generalizing e with
  | zero => rfl
  | succ k ih => rw [Env.afterCards, ih, Env.afterCard_bus]

/-- Sending bytes makes no reset. -/
@[simp] theorem Env.afterCards_resets (e : Env) (k : Nat) : (e.afterCards k).resets = e.resets := by
  induction k generalizing e with
  | zero => rfl
  | succ k ih => rw [Env.afterCards, ih, Env.afterCard_resets]

/-- Traffic in two parts, the later one first in the record. -/
theorem traffic_append (cs : Bool) {o i o' i' : List Byte} (h : o.length = i.length) :
    traffic cs (o ++ o') (i ++ i') = traffic cs o' i' ++ traffic cs o i := by
  unfold traffic; rw [List.zipWith_append h, List.reverse_append]

/-! ### The engine's position -/

/-- The position of the op that runs. -/
theorem State.posOf_eq {s : State} {i : Instr} {p : Pos} (h : s.standsAt i p) : s.posOf i = some p := by
  unfold State.posOf; rw [h]; simp

/-- An op that does not run has no position. -/
theorem State.posOf_eq_none {s : State} {i : Instr} (h : ∀ p, ¬ s.standsAt i p) : s.posOf i = none := by
  unfold State.posOf
  split
  · rfl
  · next j p hp =>
    split
    · next hj => subst hj; exact absurd hp (h p)
    · rfl

/-- If an op has a position, the engine stands there. -/
theorem State.standsAt_of_posOf {s : State} {i : Instr} {p : Pos} (h : s.posOf i = some p) : s.standsAt i p := by
  unfold State.posOf at h
  split at h
  · cases h
  · split at h
    · next j q hq hj => cases h; subst hj; exact hq
    · cases h

/-- Going twice is going to the last position. -/
@[simp] theorem State.goto_goto (s : State) (i j : Instr) (p q : Pos) : (s.goto i p).goto j q = s.goto j q := rfl

/-- Going where the engine stands changes nothing. -/
theorem State.goto_self {s : State} {i : Instr} {p : Pos} (h : s.standsAt i p) : s.goto i p = s := by
  unfold State.goto; rw [← h]

/-- In a state where op `i` has no position, `exec i` is its start (60_exceptions.md R280). -/
theorem exec_begin {i : Instr} {s : State} (h : s.posOf i = none) : exec i s = .next (s.begin i) := by
  cases i <;>
    simp [exec, execPwron, execPwroff, execPwrchk, execWaitrdy, execCsel, execCdesel, execCmd, execTxb, execRxb, execRdblk,
      execWrblk, execInit, execSaddr, execMedia, h]

/-- No op has a position while the engine is idle. -/
theorem State.posOf_idle {i : Instr} {s : State} (h : s.int.phase = .idle) : s.posOf i = none := by
  simp [State.posOf, h]

/-! ### Runs of an op -/

/-- `j + k` engine steps are `j` and then `k`. -/
theorem execN_add {i : Instr} {j : Nat} {s t : State} (h : execN i j s = .next t) (k : Nat) :
    execN i (j + k) s = execN i k t := by
  induction j generalizing s with
  | zero => cases h; simp
  | succ j ih =>
    rw [Nat.succ_add]
    simp only [execN] at h ⊢
    split at h
    · exact ih h
    · cases h
    · cases h

/-- One engine step and then `k`. -/
theorem execN_succ {i : Instr} {s t : State} (h : exec i s = .next t) (k : Nat) : execN i (k + 1) s = execN i k t := by
  simp [execN, h]

/-! ### The shared sequences -/

/-- What a step of the readiness wait can do (R130). -/
theorem waitStep_cases (p : WaitPos) (s : State) :
    (p = .arm ∧ waitStep p s = (.more .read, s.armT2 s.params.readyTicks)) ∨
    (p = .read ∧ waitStep p s = (.more .test, s.rx)) ∨
    (p = .test ∧ s.int.r ≠ 0xFF ∧ s.t2 ≠ 0 ∧ waitStep p s = (.more .read, s)) ∨
    (p = .test ∧ (s.int.r = 0xFF ∨ s.t2 = 0) ∧ waitStep p s = (.done s.int.r, s)) := by
  cases p with
  | arm => exact .inl ⟨rfl, rfl⟩
  | read => exact .inr (.inl ⟨rfl, rfl⟩)
  | test =>
    by_cases h : s.int.r = 0xFF ∨ s.t2 = 0
    · exact .inr (.inr (.inr ⟨rfl, h, if_pos h⟩))
    · exact .inr (.inr (.inl ⟨rfl, (not_or.mp h).1, (not_or.mp h).2, if_neg h⟩))

/-- What a step of the power-on sequence can do (R132). -/
theorem powerStep_cases (p : PowerPos) (s : State) :
    (p = .deselect ∧ powerStep p s = (.more (afterIdle s 0), s.setCs false)) ∨
    (∃ k, p = .idle k ∧ powerStep p s = (.more (afterIdle s k), s.tx 0xFF)) ∨
    (p = .select ∧ powerStep p s = (.more (.frame 0), s.setCs true)) ∨
    (∃ k, p = .frame k ∧ powerStep p s = (.more (if k = 5 then .tries else .frame (k + 1)), s.tx (frameByte 0 0 k))) ∨
    (p = .tries ∧ powerStep p s = (.more .poll, s.setN s.params.pollReads)) ∨
    (p = .poll ∧ powerStep p s = (.more .count, s.rx)) ∨
    (p = .count ∧ (s.int.r = 0x01 ∨ s.int.n - 1 = 0) ∧ powerStep p s = (.more .release, s.setN (s.int.n - 1))) ∨
    (p = .count ∧ s.int.r ≠ 0x01 ∧ s.int.n - 1 ≠ 0 ∧ powerStep p s = (.more .poll, s.setN (s.int.n - 1))) ∨
    (p = .release ∧ powerStep p s = (.more .setPower, s.setCs false)) ∨
    (p = .setPower ∧ powerStep p s = (.done s.int.r, s.setPwr true)) := by
  cases p with
  | count => by_cases hr : s.int.r = 0x01 <;> by_cases hn : s.int.n - 1 = 0 <;>
      simp [powerStep, afterPowerCount, hr, hn, em]
  | _ => simp [powerStep, idleByte]

/-- What a step of `sendCmd` can do (R139): a step of its readiness gate, the gate's verdict, a frame byte, the stuffing byte,
the tries, a poll read, the count with its branch. -/
theorem sendStep_cases (idx : BitVec 6) (arg : Word) (p : SendPos) (s : State) :
    (∃ q q' t, p = .wait q ∧ waitStep q s = (.more q', t) ∧ sendStep idx arg p s = (.more (.wait q'), t)) ∨
    (∃ q t, p = .wait q ∧ waitStep q s = (.done 0xFF, t) ∧ sendStep idx arg p s = (.more (.frame 0), t)) ∨
    (∃ q w t, p = .wait q ∧ waitStep q s = (.done w, t) ∧ w ≠ 0xFF ∧
      sendStep idx arg p s = (.done (0xFF, .notReady), t)) ∨
    (∃ k, p = .frame k ∧ sendStep idx arg p s = (.more (afterFrame idx k), s.tx (frameByte idx arg k))) ∨
    (p = .stuff ∧ sendStep idx arg p s = (.more .tries, s.rx)) ∨
    (p = .tries ∧ sendStep idx arg p s = (.more .poll, s.setN s.params.r1Tries)) ∨
    (p = .poll ∧ sendStep idx arg p s = (.more .count, s.rx)) ∨
    (p = .count ∧ s.int.r.msb = false ∧ sendStep idx arg p s = (.done (s.int.r, .none), s.setN (s.int.n - 1))) ∨
    (p = .count ∧ s.int.r.msb = true ∧ s.int.n - 1 = 0 ∧
      sendStep idx arg p s = (.done (s.int.r, .noResp), s.setN (s.int.n - 1))) ∨
    (p = .count ∧ s.int.r.msb = true ∧ s.int.n - 1 ≠ 0 ∧ sendStep idx arg p s = (.more .poll, s.setN (s.int.n - 1))) := by
  cases p with
  | wait q =>
    rcases h : waitStep q s with ⟨q' | w, t⟩
    · simp [sendStep, h]
    · by_cases hw : w = 0xFF
      · subst hw; simp [sendStep, h, idleByte]
      · have e : sendStep idx arg (.wait q) s = (.done (0xFF, .notReady), t) := by
          simp only [sendStep, h, idleByte, if_neg hw]
        exact .inr (.inr (.inl ⟨q, w, t, rfl, h, hw, e⟩))
  | count =>
    cases h : s.int.r.msb <;> by_cases hn : s.int.n - 1 = 0 <;> simp [sendStep, afterSendCount, h, hn]
  | _ => simp [sendStep]

/-! ### What the shared sequences leave alone -/

/-- What the world outside is after at most one exchange (20_memory.md R63, R76). -/
abbrev State.envStep (s : State) (e : Env) : Prop :=
  e = s.env ∨ ∃ b, e = { s.env.afterCard with bus := ⟨b, s.cardByte, s.stat.cs⟩ :: s.env.bus }

/-- A step of the readiness wait changes T2 (to READY_TICKS only), int.R and the byte stream. -/
theorem waitStep_frame (p : WaitPos) (s : State) :
    ∃ k r e, (waitStep p s).2 = { s with t2 := k, int := { s.int with r := r }, env := e } ∧
      (k = s.t2 ∨ k = s.armed s.params.readyTicks) ∧ s.envStep e := by
  cases p with
  | arm => exact ⟨s.armed s.params.readyTicks, s.int.r, s.env, rfl, .inr rfl, .inl rfl⟩
  | read => exact ⟨s.t2, s.cardByte, _, rfl, .inl rfl, .inr ⟨0xFF, rfl⟩⟩
  | test =>
    refine ⟨s.t2, s.int.r, s.env, ?_, .inl rfl, .inl rfl⟩
    simp only [waitStep]
    split <;> rfl

/-- A step of the power-on sequence changes PWR, CS, int.N, int.R and the byte stream. -/
theorem powerStep_frame (p : PowerPos) (s : State) :
    ∃ f g n r e, (powerStep p s).2 =
      { s with stat := { s.stat with pwr := f, cs := g }, int := { s.int with n := n, r := r }, env := e } ∧
      s.envStep e := by
  rcases powerStep_cases p s with ⟨_, h⟩ | ⟨k, _, h⟩ | ⟨_, h⟩ | ⟨k, _, h⟩ | ⟨_, h⟩ | ⟨_, h⟩ | ⟨_, _, h⟩ | ⟨_, _, _, h⟩ |
    ⟨_, h⟩ | ⟨_, h⟩ <;> rw [h]
  · exact ⟨s.stat.pwr, false, s.int.n, s.int.r, s.env, rfl, .inl rfl⟩
  · exact ⟨s.stat.pwr, s.stat.cs, s.int.n, s.int.r, _, rfl, .inr ⟨0xFF, rfl⟩⟩
  · exact ⟨s.stat.pwr, true, s.int.n, s.int.r, s.env, rfl, .inl rfl⟩
  · exact ⟨s.stat.pwr, s.stat.cs, s.int.n, s.int.r, _, rfl, .inr ⟨_, rfl⟩⟩
  · exact ⟨s.stat.pwr, s.stat.cs, _, s.int.r, s.env, rfl, .inl rfl⟩
  · exact ⟨s.stat.pwr, s.stat.cs, s.int.n, _, _, rfl, .inr ⟨0xFF, rfl⟩⟩
  · exact ⟨s.stat.pwr, s.stat.cs, _, s.int.r, s.env, rfl, .inl rfl⟩
  · exact ⟨s.stat.pwr, s.stat.cs, _, s.int.r, s.env, rfl, .inl rfl⟩
  · exact ⟨s.stat.pwr, false, s.int.n, s.int.r, s.env, rfl, .inl rfl⟩
  · exact ⟨true, s.stat.cs, s.int.n, s.int.r, s.env, rfl, .inl rfl⟩

/-- A step of `sendCmd` changes T2 (to READY_TICKS only), int.N, int.R and the byte stream. -/
theorem sendStep_frame (idx : BitVec 6) (arg : Word) (p : SendPos) (s : State) :
    ∃ k n r e, (sendStep idx arg p s).2 = { s with t2 := k, int := { s.int with n := n, r := r }, env := e } ∧
      (k = s.t2 ∨ k = s.armed s.params.readyTicks) ∧ s.envStep e := by
  rcases sendStep_cases idx arg p s with ⟨q, q', t, _, hw, h⟩ | ⟨q, t, _, hw, h⟩ | ⟨q, w, t, _, hw, _, h⟩ | ⟨k, _, h⟩ |
    ⟨_, h⟩ | ⟨_, h⟩ | ⟨_, h⟩ | ⟨_, _, h⟩ | ⟨_, _, _, h⟩ | ⟨_, _, _, h⟩ <;> rw [h]
  iterate 3
    · obtain ⟨k, r, e, h1, h2, h3⟩ := waitStep_frame q s
      rw [hw] at h1
      exact ⟨k, s.int.n, r, e, h1, h2, h3⟩
  · exact ⟨s.t2, s.int.n, s.int.r, _, rfl, .inl rfl, .inr ⟨_, rfl⟩⟩
  · exact ⟨s.t2, s.int.n, _, _, rfl, .inl rfl, .inr ⟨0xFF, rfl⟩⟩
  · exact ⟨s.t2, _, s.int.r, s.env, rfl, .inl rfl, .inl rfl⟩
  · exact ⟨s.t2, s.int.n, _, _, rfl, .inl rfl, .inr ⟨0xFF, rfl⟩⟩
  all_goals exact ⟨s.t2, _, s.int.r, s.env, rfl, .inl rfl, .inl rfl⟩

end Sys2Proof.Machine
end

