-- ==== Sys2Proof/Laws/PerInstr.lean ====
section
/-! SUPPORT. A statement made per op: the word of a well-formed op is one its own row of the opcode table selects
(30_encoding.md R95). -/

namespace Sys2Proof.Laws.TableRow

/-- The op's row of the table of R95 selects its word. -/
def Statement (i : Instr) : Prop :=
  WellFormed i = true → ∃ r ∈ opTable, r.mnemonic = i.mnemonic ∧ r.selects (encode i)

theorem pwron : Statement .pwron := fun _ => ⟨⟨"PWRON", 0x01, 0xFFFFFFFF, .any⟩, by decide, rfl, by decide, trivial⟩

theorem pwroff : Statement .pwroff := fun _ => ⟨⟨"PWROFF", 0x02, 0xFFFFFFFF, .any⟩, by decide, rfl, by decide, trivial⟩

theorem pwrchk : Statement .pwrchk := fun _ => ⟨⟨"PWRCHK", 0x03, 0xFFFFFFFF, .any⟩, by decide, rfl, by decide, trivial⟩

theorem waitrdy : Statement .waitrdy := fun _ => ⟨⟨"WAITRDY", 0x04, 0xFFFFFFFF, .any⟩, by decide, rfl, by decide, trivial⟩

theorem csel : Statement .csel := fun _ => ⟨⟨"CSEL", 0x05, 0xFFFFFFFF, .any⟩, by decide, rfl, by decide, trivial⟩

theorem cdesel : Statement .cdesel := fun _ => ⟨⟨"CDESEL", 0x06, 0xFFFFFFFF, .any⟩, by decide, rfl, by decide, trivial⟩

theorem cmd (idx : BitVec 6) : Statement (.cmd idx) := fun _ =>
  ⟨⟨"CMD", 0x07, 0xFFFFC0FF, .any⟩, by decide, rfl, by revert idx; decide, trivial⟩

theorem txb : Statement .txb := fun _ => ⟨⟨"TXB", 0x08, 0xFFFFFFFF, .any⟩, by decide, rfl, by decide, trivial⟩

/-- The word of a format L op holds the opcode and LEN (R93). -/
theorem lenWord_fields (opc : BitVec 8) {len : Nat} (h : len < 1024) :
    ((opc.setWidth 32 ||| (BitVec.ofNat 32 len <<< 16)) &&& 0xFC00FFFF = opc.setWidth 32) ∧
      lenField (opc.setWidth 32 ||| (BitVec.ofNat 32 len <<< 16)) = len := by
  have hlen : ∀ k, 10 ≤ k → len.testBit k = false := fun k hk =>
    Nat.testBit_lt_two_pow (Nat.lt_of_lt_of_le h (Nat.pow_le_pow_right (n := 2) (by decide) hk : 2 ^ 10 ≤ 2 ^ k))
  constructor
  · apply BitVec.eq_of_getLsbD_eq
    intro k hk
    have hm : ∀ k : Fin 32, (0xFC00FFFF : Word).getLsbD k = (decide (k.val < 16) || decide (26 ≤ k.val)) := by decide
    have := hm ⟨k, hk⟩
    simp only at this
    simp only [BitVec.getLsbD_and, BitVec.getLsbD_or, BitVec.getLsbD_setWidth, BitVec.getLsbD_shiftLeft,
      BitVec.getLsbD_ofNat, this]
    by_cases h16 : k < 16
    · simp [h16, hk]
    · have h8 : opc.getLsbD k = false := BitVec.getLsbD_of_ge _ _ (by omega)
      by_cases h26 : 26 ≤ k
      · simp [h8, hlen (k - 16) (by omega)]
      · simp [h16, h26, h8]
  · unfold lenField
    have : (opc.setWidth 32 ||| (BitVec.ofNat 32 len <<< 16)).extractLsb' 16 10 = BitVec.ofNat 10 len := by
      apply BitVec.eq_of_getLsbD_eq
      intro k hk
      have h8 : opc.getLsbD (16 + k) = false := BitVec.getLsbD_of_ge _ _ (by omega)
      simp only [BitVec.getLsbD_extractLsb', BitVec.getLsbD_or, BitVec.getLsbD_setWidth, BitVec.getLsbD_shiftLeft,
        BitVec.getLsbD_ofNat, h8, hk, show 16 + k < 32 by omega, show ¬ 16 + k < 16 by omega, show 16 + k - 16 = k by omega,
        show k < 32 by omega, decide_true, decide_false, Bool.and_false, Bool.false_or, Bool.not_false, Bool.true_and]
    rw [this, BitVec.toNat_ofNat, Nat.mod_eq_of_lt h]

theorem rxb (len : Nat) : Statement (.rxb len) := fun hw => by
  have hl : lenOk len := of_decide_eq_true hw
  have hlt : len < 1024 := Nat.lt_of_le_of_lt hl.2 (by decide)
  refine ⟨⟨"RXB", 0x09, 0xFC00FFFF, .len⟩, by decide, rfl, (lenWord_fields 0x09 hlt).1, ?_⟩
  show lenOk (lenField (encode (.rxb len)))
  exact (lenWord_fields 0x09 hlt).2.symm ▸ hl

theorem rdblk (len : Nat) : Statement (.rdblk len) := fun hw => by
  have hl : lenOk len := of_decide_eq_true hw
  have hlt : len < 1024 := Nat.lt_of_le_of_lt hl.2 (by decide)
  refine ⟨⟨"RDBLK", 0x0A, 0xFC00FFFF, .len⟩, by decide, rfl, (lenWord_fields 0x0A hlt).1, ?_⟩
  show lenOk (lenField (encode (.rdblk len)))
  exact (lenWord_fields 0x0A hlt).2.symm ▸ hl

theorem wrblk (tok : Token) : Statement (.wrblk tok) := fun _ =>
  ⟨⟨"WRBLK", 0x0B, 0xFFFFFCFF, .tok⟩, by decide, rfl, by cases tok <;> decide,
    by cases tok <;> exact show tokField _ ≠ 3 by decide⟩

theorem init : Statement .init := fun _ => ⟨⟨"INIT", 0x0C, 0xFFFFFFFF, .any⟩, by decide, rfl, by decide, trivial⟩

theorem saddr : Statement .saddr := fun _ => ⟨⟨"SADDR", 0x0D, 0xFFFFFFFF, .any⟩, by decide, rfl, by decide, trivial⟩

theorem media : Statement .media := fun _ => ⟨⟨"MEDIA", 0x0E, 0xFFFFFFFF, .any⟩, by decide, rfl, by decide, trivial⟩

end Sys2Proof.Laws.TableRow
end

