-- ==== Sys2Proof/Laws/Runs.lean ====
section
/-! SUPPORT. Runs of the three shared sequences inside any op that uses them: the readiness wait, `sendCmd` and the power-on
sequence, with the byte stream they leave. -/

namespace Sys2Proof.Machine

/-! ### Traffic -/

/-- An exchange is traffic of one byte. -/
theorem State.xchg_eq (s : State) (b : Byte) : s.xchg b = { s with env := s.afterTraffic [b] [s.cardByte] } := rfl

/-- Traffic after traffic, the cs level kept. -/
theorem State.afterTraffic_append {s t : State} {o i : List Byte} (he : t.env = s.afterTraffic o i)
    (hcs : t.stat.cs = s.stat.cs) (hl : o.length = i.length) (o' i' : List Byte) :
    t.afterTraffic o' i' = s.afterTraffic (o ++ o') (i ++ i') := by
  unfold State.afterTraffic at he ⊢
  rw [he, hcs, traffic_append _ hl, List.length_append, Env.afterCards_add, Env.afterCards_setBus, List.append_assoc]

/-- What the card sends after traffic. -/
theorem State.sends_afterTraffic (s : State) (o i i' : List Byte) :
    s.env.sends (i ++ i') ↔ s.env.sends i ∧ (s.afterTraffic o i).sends i' :=
  (Env.sends_append ..).trans (and_congr Iff.rfl (Env.sends_setBus ..).symm)

/-- One more exchange: the byte the card sends and the traffic after it. -/
theorem State.xchg_afterTraffic {s u : State} {o i : List Byte} {c : Byte} {rest : List Byte} (he : u.env = s.afterTraffic o i)
    (hcs : u.stat.cs = s.stat.cs) (hl : o.length = i.length) (hc : s.env.sends (i ++ c :: rest)) (b : Byte) :
    u.cardByte = c ∧ (u.xchg b).env = s.afterTraffic (o ++ [b]) (i ++ [c]) := by
  have h := ((State.sends_afterTraffic s o i (c :: rest)).mp hc).2
  rw [← he] at h
  have hb : u.cardByte = c := h.1
  refine ⟨hb, ?_⟩
  rw [← State.afterTraffic_append he hcs hl, ← hb]
  rfl

/-! ### The readiness wait -/

/-- `emb` places the readiness wait's positions in op `i`, in states whose latched argument is `a`. -/
def WaitIn (i : Instr) (a : Word) (emb : WaitPos → Pos) : Prop :=
  ∀ (s t : State) (p q : WaitPos), s.int.argl = a → s.standsAt i (emb p) → waitStep p s = (.more q, t) →
    exec i s = .next (t.goto i (emb q))

/-- The readiness wait from its read, with bytes that are not 0xFF and then 0xFF, and no tick between. -/
theorem waitRead_run {i : Instr} {a : Word} {emb : WaitPos → Pos} (hin : WaitIn i a emb) (bs : List Byte) (s : State)
    (ha : s.int.argl = a) (hs : s.standsAt i (emb .read)) (ht : s.t2 ≠ 0) (hb : ∀ b ∈ bs, b ≠ 0xFF) (hc : s.env.sends (bs ++ [0xFF])) :
    ∃ k, execN i k s = .next
      (State.goto { s with
        int := { s.int with r := 0xFF }
        env := s.afterTraffic (idles (bs.length + 1)) (bs ++ [0xFF]) } i (emb .test)) := by
  induction bs generalizing s with
  | nil =>
    refine ⟨1, ?_⟩
    have hb : s.cardByte = 0xFF := hc.1
    rw [execN_succ (hin s _ .read .test ha hs rfl), execN]
    unfold State.rx State.exchange
    rw [State.xchg_eq, hb]
    rfl
  | cons b bs ih =>
    have hcb : s.cardByte = b := hc.1
    have h1 := hin s _ .read .test ha hs rfl
    have hne : b ≠ 0xFF := hb b (by simp)
    let u : State := s.rx.goto i (emb .test)
    have h2 : exec i u = .next (u.goto i (emb .read)) := by
      refine hin u u .test .read ha rfl ?_
      have hr : u.int.r = b := hcb
      have : ¬ (u.int.r = idleByte ∨ u.t2 = 0) := not_or.mpr ⟨by rw [hr]; exact hne, ht⟩
      simp only [waitStep, if_neg this]
    have he : (u.goto i (emb .read)).env = s.afterTraffic [0xFF] [b] := by
      show (s.xchg idleByte).env = _
      rw [State.xchg_eq, hcb]
    have hc2 : (u.goto i (emb .read)).env.sends (bs ++ [0xFF]) := by
      rw [he]; exact ((State.sends_afterTraffic s [0xFF] [b] (bs ++ [0xFF])).mp hc).2
    obtain ⟨k, hk⟩ := ih (u.goto i (emb .read)) ha rfl ht (fun x hx => hb x (by simp [hx])) hc2
    refine ⟨k + 1 + 1, ?_⟩
    rw [execN_succ h1, execN_succ h2, hk, State.afterTraffic_append he rfl rfl]
    rfl

/-- The whole readiness wait with a card that becomes ready and no tick between (40_readiness_and_dispatch.md R130). -/
theorem waitReady_run {i : Instr} {a : Word} {emb : WaitPos → Pos} (hin : WaitIn i a emb) (bs : List Byte) (s : State)
    (ha : s.int.argl = a) (hs : s.standsAt i (emb .arm)) (ht : s.armed s.params.readyTicks ≠ 0) (hb : ∀ b ∈ bs, b ≠ 0xFF)
    (hc : s.env.sends (bs ++ [0xFF])) :
    ∃ k, execN i k s = .next
      (State.goto { s with
        t2 := s.armed s.params.readyTicks
        int := { s.int with r := 0xFF }
        env := s.afterTraffic (idles (bs.length + 1)) (bs ++ [0xFF]) } i (emb .test)) := by
  have h1 := hin s _ .arm .read ha hs rfl
  obtain ⟨k, hk⟩ := waitRead_run hin bs ((s.armT2 s.params.readyTicks).goto i (emb .read)) ha rfl ht hb hc
  exact ⟨k + 1, by rw [execN_succ h1, hk]; rfl⟩

/-! ### `sendCmd` -/

/-- `emb` places the positions of `sendCmd(idx, arg)` in op `i`, in states whose latched argument is `a`. -/
def SendIn (i : Instr) (idx : BitVec 6) (arg a : Word) (emb : SendPos → Pos) : Prop :=
  ∀ (s t : State) (p q : SendPos), s.int.argl = a → s.standsAt i (emb p) → sendStep idx arg p s = (.more q, t) →
    exec i s = .next (t.goto i (emb q))

/-- The state `s` after traffic, with int.N and int.R as given, standing at `p` of op `i`. -/
def State.heard (s : State) (o i : List Byte) (n : Nat) (r : Byte) (op : Instr) (p : Pos) : State :=
  State.goto { s with int := { s.int with n := n, r := r }, env := s.afterTraffic o i } op p

/-- One exchange of a sequence that goes on, its received byte kept or not. -/
theorem State.heard_xchg {s : State} {o i : List Byte} {c : Byte} {rest : List Byte} (hl : o.length = i.length)
    (hc : s.env.sends (i ++ c :: rest)) (n : Nat) (r : Byte) (op : Instr) (p : Pos) (b : Byte) :
    (s.heard o i n r op p).cardByte = c ∧
      ∀ n' r' q, State.goto { (s.heard o i n r op p).xchg b with
        int := { (s.heard o i n r op p).int with n := n', r := r' } } op q = s.heard (o ++ [b]) (i ++ [c]) n' r' op q := by
  have h := State.xchg_afterTraffic (s := s) (u := s.heard o i n r op p) rfl rfl hl hc b
  refine ⟨h.1, fun n' r' q => ?_⟩
  unfold State.heard State.goto
  rw [← h.2]
  rfl

/-- A read of a sequence that goes on. -/
theorem State.heard_rx {s : State} {o i : List Byte} {c : Byte} {rest : List Byte} (hl : o.length = i.length)
    (hc : s.env.sends (i ++ c :: rest)) (n : Nat) (r : Byte) (op : Instr) (p q : Pos) :
    (s.heard o i n r op p).rx.goto op q = s.heard (o ++ [0xFF]) (i ++ [c]) n c op q := by
  have hx := State.heard_xchg (s := s) hl hc n r op p 0xFF
  rw [← hx.2 n c q]
  have hb := hx.1
  generalize hu : s.heard o i n r op p = u at hb
  subst hb
  have hn : u.int.n = n := by rw [← hu]; rfl
  subst hn
  rfl

/-- A sent byte of a sequence that goes on. -/
theorem State.heard_tx {s : State} {o i : List Byte} {c : Byte} {rest : List Byte} (hl : o.length = i.length)
    (hc : s.env.sends (i ++ c :: rest)) (n : Nat) (r : Byte) (op : Instr) (p q : Pos) (b : Byte) :
    ((s.heard o i n r op p).tx b).goto op q = s.heard (o ++ [b]) (i ++ [c]) n r op q :=
  (State.heard_xchg (s := s) hl hc n r op p b).2 n r q

/-- The six frame bytes (30_encoding.md R100), with what the card sends during them discarded. `F k` is the position of byte k;
the last byte goes to `E`. -/
theorem frame_run {i : Instr} {idx : BitVec 6} {arg : Word} {F : Fin 6 → Pos} {E : Pos} {s : State}
    (hstep : ∀ (u : State) (k : Fin 6), u.int.argl = s.int.argl → u.standsAt i (F k) →
      exec i u = .next ((u.tx (frameByte idx arg k)).goto i (if k = 5 then E else F (k + 1))))
    {o m : List Byte} (hl : o.length = m.length) (n : Nat) (r : Byte) (noise rest : List Byte) (hn : noise.length = 6)
    (hc : s.env.sends (m ++ (noise ++ rest))) :
    execN i 6 (s.heard o m n r i (F 0)) = .next (s.heard (o ++ frameBytes idx arg) (m ++ noise) n r i E) := by
  obtain ⟨c0, c1, c2, c3, c4, c5, rfl⟩ : ∃ c0 c1 c2 c3 c4 c5, noise = [c0, c1, c2, c3, c4, c5] := by
    match noise, hn with
    | [c0, c1, c2, c3, c4, c5], _ => exact ⟨c0, c1, c2, c3, c4, c5, rfl⟩
  have step : ∀ (k : Fin 6) (q : Pos) (o m : List Byte) (c : Byte) (rest : List Byte), (if k = 5 then E else F (k + 1)) = q →
      o.length = m.length → s.env.sends (m ++ c :: rest) →
      exec i (s.heard o m n r i (F k)) = .next (s.heard (o ++ [frameByte idx arg k]) (m ++ [c]) n r i q) := by
    intro k q o m c rest hk hl hc
    rw [hstep (s.heard o m n r i (F k)) k rfl rfl, hk]
    exact congrArg _ (State.heard_tx hl hc ..)
  have a1 : s.env.sends ((m ++ [c0]) ++ c1 :: ([c2, c3, c4, c5] ++ rest)) := by simpa using hc
  have a2 : s.env.sends ((m ++ [c0] ++ [c1]) ++ c2 :: ([c3, c4, c5] ++ rest)) := by simpa using hc
  have a3 : s.env.sends ((m ++ [c0] ++ [c1] ++ [c2]) ++ c3 :: ([c4, c5] ++ rest)) := by simpa using hc
  have a4 : s.env.sends ((m ++ [c0] ++ [c1] ++ [c2] ++ [c3]) ++ c4 :: ([c5] ++ rest)) := by simpa using hc
  have a5 : s.env.sends ((m ++ [c0] ++ [c1] ++ [c2] ++ [c3] ++ [c4]) ++ c5 :: rest) := by simpa using hc
  rw [execN_succ (step 0 (F 1) _ _ _ _ rfl hl hc), execN_succ (step 1 (F 2) _ _ _ _ rfl (by simp [hl]) a1),
    execN_succ (step 2 (F 3) _ _ _ _ rfl (by simp [hl]) a2), execN_succ (step 3 (F 4) _ _ _ _ rfl (by simp [hl]) a3),
    execN_succ (step 4 (F 5) _ _ _ _ rfl (by simp [hl]) a4), execN_succ (step 5 E _ _ _ _ rfl (by simp [hl]) a5)]
  simp [execN, frameBytes, frameByte]

/-- A count-bounded poll up to and with the byte that decides it: the R1 poll (40_readiness_and_dispatch.md R142), the power-on
poll (R132) and the data-response poll (41_block_transfer.md R189). `P` is the position of its read, `C` that of its count;
`pending` are bytes on which it goes on, tries being left. -/
theorem poll_run {i : Instr} {P C : Pos} {s : State} {again : Byte → Prop}
    (hpoll : ∀ u : State, u.int.argl = s.int.argl → u.standsAt i P → exec i u = .next (u.rx.goto i C))
    (hcount : ∀ u : State, u.int.argl = s.int.argl → u.standsAt i C → again u.int.r → u.int.n - 1 ≠ 0 →
      exec i u = .next ((u.setN (u.int.n - 1)).goto i P))
    (pending : List Byte) (c : Byte) (rest : List Byte) (hp : ∀ b ∈ pending, again b) :
    ∀ {o m : List Byte} (n : Nat) (r : Byte), o.length = m.length → pending.length < n →
      s.env.sends (m ++ (pending ++ c :: rest)) →
      execN i (2 * pending.length + 1) (s.heard o m n r i P) = .next
        (s.heard (o ++ idles (pending.length + 1)) (m ++ (pending ++ [c])) (n - pending.length) c i C) := by
  induction pending with
  | nil =>
    intro o m n r hl _ hc
    rw [List.length_nil, execN_succ (hpoll (s.heard o m n r i P) rfl rfl), State.heard_rx hl hc]
    rfl
  | cons b bs ih =>
    intro o m n r hl hn hc
    simp only [List.length_cons] at hn
    have h1 := hpoll (s.heard o m n r i P) rfl rfl
    rw [State.heard_rx (c := b) hl hc] at h1
    have h2 : exec i (s.heard (o ++ [0xFF]) (m ++ [b]) n b i C) =
        .next (s.heard (o ++ [0xFF]) (m ++ [b]) (n - 1) b i P) :=
      hcount (s.heard _ _ n b i C) rfl rfl (hp b (by simp)) (show n - 1 ≠ 0 by omega)
    have h3 := ih (fun x hx => hp x (by simp [hx])) (o := o ++ [0xFF]) (m := m ++ [b]) (n - 1) b (by simp [hl]) (by omega)
      (by simpa using hc)
    rw [List.length_cons, show 2 * (bs.length + 1) + 1 = 2 * bs.length + 1 + 1 + 1 by omega, execN_succ h1, execN_succ h2, h3,
      show n - 1 - bs.length = n - (bs.length + 1) by omega]
    simp [idles, List.replicate_succ]

/-- The frame of `sendCmd` (40_readiness_and_dispatch.md R139): it goes to the stuffing byte or on to the tries. -/
theorem sendFrame_run {i : Instr} {idx : BitVec 6} {arg a : Word} {emb : SendPos → Pos} (hin : SendIn i idx arg a emb)
    {s : State} (ha : s.int.argl = a) {o m : List Byte} (hl : o.length = m.length) (n : Nat) (r : Byte)
    (noise rest : List Byte) (hn : noise.length = 6) (hc : s.env.sends (m ++ (noise ++ rest))) :
    execN i 6 (s.heard o m n r i (emb (.frame 0))) = .next
      (s.heard (o ++ frameBytes idx arg) (m ++ noise) n r i (emb (if idx = stopIndex then .stuff else .tries))) := by
  refine frame_run (F := fun k => emb (.frame k)) ?_ hl n r noise rest hn hc
  intro u k hu hs
  rw [hin u _ (.frame k) (afterFrame idx k) (hu.trans ha) hs rfl]
  unfold afterFrame
  split <;> rfl

/-- The tries and the R1 poll, up to and with the byte that decides it (40_readiness_and_dispatch.md R142). -/
theorem sendPoll_run {i : Instr} {idx : BitVec 6} {arg a : Word} {emb : SendPos → Pos} (hin : SendIn i idx arg a emb)
    {s : State} (ha : s.int.argl = a) (pending : List Byte) (c : Byte) (rest : List Byte) (hp : ∀ b ∈ pending, b.msb = true)
    {o m : List Byte} (n : Nat) (r : Byte) (hl : o.length = m.length) (hlt : pending.length < s.params.r1Tries)
    (hc : s.env.sends (m ++ (pending ++ c :: rest))) :
    execN i (2 * pending.length + 1 + 1) (s.heard o m n r i (emb .tries)) = .next
      (s.heard (o ++ idles (pending.length + 1)) (m ++ (pending ++ [c])) (s.params.r1Tries - pending.length) c i (emb .count)) := by
  have h1 : exec i (s.heard o m n r i (emb .tries)) = .next (s.heard o m s.params.r1Tries r i (emb .poll)) :=
    hin (s.heard o m n r i (emb .tries)) ((s.heard o m n r i (emb .tries)).setN s.params.r1Tries) .tries .poll ha rfl rfl
  rw [execN_succ h1]
  refine poll_run (again := fun b => b.msb = true) (fun u hu hs => hin u _ .poll .count (hu.trans ha) hs rfl) ?_ pending c rest hp
    s.params.r1Tries r hl hlt hc
  intro u hu hs hr hn
  exact hin u _ .count .poll (hu.trans ha) hs (by simp only [sendStep, afterSendCount, hr, Bool.true_eq_false, if_false, if_neg hn])

/-- `sendCmd` with a ready card, from its start up to the count that decides it: the byte stream, the tries left, and the deciding
byte in int.R (40_readiness_and_dispatch.md R139, R141, R142). -/
theorem sendCmd_run {i : Instr} {idx : BitVec 6} {arg a : Word} {emb : SendPos → Pos} (hin : SendIn i idx arg a emb)
    (s : State) (waits noise pending : List Byte) (r : Byte) (rest : List Byte) (ha : s.int.argl = a)
    (hs : s.standsAt i (emb (.wait .arm))) (ht : s.armed s.params.readyTicks ≠ 0) (hw : ∀ b ∈ waits, b ≠ 0xFF)
    (hn : noise.length = if idx = stopIndex then 7 else 6) (hp : ∀ b ∈ pending, b.msb = true)
    (htries : pending.length < s.params.r1Tries)
    (hc : s.env.sends (waits ++ 0xFF :: (noise ++ (pending ++ r :: rest)))) :
    ∃ k, execN i k s = .next
      (State.heard { s with t2 := s.armed s.params.readyTicks }
        (idles (waits.length + 1) ++ (frameBytes idx arg ++ (idles (if idx = stopIndex then 1 else 0) ++
          idles (pending.length + 1))))
        (waits ++ 0xFF :: (noise ++ (pending ++ [r]))) (s.params.r1Tries - pending.length) r i (emb .count)) := by
  have hwait : WaitIn i a (fun p => emb (.wait p)) := by
    intro s t p q ha hs he
    exact hin s t (.wait p) (.wait q) ha hs (by simp only [sendStep, he])
  obtain ⟨k, hk⟩ := waitReady_run hwait waits s ha hs ht hw ((Env.sends_append s.env (waits ++ [0xFF]) _).mp (by simpa using hc)).1
  let u : State := { s with t2 := s.armed s.params.readyTicks }
  have hk' : execN i k s = .next (u.heard (idles (waits.length + 1)) (waits ++ [0xFF]) s.int.n 0xFF i (emb (.wait .test))) := hk
  have h1 : exec i (u.heard (idles (waits.length + 1)) (waits ++ [0xFF]) s.int.n 0xFF i (emb (.wait .test))) =
      .next (u.heard (idles (waits.length + 1)) (waits ++ [0xFF]) s.int.n 0xFF i (emb (.frame 0))) := by
    have hr : (u.heard (idles (waits.length + 1)) (waits ++ [0xFF]) s.int.n 0xFF i (emb (.wait .test))).int.r = idleByte := rfl
    exact hin (u.heard (idles (waits.length + 1)) (waits ++ [0xFF]) s.int.n 0xFF i (emb (.wait .test)))
      (u.heard (idles (waits.length + 1)) (waits ++ [0xFF]) s.int.n 0xFF i (emb (.wait .test))) (.wait .test) (.frame 0) ha rfl
      (by simp only [sendStep, waitStep, hr, true_or, if_true])
  have hcu : u.env.sends ((waits ++ [0xFF]) ++ (noise ++ (pending ++ r :: rest))) := by simpa using hc
  by_cases h12 : idx = stopIndex
  · simp only [if_pos h12] at hn ⊢
    obtain ⟨n6, x, rfl, hn6⟩ : ∃ n6 x, noise = n6 ++ [x] ∧ n6.length = 6 := by
      match noise, hn with
      | [c0, c1, c2, c3, c4, c5, c6], _ => exact ⟨[c0, c1, c2, c3, c4, c5], c6, rfl, rfl⟩
    have h2 := sendFrame_run hin (s := u) ha (o := idles (waits.length + 1)) (m := waits ++ [0xFF]) (by simp [idles]) s.int.n 0xFF
      n6 (x :: (pending ++ r :: rest)) hn6 (by simpa using hcu)
    rw [if_pos h12] at h2
    have h3 := hin (u.heard (idles (waits.length + 1) ++ frameBytes idx arg) (waits ++ [0xFF] ++ n6) s.int.n 0xFF i (emb .stuff)) _
      .stuff .tries ha rfl rfl
    rw [State.heard_rx (c := x) (rest := pending ++ r :: rest) (by simp [idles, frameBytes, hn6]) (by simpa using hcu)] at h3
    have h4 := sendPoll_run hin (s := u) ha pending r rest hp (o := idles (waits.length + 1) ++ frameBytes idx arg ++ [0xFF])
      (m := waits ++ [0xFF] ++ n6 ++ [x]) s.int.n x (by simp [idles, frameBytes, hn6]) htries (by simpa using hcu)
    refine ⟨k + (6 + (2 * pending.length + 1 + 1 + 1) + 1), ?_⟩
    rw [execN_add hk', execN_succ h1, execN_add h2, execN_succ h3, h4]
    simp [idles]
    rfl
  · simp only [if_neg h12] at hn ⊢
    have h2 := sendFrame_run hin (s := u) ha (o := idles (waits.length + 1)) (m := waits ++ [0xFF]) (by simp [idles]) s.int.n 0xFF
      noise (pending ++ r :: rest) hn hcu
    rw [if_neg h12] at h2
    have h4 := sendPoll_run hin (s := u) ha pending r rest hp (o := idles (waits.length + 1) ++ frameBytes idx arg)
      (m := waits ++ [0xFF] ++ noise) s.int.n 0xFF (by simp [idles, frameBytes, hn]) htries (by simpa using hcu)
    refine ⟨k + (6 + (2 * pending.length + 1 + 1) + 1), ?_⟩
    rw [execN_add hk', execN_succ h1, execN_add h2, h4]
    simp [idles]
    rfl

/-! ### The power-on sequence -/

/-- `emb` places the positions of `powerOnSeq` in op `i`. -/
def PowerIn (i : Instr) (emb : PowerPos → Pos) : Prop :=
  ∀ (s t : State) (p q : PowerPos), s.standsAt i (emb p) → powerStep p s = (.more q, t) → exec i s = .next (t.goto i (emb q))

/-- The idle bytes from the k-th on (40_readiness_and_dispatch.md R132). -/
theorem powerIdle_run {i : Instr} {emb : PowerPos → Pos} (hin : PowerIn i emb) {s : State} (xs rest : List Byte) :
    ∀ {o m : List Byte} (k n : Nat) (r : Byte), o.length = m.length → 1 ≤ xs.length → k + xs.length = s.params.idleBytes + 1 →
      s.env.sends (m ++ (xs ++ rest)) →
      execN i xs.length (s.heard o m n r i (emb (.idle k))) =
        .next (s.heard (o ++ idles xs.length) (m ++ xs) n r i (emb .select)) := by
  induction xs with
  | nil => intro o m k n r _ h1; simp at h1
  | cons x xs ih =>
    intro o m k n r hl _ hk hc
    simp only [List.length_cons] at hk
    have hx := (State.heard_xchg (s := s) (o := o) (i := m) hl hc n r i (emb (.idle k)) 0xFF).2 n r
    have h1 := hin (s.heard o m n r i (emb (.idle k))) _ (.idle k) (afterIdle s k) rfl rfl
    rw [List.length_cons, execN_succ (h1.trans (congrArg _ (hx _)))]
    by_cases h0 : xs = []
    · subst h0
      have : ¬ k < s.params.idleBytes := by simp only [List.length_nil] at hk; omega
      simp [execN, idles, afterIdle, this]
    · have hpos : 1 ≤ xs.length := List.length_pos_iff.mpr h0
      have : k < s.params.idleBytes := by omega
      simp only [afterIdle, this, if_true]
      rw [ih (o := o ++ [0xFF]) (m := m ++ [x]) (k + 1) n r (by simp [hl]) hpos (by omega) (by simpa using hc)]
      simp [idles, List.replicate_succ]

/-- The idle part of the power-on sequence: chip select high, the idle bytes, chip select low. -/
theorem powerWake_run {i : Instr} {emb : PowerPos → Pos} (hin : PowerIn i emb) (s : State) (xs rest : List Byte)
    (hs : s.standsAt i (emb .deselect)) (hx : xs.length = s.params.idleBytes) (hc : s.env.sends (xs ++ rest)) :
    ∃ k, execN i k s = .next
      (State.heard { s with stat := { s.stat with cs := true }, env := State.afterTraffic (s.setCs false) (idles xs.length) xs }
        [] [] s.int.n s.int.r i (emb (.frame 0))) := by
  have h1 := hin s _ .deselect (afterIdle s 0) hs rfl
  have h3 : ∀ u : State, u.standsAt i (emb .select) → exec i u = .next ((u.setCs true).goto i (emb (.frame 0))) :=
    fun u hu => hin u _ .select (.frame 0) hu rfl
  by_cases h0 : xs = []
  · subst h0
    have hi : ¬ 0 < s.params.idleBytes := by simp only [List.length_nil] at hx; omega
    simp only [afterIdle, if_neg hi] at h1
    exact ⟨2, by rw [execN_succ h1, execN_succ (h3 _ rfl)]; rfl⟩
  · have hpos : 1 ≤ xs.length := List.length_pos_iff.mpr h0
    have hi : 0 < s.params.idleBytes := by omega
    simp only [afterIdle, if_pos hi] at h1
    have h2 := powerIdle_run hin (s := s.setCs false) xs rest (o := []) (m := []) 1 s.int.n s.int.r rfl hpos
      (by rw [hx]; exact Nat.add_comm ..) hc
    refine ⟨xs.length + 1 + 1, ?_⟩
    rw [Nat.add_right_comm, execN_succ h1]
    have h2' : execN i xs.length ((s.setCs false).goto i (emb (.idle (0 + 1)))) = _ := h2
    rw [execN_add h2', execN_succ (h3 _ rfl)]
    rfl

/-- The whole power-on sequence up to its last write, with what the card sends (40_readiness_and_dispatch.md R132). -/
theorem powerOn_run {i : Instr} {emb : PowerPos → Pos} (hin : PowerIn i emb) (s : State) (noise refusals : List Byte) (r : Byte)
    (rest : List Byte) (hs : s.standsAt i (emb .deselect)) (hn : noise.length = s.params.idleBytes + 6)
    (hb : ∀ b ∈ refusals, b ≠ 0x01)
    (hr : r = 0x01 ∧ refusals.length < s.params.pollReads ∨ refusals.length + 1 = s.params.pollReads)
    (hc : s.env.sends (noise ++ (refusals ++ r :: rest))) :
    ∃ k n, execN i k s = .next
      (State.goto { s with
        stat := { s.stat with cs := false }
        int := { s.int with n := n, r := r }
        env := { s.env.afterCards (noise ++ (refusals ++ [r])).length with
          bus := traffic true (frameBytes 0 0 ++ idles (refusals.length + 1))
                   (noise.drop s.params.idleBytes ++ (refusals ++ [r])) ++
                 (traffic false (idles s.params.idleBytes) (noise.take s.params.idleBytes) ++ s.env.bus) } }
        i (emb .setPower)) := by
  obtain ⟨xs, ys, rfl, hxs, hys⟩ : ∃ xs ys, noise = xs ++ ys ∧ xs.length = s.params.idleBytes ∧ ys.length = 6 :=
    ⟨noise.take s.params.idleBytes, noise.drop s.params.idleBytes, (List.take_append_drop ..).symm,
      by rw [List.length_take]; omega, by rw [List.length_drop]; omega⟩
  rw [List.append_assoc] at hc
  obtain ⟨k, hk⟩ := powerWake_run hin s xs _ hs hxs hc
  let u : State := { s with stat := { s.stat with cs := true }, env := State.afterTraffic (s.setCs false) (idles xs.length) xs }
  have hcu : u.env.sends (ys ++ (refusals ++ r :: rest)) := ((State.sends_afterTraffic (s.setCs false) (idles xs.length) xs _).mp hc).2
  have h2 := frame_run (i := i) (idx := 0) (arg := 0) (F := fun k => emb (.frame k)) (E := emb .tries) (s := u)
    (fun v k _ hv => (hin v _ (.frame k) (if k = 5 then .tries else .frame (k + 1)) hv rfl).trans
      (congrArg _ (by split <;> rfl)))
    (o := []) (m := []) rfl s.int.n s.int.r ys (refusals ++ r :: rest) hys hcu
  have h3 : exec i (u.heard ([] ++ frameBytes 0 0) ([] ++ ys) s.int.n s.int.r i (emb .tries)) =
      .next (u.heard ([] ++ frameBytes 0 0) ([] ++ ys) s.params.pollReads s.int.r i (emb .poll)) :=
    hin (u.heard _ _ s.int.n s.int.r i (emb .tries)) (State.setN (u.heard _ _ s.int.n s.int.r i (emb .tries)) s.params.pollReads)
      .tries .poll rfl rfl
  have h4 := poll_run (s := u) (again := fun b => b ≠ 0x01) (P := emb .poll) (C := emb .count)
    (fun v _ hv => hin v _ .poll .count hv rfl)
    (fun v _ hv hne h0 => hin v _ .count .poll hv (by
      simp only [powerStep, afterPowerCount, if_neg (not_or.mpr ⟨hne, h0⟩)]))
    refusals r rest hb (o := [] ++ frameBytes 0 0) (m := [] ++ ys) s.params.pollReads s.int.r
    (by rw [List.length_append, List.length_append, hys]; rfl) (by omega) (by simpa using hcu)
  let v := u.heard ([] ++ frameBytes 0 0 ++ idles (refusals.length + 1)) ([] ++ ys ++ (refusals ++ [r]))
    (s.params.pollReads - refusals.length) r i (emb .count)
  have hd : v.int.r = 0x01 ∨ v.int.n - 1 = 0 := by
    rcases hr with ⟨h, _⟩ | h
    · exact .inl h
    · exact .inr (show s.params.pollReads - refusals.length - 1 = 0 by omega)
  have h5 : exec i v = .next ((v.setN (v.int.n - 1)).goto i (emb .release)) :=
    hin v _ .count .release rfl (by simp only [powerStep, afterPowerCount, if_pos hd])
  have h6 := hin ((v.setN (v.int.n - 1)).goto i (emb .release)) _ .release .setPower rfl rfl
  refine ⟨k + (6 + (2 * refusals.length + 1 + 2 + 1)), s.params.pollReads - refusals.length - 1, ?_⟩
  rw [execN_add hk, execN_add h2, execN_succ h3]
  refine (execN_add h4 2).trans ((execN_succ h5 1).trans ((execN_succ h6 0).trans ?_))
  rw [execN]
  congr 1
  unfold v State.heard State.goto State.setCs State.setN
  congr 1
  simp only [u, State.afterTraffic, Env.afterCards_setBus, State.setCs]
  rw [show (xs ++ ys ++ (refusals ++ [r])).length = xs.length + ([] ++ ys ++ (refusals ++ [r])).length by simp, Env.afterCards_add]
  simp [← hxs, idles]

end Sys2Proof.Machine
end

