-- ==== Sys2Proof/Tests/Slice0.lean ====
section
/-! SUPPORT. The model's own tests: well-formedness, decoding of words written out from the spec's encodings, wire bytes and
checksums, one step of each op, the host's port; then a witness for the hypotheses of each obligation. Expected values are
those of 30_encoding.md and 95_test_vectors.md. -/

namespace Sys2Proof.Tests

open Sys2Proof Sys2Proof.Machine

/-! ### Helpers -/

/-- Where a step leads; the reset state where it stops. -/
def nextOf : Result → State
  | .next s => s
  | .fault _ | .refused _ => State.reset

/-- Op `i` runs and stands at `p`, and the card sends `card` next. -/
def standing (i : Instr) (p : Pos) (card : List Byte) : State :=
  { State.reset with
    op := encode i
    stat := { Stat.reset with busy := true }
    int := { Internal.reset with opl := encode i, phase := .run i p }
    env := { Env.empty with card := card } }

/-- Idle, with a byte in DATA and a host program. -/
def idling (program : List Stmt) : State :=
  { State.reset with data := [(2, 0x22)], env := { Env.empty with program := program } }

/-! ### Well-formedness (R92 to R94) -/

theorem test_rxb_0_is_ill_formed : WellFormed (.rxb 0) = false := by decide
theorem test_rxb_513_is_ill_formed : WellFormed (.rxb 513) = false := by decide
theorem test_rdblk_0_is_ill_formed : WellFormed (.rdblk 0) = false := by decide
theorem test_rdblk_513_is_ill_formed : WellFormed (.rdblk 513) = false := by decide
theorem test_len_bounds_are_well_formed :
    WellFormed (.rxb 1) && WellFormed (.rxb 512) && WellFormed (.rdblk 1) && WellFormed (.rdblk 512) = true := by decide

/-! ### Decoding: LEN and IDX and TOK in their places, OPC in bits [7:0] (R90 to R95, L2.1) -/

theorem test_decode_pwron : decode 0b00000000000000000000000000000001 = .op .pwron := by decide
theorem test_decode_pwroff : decode 0b00000000000000000000000000000010 = .op .pwroff := by decide
theorem test_decode_pwrchk : decode 0b00000000000000000000000000000011 = .op .pwrchk := by decide
theorem test_decode_waitrdy : decode 0b00000000000000000000000000000100 = .op .waitrdy := by decide
theorem test_decode_csel : decode 0b00000000000000000000000000000101 = .op .csel := by decide
theorem test_decode_cdesel : decode 0b00000000000000000000000000000110 = .op .cdesel := by decide
theorem test_decode_cmd_17 : decode 0b00000000000000000001000100000111 = .op (.cmd 17) := by decide
theorem test_decode_cmd_63 : decode 0b00000000000000000011111100000111 = .op (.cmd 63) := by decide
theorem test_decode_txb : decode 0b00000000000000000000000000001000 = .op .txb := by decide
theorem test_decode_rxb_4 : decode 0b00000000000001000000000000001001 = .op (.rxb 4) := by decide
theorem test_decode_rdblk_512 : decode 0b00000010000000000000000000001010 = .op (.rdblk 512) := by decide
theorem test_decode_wrblk_multi : decode 0b00000000000000000000000100001011 = .op (.wrblk .multi) := by decide
theorem test_decode_wrblk_stop : decode 0b00000000000000000000001000001011 = .op (.wrblk .stop) := by decide
theorem test_decode_init : decode 0b00000000000000000000000000001100 = .op .init := by decide
theorem test_decode_saddr : decode 0b00000000000000000000000000001101 = .op .saddr := by decide
theorem test_decode_media : decode 0b00000000000000000000000000001110 = .op .media := by decide
theorem test_decode_reserved_bit_31 : decode 0x80000004 = .illegal .reservedBits := by decide
theorem test_decode_rxb_reserved_byte : decode 0x00040109 = .illegal .reservedBits := by decide
theorem test_decode_rxb_len_0 : decode 0x00000009 = .illegal .badLength := by decide
theorem test_decode_rdblk_len_1023 : decode 0x03FF000A = .illegal .badLength := by decide
theorem test_decode_unused_opcode : decode 0x000000FF = .illegal .unusedOpcode := by decide
theorem test_encode_examples :
    encode (.cmd 55) = 0x00003707 ∧ encode (.rxb 4) = 0x00040009 ∧ encode (.rdblk 512) = 0x0200000A ∧
      encode (.wrblk .multi) = 0x0000010B := by decide
theorem test_decode_table_word : decodeTableWord 32 0x00001107 = some (.cmd 17) := by decide
theorem test_asm_text : Instr.asm (.wrblk .stop) = "WRBLK STOP" ∧ Instr.asm .init = "INIT" := by decide

/-! ### Wire bytes and checksums (L2.2, L2.7) -/

theorem test_go_idle_frame : frameBytes 0 0 = [0x40, 0x00, 0x00, 0x00, 0x00, 0x95] := by decide
theorem test_interface_condition_frame : frameBytes 8 0x1AA = [0x48, 0x00, 0x00, 0x01, 0xAA, 0x87] := by decide
theorem test_big_endian_frame : frameBytes 17 0x12345678 = [0x51, 0x12, 0x34, 0x56, 0x78, 0x00] := by decide
theorem test_frame_byte_is_frameBytes :
    ∀ k : Fin 6, frameByte 41 0x40000000 k = [0x69, 0x40, 0x00, 0x00, 0x00, 0x00][k] := by decide
theorem test_crc16_of_123456789 : crc16 [0x31, 0x32, 0x33, 0x34, 0x35, 0x36, 0x37, 0x38, 0x39] = 0x31C3 := by decide +kernel
theorem test_crc16_of_one_byte : crc16 [0xAB] = 0x0481 ∧ crc16 [0x01] = 0x1021 := by decide
theorem test_token_bytes : tokByte .single = 0xFE ∧ tokByte .multi = 0xFC ∧ tokByte .stop = 0xFD := by decide

/-! ### One step of each op -/

/-- L2.12: WAITRDY accepted right after reset: STAT reads 0x00010001. -/
theorem test_accept_waitrdy : (nextOf (step (State.reset.withFetchWord 32 0x04))).stat.word = 0x00010001 := by decide
/-- L2.1: an illegal word after reset: STAT 0x00010066, RDATA 0, OP reads the word. -/
theorem test_illegal_word :
    let t := nextOf (step (State.reset.withFetchWord 32 0x0F))
    t.stat.word = 0x00010066 ∧ t.rdata = 0 ∧ t.op = 0x0F := by decide
/-- R132: the poll ends at 0x01 with reads left. -/
theorem test_pwron_poll_ends_at_01 :
    (nextOf (exec .pwron (((standing .pwron (.pwron (.seq .count)) []).setN 9).setR 0x01))).int.phase =
      .run .pwron (.pwron (.seq .release)) := by decide
/-- R132: 0x00 is not the acknowledgement, and one read is used up. -/
theorem test_pwron_poll_goes_on_at_00 :
    let t := nextOf (exec .pwron ((standing .pwron (.pwron (.seq .count)) []).setN 9))
    t.int.phase = .run .pwron (.pwron (.seq .poll)) ∧ t.int.n = 8 := by decide
/-- R133. -/
theorem test_pwroff_clears_pwr :
    (nextOf (exec .pwroff ((standing .pwroff (.pwroff .clear) []).setPwr true))).stat.pwr = false := by decide
/-- R134: PWR 1 gives RDATA 1. -/
theorem test_pwrchk_reads_1 : (nextOf (exec .pwrchk ((standing .pwrchk .pwrchk []).setPwr true))).rdata = 1 := by decide
/-- R130: the first read takes the card's byte and drives 0xFF. -/
theorem test_waitrdy_reads_idle :
    let t := nextOf (exec .waitrdy (standing .waitrdy (.waitrdy (.wait .read)) [0x5A]))
    t.int.r = 0x5A ∧ t.env.bus = [⟨0xFF, 0x5A, false⟩] := by decide
/-- R130: READY_TICKS is 50 by default and T2 carries it. -/
theorem test_waitrdy_arms_t2 :
    let t := nextOf (exec .waitrdy (standing .waitrdy (.waitrdy (.wait .arm)) []))
    t.t2 = 50 ∧ t.t1 = 0 := by decide
/-- R137: cs_n goes low. -/
theorem test_csel_drives_low : (nextOf (exec .csel (standing .csel (.csel .drive) []))).csN = false := by decide
/-- R138: RDATA 0 at the end. -/
theorem test_cdesel_finishes_with_0 :
    let t := nextOf (exec .cdesel { standing .cdesel (.cdesel .finish) [] with rdata := 5 })
    t.rdata = 0 ∧ t.stat.done = true := by decide
/-- R141: index 12 goes to the stuffing byte after its frame. -/
theorem test_cmd_12_stuffs :
    (nextOf (exec (.cmd 12) (standing (.cmd 12) (.cmd (.send (.frame 5))) [0x77]))).int.phase =
      .run (.cmd 12) (.cmd (.send .stuff)) := by decide
/-- R142: the last try with bit 7 set ends with NORESP and that byte. -/
theorem test_cmd_17_no_response :
    (nextOf (exec (.cmd 17) (((standing (.cmd 17) (.cmd (.send .count)) []).setN 1).setR 0x80))).int.phase =
      .run (.cmd 17) (.cmd (.finish 0x80 .noResp)) := by decide
/-- L2.5: ARG 0x1A5 sends 0xA5. -/
theorem test_txb_sends_low_byte :
    let s := standing .txb (.txb .exchange) [0x5A]
    (nextOf (exec .txb { s with int := { s.int with argl := 0x1A5 } })).env.bus = [⟨0xA5, 0x5A, false⟩] := by decide
/-- L2.5: RXB 4's third byte lands in DATA[2], after which byte 3 follows. -/
theorem test_rxb_third_byte :
    let t := nextOf (exec (.rxb 4) (standing (.rxb 4) (.rxb (.read 2)) [0x80]))
    t.data = [(2, 0x80)] ∧ t.int.phase = .run (.rxb 4) (.rxb (.read 3)) := by decide
/-- R182: a byte that is neither 0xFF nor 0xFE fails though T1 is 0. -/
theorem test_rdblk_bad_token :
    let s := standing (.rdblk 512) (.rdblk .tokenTest) []
    (nextOf (exec (.rdblk 512) (s.setR 0xFC))).int.phase = .run (.rdblk 512) (.rdblk (.finish .badToken 0xFC)) := by decide
/-- L2.7: CRCCHK 1, payload AB, checksum bytes 04 80 instead of 04 81: CRCERR. -/
theorem test_rdblk_crc_error :
    let s := standing (.rdblk 1) (.rdblk (.verify 0x04 0x80)) []
    let t := nextOf (exec (.rdblk 1) ({ s with crcchk := true }.setCrc 0x0481))
    t.stat.cause = .crcErr ∧ t.rdata = 0x0480 := by decide
/-- R190: a nonzero byte ends the drain with T2 at 0, and RDATA is the response. -/
theorem test_wrblk_drain_ends_at_expiry :
    let s := standing (.wrblk .single) (.wrblk (.busyTest 0xE5)) []
    (nextOf (exec (.wrblk .single) (s.setR 0xFF))).int.phase = .run (.wrblk .single) (.wrblk (.finish .none 0xE5)) := by
  decide
/-- R187: the stop token ends the op. -/
theorem test_wrblk_stop_token :
    let t := nextOf (exec (.wrblk .stop) (standing (.wrblk .stop) (.wrblk .token) [0x00]))
    t.int.phase = .run (.wrblk .stop) (.wrblk (.finish .none 0xFF)) ∧ t.env.bus = [⟨0xFD, 0x00, false⟩] := by decide
/-- R226: OCR bit 30 is bit 6 of O[0]: 0xC0 gives block-addressed. -/
theorem test_init_ocr_type :
    let s := standing .init (.init .ocrType) []
    (nextOf (exec .init (s.setOcr 0 0xC0))).int.type = .sdv2Block := by decide
/-- R224: echo 01 55 goes to step 4. -/
theorem test_init_echo_mismatch :
    let s := standing .init (.init (.echo 3)) [0x55]
    (nextOf (exec .init (s.setEcho 2 0x01))).int.phase = .run .init (.init .setCtype) := by decide
/-- R38, D53: once INIT has ended, the echo it read is gone. -/
theorem test_init_keeps_no_echo :
    (nextOf (exec .init ((standing .init (.init (.finish .none)) []).setEcho 2 0x01))).int.echo[2] = 0x00 := by decide
/-- L2.10: sector 0x00800000 wraps to 0 on a byte-addressed card. -/
theorem test_saddr_wraps :
    let s := standing .saddr .saddr []
    (nextOf (exec .saddr { s with int := { s.int with argl := 0x00800000 } })).rdata = 0 := by decide
/-- L2.10: sector 3 passes through on a block-addressed card. -/
theorem test_saddr_block_addressed :
    let s := (standing .saddr .saddr []).setCtype .sdv2Block
    (nextOf (exec .saddr { s with int := { s.int with argl := 3 } })).rdata = 3 := by decide
/-- L2.11: NODISK 0, WPROT 1 with NOINIT 1 give RDATA 5. -/
theorem test_media_status :
    (nextOf (exec .media ((standing .media (.media .finish) []).setWprot true))).rdata = 5 := by decide

/-! ### The host's port, ticks, reset (L2.12) -/

theorem test_arg_write_during_an_op :
    let t := nextOf (hostStep (standing .waitrdy (.waitrdy (.wait .read)) []) (.write 0x004 4 5))
    t.arg = 0 ∧ t.stat.word = 0x00010009 := by decide
theorem test_stat_write_is_ignored : nextOf (hostStep State.reset (.write 0x008 4 5)) = State.reset := by decide
theorem test_halfword_access_faults :
    hostStep State.reset (.read 0x008 2) = .fault .hostAccessNotAdmitted := rfl
theorem test_byte_access_beyond_data_faults :
    hostStep State.reset (.read 0x400 1) = .fault .hostAccessNotAdmitted := rfl
theorem test_word_access_in_data_faults :
    hostStep State.reset (.read 0x200 4) = .fault .hostAccessNotAdmitted := rfl
theorem test_reset_stat : State.reset.stat.word = 0x00010000 := by decide
theorem test_reset_abandons_an_op :
    let t := nextOf (applyEvent .resetLow (standing .init (.init .setCtype) []))
    t.stat.word = 0x00010000 ∧ t.int.phase = .idle := by decide
theorem test_tick_saturates : (State.tick { State.reset with t1 := 1, t2 := 0 }).t1 = 0 := by decide
theorem test_release_expands :
    Stmt.release = [.op .cdesel, .wait, .op (.rxb 1), .wait] ∧ Stmt.asend 23 2 =
      [.wrArg 0, .op (.cmd 55), .wait, .wrArg 2, .op (.cmd 23), .wait] := by decide

/-! ### Witnesses: concrete inputs that meet the hypotheses of each obligation, one for each clause -/

/-- `standing` with READY_TICKS and the rest at their defaults; the card's bytes are the listed ones. -/
theorem standing_sends (i : Instr) (p : Pos) (card : List Byte) : (standing i p card).env.sends card :=
  Env.sends_of_card card [] (by simp [standing])

theorem test_witness_DecodeOfEncodeIsTheOp :
    WellFormed (.rxb 1) = true ∧ WellFormed (.rdblk 512) = true ∧ WellFormed (.cmd 63) = true ∧
      WellFormed (.wrblk .stop) = true := by decide
theorem test_witness_OnlyItsOwnWordDecodesToAnOp : decode 0x0200000A = .op (.rdblk 512) := by decide
theorem test_witness_DecoderAgreesWithTheMatchTable :
    ⟨"RXB", 0x00000009, 0xFC00FFFF, .len⟩ ∈ opTable ∧
      OpRow.selects ⟨"RXB", 0x00000009, 0xFC00FFFF, .len⟩ 0x02000009 :=
  ⟨by decide, by decide, show lenOk (lenField 0x02000009) by decide⟩
/-- One word of each clause of R96 at a boundary, beside legal neighbours. -/
theorem test_witness_IllegalWordsAreThoseListed :
    decode 0x00 = .illegal .unusedOpcode ∧ decode 0x0F = .illegal .unusedOpcode ∧ decode 0x0E = .op .media ∧
      decode 0x0000010E = .illegal .reservedBits ∧ decode 0x00004007 = .illegal .reservedBits ∧
      decode 0x04010009 = .illegal .reservedBits ∧ decode 0x00010109 = .illegal .reservedBits ∧
      decode 0x0201000A = .illegal .badLength ∧ decode 0x0000000A = .illegal .badLength ∧
      decode 0x0000040B = .illegal .reservedBits ∧ decode 0x0000030B = .illegal .badToken := by decide
theorem test_witness_AStepRunsTheDecodedOp :
    (let s := { standing .saddr .saddr [] with env := { Env.empty with script := [.engine, .tick] } }
     s.env.script = .engine :: [.tick] ∧ s.standsAt .saddr .saddr) ∧
    (let s := { State.reset with env := { Env.empty with script := [.host (.write 0 4 0x0C)] } }
     s.env.script = .host (.write 0 4 0x0C) :: [] ∧ s.rstN = true ∧ s.stat.busy = false ∧ decode 0x0C = .op .init) := by
  decide
theorem test_witness_AcceptanceLatchesTheOp :
    State.reset.rstN = true ∧ State.reset.stat.busy = false ∧ decode 0x3F07 = .op (.cmd 63) ∧
      decode 0x4007 = .illegal .reservedBits ∧
      (standing (.cmd 63) (startPos (.cmd 63)) []).standsAt (.cmd 63) (startPos (.cmd 63)) := by decide
theorem test_witness_IllegalOpFinishesAtOnce :
    State.reset.rstN = true ∧ State.reset.stat.busy = false ∧ decode 0xFFFFFFFF = .illegal .unusedOpcode := by decide
theorem test_witness_AnEngineStepGoesOnOrFinishes :
    (standing .init (.init .select) []).standsAt .init (.init .select) ∧ posFits .init (.init .select) = true ∧
      ∃ t, exec .init (standing .init (.init .select) []) = .next t := ⟨rfl, rfl, _, rfl⟩
theorem test_witness_NoOpChangesTheHostsRegisters :
    ∃ t, exec (.cmd 8) (standing (.cmd 8) (.cmd (.send (.frame 2))) []) = .next t := ⟨_, rfl⟩
/-- TXB is none of the ops that R24 names, so it meets the premises of every clause. -/
theorem test_witness_OnlyNamedOpsWriteStatFields :
    (∃ t, exec .txb (standing .txb (.txb .exchange) []) = .next t) ∧ Instr.txb ≠ .init ∧ Instr.txb ≠ .pwron ∧
      Instr.txb ≠ .pwroff ∧ Instr.txb ≠ .csel ∧ Instr.txb ≠ .cdesel ∧ Instr.txb ≠ .media := ⟨⟨_, rfl⟩, by decide⟩
theorem test_witness_OnlyNamedOpsArmTheCounters :
    ∃ t, exec (.wrblk .multi) (standing (.wrblk .multi) (.wrblk (.armBusy 0xE5)) []) = .next t := ⟨_, rfl⟩
theorem test_witness_AtMostOneExchangePerEngineStep :
    ∃ t, exec .init (standing .init (.init (.echo 0)) [0x12]) = .next t := ⟨_, rfl⟩
/-- A read step of each op, at DATA's last byte, and a step that is neither. -/
theorem test_witness_OnlyReadStepsWriteData :
    (∃ t, exec (.rxb 512) (standing (.rxb 512) (.rxb (.read 511)) [0x12]) = .next t) ∧
    (standing (.rxb 512) (.rxb (.read 511)) [0x12]).standsAt (.rxb 512) (.rxb (.read 511)) ∧
    (∃ t, exec (.rdblk 512) (standing (.rdblk 512) (.rdblk (.payload 511)) [0x12]) = .next t) ∧
    (standing (.rdblk 512) (.rdblk (.payload 511)) [0x12]).standsAt (.rdblk 512) (.rdblk (.payload 511)) ∧
    (∃ t, exec (.rxb 512) (standing (.rxb 512) (.rxb .finish) []) = .next t) ∧
    (∀ k, ¬ (standing (.rxb 512) (.rxb .finish) []).standsAt (.rxb 512) (.rxb (.read k))) := by
  refine ⟨⟨_, rfl⟩, rfl, ⟨_, rfl⟩, rfl, ⟨_, rfl⟩, ?_⟩
  simp [standing]
theorem test_witness_PowerStateGatesNoOp :
    Instr.wrblk .single ≠ .pwrchk ∧ ∃ t, exec (.wrblk .single) (standing (.wrblk .single) (.wrblk .token) []) = .next t :=
  ⟨by decide, _, rfl⟩
theorem test_witness_ChipSelectGatesNoOp : ∃ t, exec (.rxb 1) (standing (.rxb 1) (.rxb (.read 0)) [0x12]) = .next t := ⟨_, rfl⟩
theorem test_witness_WriteProtectionGatesNoOp :
    (∃ t, exec (.wrblk .single) (standing (.wrblk .single) (.wrblk (.payload 0)) []) = .next t) ∧
      Instr.wrblk .single ≠ .init ∧ Instr.wrblk .single ≠ .media := ⟨⟨_, rfl⟩, by decide⟩
theorem test_witness_BaseChangesNoBehaviour :
    ∃ t, step { idling [] with env := { Env.empty with script := [.host (.read 0x202 1)] } } = .next t := ⟨_, rfl⟩
/-- Power-on with two refusals, and with its reads used up at the edge POWERUP_POLL_READS = 1. -/
theorem test_witness_PwronWakesTheCard :
    (let bs := List.replicate 16 0xFF ++ ([0xFF, 0x00] ++ [0x01])
     let s := standing .pwron (.pwron (.seq .deselect)) bs
     s.standsAt .pwron (.pwron (.seq .deselect)) ∧ (List.replicate 16 (0xFF : Byte)).length = s.params.idleBytes + 6 ∧
       (∀ b ∈ ([0xFF, 0x00] : List Byte), b ≠ 0x01) ∧ ([0xFF, 0x00] : List Byte).length < s.params.pollReads ∧
       s.env.sends bs) ∧
    (let bs := List.replicate 16 0xFF ++ ([] ++ [0x55])
     let s := { standing .pwron (.pwron (.seq .deselect)) bs with params := { Config.defaults with pollReads := 1 } }
     s.standsAt .pwron (.pwron (.seq .deselect)) ∧ (List.replicate 16 (0xFF : Byte)).length = s.params.idleBytes + 6 ∧
       ([] : List Byte).length + 1 = s.params.pollReads ∧ s.env.sends bs) :=
  ⟨⟨rfl, rfl, by decide, by decide, standing_sends ..⟩, rfl, rfl, rfl, Env.sends_of_card _ [] rfl⟩
theorem test_witness_PwroffClearsPowerOnly :
    (standing .pwroff (.pwroff .clear) []).standsAt .pwroff (.pwroff .clear) := rfl
theorem test_witness_PwrchkReadsPower : (standing .pwrchk .pwrchk []).standsAt .pwrchk .pwrchk := rfl
theorem test_witness_ChipSelectOpsDriveTheLine :
    (standing .csel (.csel .drive) []).standsAt .csel (.csel .drive) ∧
      (standing .cdesel (.cdesel .drive) []).standsAt .cdesel (.cdesel .drive) := ⟨rfl, rfl⟩
theorem test_witness_WaitrdyFindsTheIdleByte :
    let s := standing .waitrdy (.waitrdy (.wait .arm)) ([0x00, 0x80] ++ [0xFF])
    s.standsAt .waitrdy (.waitrdy (.wait .arm)) ∧ s.params.readyTicks % 2 ^ s.params.tickW ≠ 0 ∧
      (∀ b ∈ ([0x00, 0x80] : List Byte), b ≠ 0xFF) ∧ s.env.sends ([0x00, 0x80] ++ [0xFF]) :=
  ⟨rfl, by decide, by decide, standing_sends ..⟩
/-- Found with the budget gone; expired; going on with one tick left. -/
theorem test_witness_WaitrdyTestsTheByteBeforeTheBudget :
    let s := standing .waitrdy (.waitrdy (.wait .test)) []
    s.standsAt .waitrdy (.waitrdy (.wait .test)) ∧ (s.setR 0xFF).int.r = 0xFF ∧ s.t2 = 0 ∧ (s.setR 0x00).int.r ≠ 0xFF ∧
      ({ s with t2 := 1 } : State).t2 ≠ 0 ∧ ({ s with t2 := 1 } : State).int.r ≠ 0xFF := by decide
theorem test_witness_WaitrdyGoesOnWithoutTicks :
    let s := standing .waitrdy (.waitrdy (.wait .arm)) [0x00, 0xFE, 0x80]
    s.standsAt .waitrdy (.waitrdy (.wait .arm)) ∧ s.params.readyTicks % 2 ^ s.params.tickW ≠ 0 ∧
      (∀ b ∈ ([0x00, 0xFE, 0x80] : List Byte), b ≠ 0xFF) ∧ s.env.sends [0x00, 0xFE, 0x80] ∧
      6 ≤ 2 * ([0x00, 0xFE, 0x80] : List Byte).length := ⟨rfl, by decide, by decide, standing_sends .., by decide⟩
/-- Index 12 answered at once; index 17 with nine bytes pending and no answer. -/
theorem test_witness_CmdSendsItsFrameAndPollsTheResponse :
    (let bs : List Byte := [0x00] ++ 0xFF :: (List.replicate 7 0x33 ++ ([] ++ [0x00]))
     let s := standing (.cmd 12) (.cmd (.send (.wait .arm))) bs
     s.standsAt (.cmd 12) (.cmd (.send (.wait .arm))) ∧ s.params.readyTicks % 2 ^ s.params.tickW ≠ 0 ∧
       (∀ b ∈ ([0x00] : List Byte), b ≠ 0xFF) ∧ (List.replicate 7 (0x33 : Byte)).length = 7 ∧
       (0x00 : Byte).msb = false ∧ ([] : List Byte).length < s.params.r1Tries ∧ s.env.sends bs) ∧
    (let bs : List Byte := [] ++ 0xFF :: (List.replicate 6 0x33 ++ (List.replicate 9 0x80 ++ [0xFF]))
     let s := standing (.cmd 17) (.cmd (.send (.wait .arm))) bs
     s.standsAt (.cmd 17) (.cmd (.send (.wait .arm))) ∧ s.params.readyTicks % 2 ^ s.params.tickW ≠ 0 ∧
       (List.replicate 6 (0x33 : Byte)).length = 6 ∧ (∀ b ∈ List.replicate 9 (0x80 : Byte), b.msb = true) ∧
       (0xFF : Byte).msb = true ∧ (List.replicate 9 (0x80 : Byte)).length + 1 = s.params.r1Tries ∧ s.env.sends bs) :=
  ⟨⟨rfl, by decide, by decide, rfl, rfl, by decide, standing_sends ..⟩,
    rfl, by decide, rfl, by decide, rfl, rfl, standing_sends ..⟩
theorem test_witness_CmdSendsNothingAfterAFailedGate :
    let s := standing (.cmd 17) (.cmd (.send (.wait .test))) []
    s.standsAt (.cmd 17) (.cmd (.send (.wait .test))) ∧ s.int.r ≠ 0xFF ∧ s.t2 = 0 := by decide
theorem test_witness_TxbExchangesOneByte : (standing .txb (.txb .exchange) [0x5A]).standsAt .txb (.txb .exchange) := rfl
theorem test_witness_RxbFillsDataInWireOrder :
    let bs : List Byte := [0x12, 0x34, 0x56]
    let s := standing (.rxb bs.length) (.rxb (.read 0)) bs
    s.standsAt (.rxb bs.length) (.rxb (.read 0)) ∧ 1 ≤ bs.length ∧ bs.length ≤ 512 ∧ s.env.sends bs :=
  ⟨rfl, by decide, by decide, standing_sends ..⟩
theorem test_witness_RdblkReceivesABlock :
    let bs : List Byte := [0xAB]
    let card := idles 2 ++ 0xFE :: (bs ++ [0x04, 0x81])
    let s := standing (.rdblk bs.length) (.rdblk .arm) card
    s.standsAt (.rdblk bs.length) (.rdblk .arm) ∧ 1 ≤ bs.length ∧ bs.length ≤ 512 ∧
      s.params.tokenTicks % 2 ^ s.params.tickW ≠ 0 ∧ s.env.sends card :=
  ⟨rfl, by decide, by decide, by decide, standing_sends ..⟩
/-- The token, an idle byte with a tick left, another byte, and an idle byte with none left. -/
theorem test_witness_RdblkTokenDecidesTheOutcome :
    let s := standing (.rdblk 16) (.rdblk .tokenTest) []
    s.standsAt (.rdblk 16) (.rdblk .tokenTest) ∧ (s.setR 0xFE).int.r = 0xFE ∧
      ({ s with t1 := 1 }.setR 0xFF).int.r = 0xFF ∧ ({ s with t1 := 1 } : State).t1 ≠ 0 ∧
      ((s.setR 0xFD).int.r ≠ 0xFF ∧ (s.setR 0xFD).int.r ≠ 0xFE) ∧ (s.setR 0xFF).int.r = 0xFF ∧ s.t1 = 0 := by decide
theorem test_witness_WrblkSendsABlock :
    let card : List Byte := [] ++ 0xFF :: (List.replicate 515 0xFF ++ ([0xFF] ++ 0xE5 :: (List.replicate 2 0x00 ++ [0xFF])))
    let s := standing (.wrblk .multi) (.wrblk (.wait .arm)) card
    Token.multi ≠ .stop ∧ s.standsAt (.wrblk .multi) (.wrblk (.wait .arm)) ∧
      s.params.readyTicks % 2 ^ s.params.tickW ≠ 0 ∧ s.params.busyTicks % 2 ^ s.params.tickW ≠ 0 ∧
      (List.replicate 515 (0xFF : Byte)).length = 515 ∧ (∀ x ∈ ([0xFF] : List Byte), x &&& 0x1F ≠ 0x05) ∧
      ([0xFF] : List Byte).length < s.params.respTries ∧ (0xE5 : Byte) &&& 0x1F = 0x05 ∧ (0xFF : Byte) ≠ 0x00 ∧
      s.env.sends card :=
  ⟨by decide, rfl, by decide, by decide, List.length_replicate, by decide, by decide, by decide, by decide,
    standing_sends ..⟩
theorem test_witness_WrblkStopSendsTheTokenOnly :
    let s := standing (.wrblk .stop) (.wrblk (.wait .arm)) ([0x00] ++ [0xFF, 0x00])
    s.standsAt (.wrblk .stop) (.wrblk (.wait .arm)) ∧ s.params.readyTicks % 2 ^ s.params.tickW ≠ 0 ∧
      (∀ b ∈ ([0x00] : List Byte), b ≠ 0xFF) ∧ s.env.sends ([0x00] ++ [0xFF, 0x00]) :=
  ⟨rfl, by decide, by decide, standing_sends ..⟩
/-- A failed readiness wait; a refused last try; a busy byte with a tick left; the drain's two ends. -/
theorem test_witness_WrblkFailsAsItsStagesSay :
    (let s := standing (.wrblk .single) (.wrblk (.wait .test)) []
     s.standsAt (.wrblk .single) (.wrblk (.wait .test)) ∧ s.int.r ≠ 0xFF ∧ s.t2 = 0) ∧
    (let s := (standing (.wrblk .single) (.wrblk .response) [0x0B]).setN 1
     s.standsAt (.wrblk .single) (.wrblk .response) ∧ s.cardByte &&& 0x1F ≠ 0x05 ∧ s.int.n = 1) ∧
    (let s := standing (.wrblk .single) (.wrblk (.busyTest 0xE5)) []
     s.standsAt (.wrblk .single) (.wrblk (.busyTest 0xE5)) ∧ s.int.r = 0x00 ∧ ({ s with t2 := 1 } : State).t2 ≠ 0 ∧
       s.t2 = 0 ∧ (s.setR 0x01).int.r ≠ 0x00) := by decide
theorem test_witness_InitWithoutDiskFailsAtOnce :
    let s := (standing .init (.init .diskTest) []).setNodisk true
    s.standsAt .init (.init .diskTest) ∧ s.stat.nodisk = true := by decide
theorem test_witness_InitCompletesByItsCandidate :
    (standing .init (.init .setCtype) [0xFF]).standsAt .init (.init .setCtype) := rfl
/-- What the four detection statements ask of the state. -/
theorem init_start (card : List Byte) :
    let s := standing .init (.init .diskTest) card
    s.standsAt .init (.init .diskTest) ∧ s.stat.nodisk = false ∧ s.params.readyTicks % 2 ^ s.params.tickW ≠ 0 ∧
      1 ≤ s.params.r1Tries ∧ 1 ≤ s.params.pollReads ∧ (idles 16).length = s.params.idleBytes + 6 ∧ s.env.sends card :=
  ⟨rfl, rfl, show 50 % 2 ^ 16 ≠ 0 by decide, show 1 ≤ 10 by decide, show 1 ≤ 8192 by decide, rfl, standing_sends ..⟩
/-- A refusal read at once after a busy byte; no card at all, every byte 0xFF, with POWERUP_POLL_READS = 2; each way in which a
command of INIT ends; the echo's last byte. -/
theorem test_witness_InitFailsOnARefusedIdleProbe :
    (let card : List Byte := idles 16 ++ ([0xFF] ++ 0x01 :: ([0x00] ++ 0xFF :: (idles 6 ++ ([0x80] ++ [0x05, 0xFF]))))
     let s := standing .init (.init .diskTest) card
     (s.standsAt .init (.init .diskTest) ∧ s.stat.nodisk = false ∧ s.params.readyTicks % 2 ^ s.params.tickW ≠ 0 ∧
       1 ≤ s.params.r1Tries ∧ 1 ≤ s.params.pollReads ∧ (idles 16).length = s.params.idleBytes + 6 ∧ s.env.sends card) ∧
       (∀ b ∈ ([0xFF] : List Byte), b ≠ 0x01) ∧ ([0xFF] : List Byte).length < s.params.pollReads ∧
       (∀ b ∈ ([0x00] : List Byte), b ≠ 0xFF) ∧ (idles 6).length = 6 ∧ (∀ b ∈ ([0x80] : List Byte), b.msb = true) ∧
       (0x05 : Byte).msb = false ∧ (0x05 : Byte) ≠ 0x01 ∧ ([0x80] : List Byte).length < s.params.r1Tries) ∧
    (let card : List Byte := idles 16 ++ ([0xFF] ++ 0xFF :: ([] ++ 0xFF :: (idles 6 ++ (idles 9 ++ [0xFF, 0xFF]))))
     let s := { standing .init (.init .diskTest) card with params := { Config.defaults with pollReads := 2 } }
     s.standsAt .init (.init .diskTest) ∧ s.stat.nodisk = false ∧ s.params.readyTicks % 2 ^ s.params.tickW ≠ 0 ∧
       (idles 16).length = s.params.idleBytes + 6 ∧ (∀ b ∈ ([0xFF] : List Byte), b ≠ 0x01) ∧
       ([0xFF] : List Byte).length + 1 = s.params.pollReads ∧ (idles 6).length = 6 ∧ (∀ b ∈ idles 9, b.msb = true) ∧
       (0xFF : Byte).msb = true ∧ (idles 9).length + 1 = s.params.r1Tries ∧ s.env.sends card) ∧
    (∀ c, ((standing .init (.init (.cmd c .count)) []).setR 0x01).endsWith c 0x01 ∧
      (((standing .init (.init (.cmd c .count)) []).setN 1).setR 0xFF).endsWith c 0xFF ∧
      (standing .init (.init (.cmd c (.wait .test))) []).endsWith c 0xFF) ∧
    (standing .init (.init (.echo 3)) [0xAA]).standsAt .init (.init (.echo 3)) :=
  ⟨⟨init_start _, by decide⟩,
    ⟨rfl, rfl, by decide, rfl, by decide, rfl, rfl, by decide, rfl, rfl, Env.sends_of_card _ [] rfl⟩,
    fun _ => ⟨.inl ⟨rfl, rfl, .inl rfl⟩, .inl ⟨rfl, rfl, .inr (Nat.le_refl 1)⟩, .inr ⟨rfl, rfl, show (0 : Byte) ≠ 0xFF by decide, rfl⟩⟩, rfl⟩
theorem test_witness_InitDetectsAnSdv2Card :
    let card := idles 16 ++ 0x01 :: (answer (idles 6) 0x01 ++ (answer (idles 6) 0x01 ++ ([0x00, 0x00, 0x01, 0xAA] ++
      (answer (idles 6) 0x01 ++ (answer (idles 6) 0x00 ++ (answer (idles 6) 0x00 ++ [0xC0, 0xFF, 0x80, 0x00, 0xFF]))))))
    let s := standing .init (.init .diskTest) card
    (s.standsAt .init (.init .diskTest) ∧ s.stat.nodisk = false ∧ s.params.readyTicks % 2 ^ s.params.tickW ≠ 0 ∧
      1 ≤ s.params.r1Tries ∧ 1 ≤ s.params.pollReads ∧ (idles 16).length = s.params.idleBytes + 6 ∧ s.env.sends card) ∧
      (idles 6).length = 6 ∧ (0x01 : Byte) ≤ 0x01 := ⟨init_start _, by decide⟩
theorem test_witness_InitDetectsAnSdv1Card :
    let card := idles 16 ++ 0x01 :: (answer (idles 6) 0x01 ++ (answer (idles 6) 0x05 ++ (answer (idles 6) 0x01 ++
      (answer (idles 6) 0x00 ++ (answer (idles 6) 0x00 ++ (answer (idles 6) 0x00 ++ (answer (idles 6) 0x00 ++ [0xFF])))))))
    let s := standing .init (.init .diskTest) card
    (s.standsAt .init (.init .diskTest) ∧ s.stat.nodisk = false ∧ s.params.readyTicks % 2 ^ s.params.tickW ≠ 0 ∧
      1 ≤ s.params.r1Tries ∧ 1 ≤ s.params.pollReads ∧ (idles 16).length = s.params.idleBytes + 6 ∧ s.env.sends card) ∧
      (idles 6).length = 6 ∧ (0x05 : Byte).msb = false ∧ (0x05 : Byte) ≠ 0x01 ∧ (0x01 : Byte) ≤ 0x01 ∧
      (0x00 : Byte) ≤ 0x01 := ⟨init_start _, by decide⟩
theorem test_witness_InitDetectsAnMmcCard :
    let card := idles 16 ++ 0x01 :: (answer (idles 6) 0x01 ++ (answer (idles 6) 0x05 ++ (answer (idles 6) 0x05 ++
      (answer (idles 6) 0x00 ++ (answer (idles 6) 0x00 ++ [0xFF])))))
    let s := standing .init (.init .diskTest) card
    (s.standsAt .init (.init .diskTest) ∧ s.stat.nodisk = false ∧ s.params.readyTicks % 2 ^ s.params.tickW ≠ 0 ∧
      1 ≤ s.params.r1Tries ∧ 1 ≤ s.params.pollReads ∧ (idles 16).length = s.params.idleBytes + 6 ∧ s.env.sends card) ∧
      (idles 6).length = 6 ∧ (0x05 : Byte).msb = false ∧ (0x05 : Byte) ≠ 0x01 ∧ ¬ (0x05 : Byte) ≤ 0x01 :=
  ⟨init_start _, by decide⟩
/-- Each loop's test with a tick left and with none. -/
theorem test_witness_InitNegotiatesUntilTheBudgetEnds :
    ∀ p ∈ [InitPos.loopTest .v2, .loopTest (.legacy .sd), .loopTest (.legacy .mmc)],
      (standing .init (.init p) []).standsAt .init (.init p) ∧
      ({ standing .init (.init p) [] with t1 := 1 } : State).t1 ≠ 0 ∧ (standing .init (.init p) []).t1 = 0 ∧
      (standing .init (.init p) []).int.ok = false := by decide
theorem test_witness_SaddrConvertsASector : (standing .saddr .saddr []).standsAt .saddr .saddr := rfl
theorem test_witness_MediaSetsTheFlags : (standing .media (.media .setNodisk) []).standsAt .media (.media .setNodisk) := rfl
/-- The bounds of both admitted ranges, and accesses just beyond them. -/
theorem test_witness_OnlyAdmittedAccessesHaveAnOutcome :
    State.reset.rstN = true ∧ locate 0x000 4 = some .op ∧ locate 0x1FC 4 = some .reserved ∧ locate 0x200 4 = none ∧
      locate 0x1FF 1 = none ∧ locate 0x200 1 = some (.data 0) ∧ locate 0x3FF 1 = some (.data 511) ∧
      locate 0x400 1 = none ∧ locate 0x002 4 = none := by decide
theorem test_witness_HostReadsReturnTheMap :
    State.reset.rstN = true ∧ State.reset.stat.busy = false ∧ (standing .txb (.txb .exchange) []).rstN = true ∧
      (standing .txb (.txb .exchange) []).stat.busy = true ∧ 0x01C % 4 = 0 ∧ 0x1FC % 4 = 0 := by decide
theorem test_witness_HostWritesWithNoOpRunning :
    (idling []).rstN = true ∧ (idling []).stat.busy = false ∧ 0x008 % 4 = 0 ∧ 0x1FC % 4 = 0 := by decide
theorem test_witness_WritesDuringAnOpAreDiscarded :
    (standing .txb (.txb .exchange) []).rstN = true ∧ (standing .txb (.txb .exchange) []).stat.busy = true ∧
      (∃ t, engineStep (standing .txb (.txb .exchange) []) = .next t) ∧ (∃ t, applyEvent .tick State.reset = .next t) ∧
      locate 0x3FF 1 = some (.data 511) ∧ (idling []).stat.busy = false ∧ (∃ t, hostStep (idling []) (.write 0 4 0x08) = .next t) ∧
      ∃ t, applyEvent .resetLow (idling []) = .next t :=
  ⟨rfl, rfl, ⟨_, rfl⟩, ⟨_, rfl⟩, rfl, rfl, ⟨_, rfl⟩, _, rfl⟩
/-- One statement of each kind, and one that reads beyond DATA. -/
theorem test_witness_HostProgramsMakeTheirAccesses :
    (∃ t, hostStep (idling [.op .txb]) (.write 0x000 4 (encode .txb)) = .next t) ∧
    (∃ t, hostStep (idling [.wrArg 7]) (.write 0x004 4 7) = .next t) ∧
    (∃ t, hostStep (idling [.wrCfg 1]) (.write 0x018 4 1) = .next t) ∧
    (∃ t, hostStep (idling [.wrData 511 9]) (.write (0x200 + 511) 1 ((9 : Byte).setWidth 32)) = .next t) ∧
    (∃ t, hostStep (idling [.rd .t2]) (.read 0x014 4) = .next t) ∧
    (∃ t, hostStep (idling [.rdData 0]) (.read (0x200 + 0) 1) = .next t) ∧
    hostStep (idling [.rdData 512]) (.read (0x200 + 512) 1) = .fault .hostAccessNotAdmitted ∧
    (idling [.rdData 512]).env.program = .rdData 512 :: [] ∧
    (idling [.wait]).rstN = true ∧ (idling [.wait]).env.program = .wait :: [] :=
  ⟨⟨_, rfl⟩, ⟨_, rfl⟩, ⟨_, rfl⟩, ⟨_, rfl⟩, ⟨_, rfl⟩, ⟨_, rfl⟩, rfl, rfl, rfl, rfl⟩
theorem test_witness_TicksCountDownAndSaturate :
    ({ State.reset with t1 := 1, env := { Env.empty with script := [.tick] } } : State).env.script = .tick :: [] := rfl
theorem test_witness_ResetBeatsARunningOp : ({ State.reset with rstN := false } : State).rstN = false := rfl

/-- Reset meets the invariant's hypothesis. -/
theorem test_reset_inv : State.reset.Inv where
  busy_iff := by decide
  busy_clear := by decide
  fail_iff := by decide
  latched := rfl
  running := by intro i p h; cases h
  counters := by decide
  data_wf := rfl
  reset_idle := by decide
  type_agrees := show Stat.typeAgrees _ by decide

/-- RDBLK 1 before its comparison, its payload AB checksummed. -/
def verifying : State :=
  { standing (.rdblk 1) (.rdblk (.verify 0x04 0x81)) [] with data := [(0, 0xAB)], crcchk := true }.setCrc 0x0481

theorem verifying_crc : verifying.int.crc = crc16 (verifying.dataBytes 1) := by decide

theorem test_verifying_inv : verifying.Inv where
  busy_iff := by decide
  busy_clear := by decide
  fail_iff := by decide
  latched := rfl
  running := by intro i p h; cases h; decide
  counters := by decide
  data_wf := rfl
  reset_idle := by decide
  type_agrees := show Stat.typeAgrees _ by decide

/-- WAITRDY, just accepted. -/
def waiting : State := standing .waitrdy (.waitrdy (.wait .arm)) []

theorem test_waiting_inv : waiting.Inv where
  busy_iff := by decide
  busy_clear := by decide
  fail_iff := by decide
  latched := rfl
  running := by intro i p h; cases h; decide
  counters := by decide
  data_wf := rfl
  reset_idle := by decide
  type_agrees := show Stat.typeAgrees _ by decide

theorem test_witness_EveryStepKeepsTheInvariant :
    ∃ t, waiting.Inv ∧ step { waiting with env := { Env.empty with script := [.engine] } } = .next t ∧
      ({ waiting with env := { Env.empty with script := [.engine] } } : State).Inv :=
  ⟨_, test_waiting_inv, rfl, { test_waiting_inv with }⟩
theorem test_witness_EveryStepKeepsTheRunningChecksum :
    ∃ t, verifying.Inv ∧ verifying.crcAgrees ∧ step { verifying with env := { Env.empty with script := [.tick] } } = .next t :=
  ⟨_, test_verifying_inv, fun _ => show verifying.int.crc = crc16 (verifying.dataBytes 1) from verifying_crc, rfl⟩
theorem test_witness_CardTypeIsNoneExactlyWhenNotInitialised :
    State.reset.Inv ∧ Sys2Proof.core.run 0 State.reset = .next State.reset ∧ ∀ p, ¬ State.reset.standsAt .init p :=
  ⟨test_reset_inv, rfl, by intro p h; cases h⟩
theorem test_witness_RdblkComparesTheChecksumOfData :
    verifying.Inv ∧ verifying.crcAgrees ∧ verifying.standsAt (.rdblk 1) (.rdblk (.verify 0x04 0x81)) :=
  ⟨test_verifying_inv, fun _ => show verifying.int.crc = crc16 (verifying.dataBytes 1) from verifying_crc, rfl⟩
theorem test_witness_CountedOpsAlwaysEnd :
    Instr.txb ∈ [Instr.pwron, .pwroff, .pwrchk, .csel, .cdesel, .txb, .saddr, .media] ∧ 512 ∈ List.range' 1 512 ∧
      (standing (.rxb 512) (startPos (.rxb 512)) []).standsAt (.rxb 512) (startPos (.rxb 512)) :=
  ⟨by decide, by simp [List.mem_range'_1], rfl⟩

/-- Engine steps and ticks in turn. -/
def turns (k : Nat) : Event := if k % 2 = 0 then .engine else .tick

/-- SADDR's only step, and the idle machine after it. -/
def shortRun : Nat → State
  | 0 => standing .saddr .saddr []
  | _ + 1 => nextOf (exec .saddr (standing .saddr .saddr []))

theorem test_short_inv : (shortRun 0).Inv where
  busy_iff := by decide
  busy_clear := by decide
  fail_iff := by decide
  latched := rfl
  running := by intro i p h; cases h; decide
  counters := by decide
  data_wf := rfl
  reset_idle := by decide
  type_agrees := show Stat.typeAgrees _ by decide

theorem test_witness_EveryOpEndsUnderTickFairness :
    RunOf turns shortRun ∧ TickBound 1 turns ∧ EngineGoesOn turns ∧ (shortRun 0).Inv ∧ (shortRun 0).stat.busy = true := by
  refine ⟨?_, ?_, ?_, test_short_inv, rfl⟩
  · intro k
    cases k with
    | zero => rfl
    | succ k => unfold turns; split <;> rfl
  · intro k hk
    refine ⟨0, ?_, by simp [engineCount]⟩
    unfold turns at hk ⊢
    split at hk
    · rw [if_neg (by omega)]
    · cases hk
  · intro k
    refine ⟨k % 2, ?_⟩
    unfold turns
    rw [if_pos (by omega)]

end Sys2Proof.Tests
end

/-! PROOFS. No op stops the machine (00_scope.md R14, 60_exceptions.md R290). -/

namespace Sys2Proof.Machine

/-! ### The ops that take steps of a shared sequence -/

/-- PWRON goes on with whatever the step of `powerOnSeq` leaves, a further position or its result (R131, R132). -/
theorem execPwron_eq_next (s : State) : ∃ t, execPwron s = .next t := by
  unfold execPwron
  split
  case h_1 p _ => rcases powerStep p s with ⟨_ | _, t⟩ <;> exact ⟨_, rfl⟩
  all_goals exact ⟨_, rfl⟩

/-- WAITRDY goes on with whatever the step of `waitReadyCore` leaves, the failed wait included (R130, R136). -/
theorem execWaitrdy_eq_next (s : State) : ∃ t, execWaitrdy s = .next t := by
  unfold execWaitrdy
  split
  case h_1 p _ => rcases waitStep p s with ⟨_ | _, t⟩ <;> exact ⟨_, rfl⟩
  all_goals exact ⟨_, rfl⟩

/-- CMD goes on with whatever the step of `sendCmd` leaves, the failed gate and the missing response included (R139, R140). -/
theorem execCmd_eq_next (idx : BitVec 6) (s : State) : ∃ t, execCmd idx s = .next t := by
  unfold execCmd
  split
  case h_1 p _ => rcases sendStep idx s.int.argl p s with ⟨_ | ⟨r, c⟩, t⟩ <;> exact ⟨_, rfl⟩
  all_goals exact ⟨_, rfl⟩

/-! ### Every op -/

/-- Settles O10: an op with no position starts, and at a position every branch of its meaning answers with a next state. -/
theorem everyOpHasANextState : Obligations.EveryOpHasANextState := by
  intro i s
  cases i with
  | pwron => exact execPwron_eq_next s
  | waitrdy => exact execWaitrdy_eq_next s
  | cmd idx => exact execCmd_eq_next idx s
  | pwroff | pwrchk | csel | cdesel | txb | rxb | rdblk | wrblk | init | saddr | media =>
    simp only [exec, execPwroff, execPwrchk, execCsel, execCdesel, execTxb, execRxb, execRdblk, execWrblk, execInit, execSaddr,
      execMedia]
    split <;> exact ⟨_, rfl⟩

end Sys2Proof.Machine

/-! PROOFS. What one engine step can do: it writes one thing and goes on, or it is `finish` (10_state.md R37). -/

namespace Sys2Proof.Machine

/-! ### The writes of a step that goes on -/

/-- What an engine step that goes on within its op does to the state, the bytes and values it uses filled in. -/
inductive Act where
  | keep
  | tx (b : Byte)
  | rx
  | exchange (b : Byte)
  | setCs (f : Bool)
  | setPwr (f : Bool)
  | setNoinit (f : Bool)
  | setNodisk (f : Bool)
  | setWprot (f : Bool)
  | setCtype (c : CardType)
  | setN (n : Nat)
  | setType (c : CardType)
  | setOk (f : Bool)
  | clearCrc
  | armT1 (k : Nat)
  | armT2 (k : Nat)
  /-- `int.E[k] <- Rx()`. -/
  | rxEcho (k : Fin 4)
  /-- `int.O[k] <- Rx()`. -/
  | rxOcr (k : Fin 4)
  /-- `DATA[k] <- Rx()` of RXB. -/
  | rxData (k : Nat)
  /-- `DATA[k] <- Rx()` of RDBLK, which also feeds int.CRC. -/
  | rxPayload (k : Nat)

/-- The state after the write. -/
def Act.apply : Act → State → State
  | .keep, s => s
  | .tx b, s => s.tx b
  | .rx, s => s.rx
  | .exchange b, s => s.exchange b
  | .setCs f, s => s.setCs f
  | .setPwr f, s => s.setPwr f
  | .setNoinit f, s => s.setNoinit f
  | .setNodisk f, s => s.setNodisk f
  | .setWprot f, s => s.setWprot f
  | .setCtype c, s => s.setCtype c
  | .setN n, s => s.setN n
  | .setType c, s => s.setType c
  | .setOk f, s => s.setOk f
  | .clearCrc, s => s.setCrc 0
  | .armT1 k, s => s.armT1 k
  | .armT2 k, s => s.armT2 k
  | .rxEcho k, s => s.rx.setEcho k s.cardByte
  | .rxOcr k, s => s.rx.setOcr k s.cardByte
  | .rxData k, s => s.rx.setData k s.cardByte
  | .rxPayload k, s => (s.rx.setData k s.cardByte).runCrc s.cardByte

/-- Op `i` may make the write at its position `p`: the "written by" column of 10_state.md R24, and DATA at the read steps of
RXB and RDBLK only (R34). -/
def Act.permitted (i : Instr) (p : Pos) : Act → Prop
  | .setCs _ => i = .csel ∨ i = .cdesel ∨ i = .pwron ∨ i = .init
  | .setPwr _ => i = .pwron ∨ i = .pwroff ∨ i = .init
  | .setNoinit _ | .setCtype _ => i = .init
  | .setNodisk _ | .setWprot _ => i = .media
  | .rxData k => p = .rxb (.read k)
  | .rxPayload k => p = .rdblk (.payload k)
  | .keep | .tx _ | .rx | .exchange _ | .setN _ | .setType _ | .setOk _ | .clearCrc | .armT1 _ | .armT2 _ | .rxEcho _
  | .rxOcr _ => True

/-! ### What every write leaves alone -/

@[simp] theorem Act.apply_params (a : Act) (s : State) : (a.apply s).params = s.params := by cases a <;> simp [Act.apply]
@[simp] theorem Act.apply_op (a : Act) (s : State) : (a.apply s).op = s.op := by cases a <;> simp [Act.apply]
@[simp] theorem Act.apply_arg (a : Act) (s : State) : (a.apply s).arg = s.arg := by cases a <;> simp [Act.apply]
@[simp] theorem Act.apply_rdata (a : Act) (s : State) : (a.apply s).rdata = s.rdata := by cases a <;> simp [Act.apply]
@[simp] theorem Act.apply_crcchk (a : Act) (s : State) : (a.apply s).crcchk = s.crcchk := by cases a <;> simp [Act.apply]
@[simp] theorem Act.apply_rstN (a : Act) (s : State) : (a.apply s).rstN = s.rstN := by cases a <;> simp [Act.apply]
@[simp] theorem Act.apply_stat_busy (a : Act) (s : State) : (a.apply s).stat.busy = s.stat.busy := by
  cases a <;> simp [Act.apply]
@[simp] theorem Act.apply_stat_done (a : Act) (s : State) : (a.apply s).stat.done = s.stat.done := by
  cases a <;> simp [Act.apply]
@[simp] theorem Act.apply_stat_fail (a : Act) (s : State) : (a.apply s).stat.fail = s.stat.fail := by
  cases a <;> simp [Act.apply]
@[simp] theorem Act.apply_stat_cause (a : Act) (s : State) : (a.apply s).stat.cause = s.stat.cause := by
  cases a <;> simp [Act.apply]
@[simp] theorem Act.apply_stat_ovr (a : Act) (s : State) : (a.apply s).stat.ovr = s.stat.ovr := by
  cases a <;> simp [Act.apply]
@[simp] theorem Act.apply_int_opl (a : Act) (s : State) : (a.apply s).int.opl = s.int.opl := by cases a <;> simp [Act.apply]
@[simp] theorem Act.apply_int_argl (a : Act) (s : State) : (a.apply s).int.argl = s.int.argl := by
  cases a <;> simp [Act.apply]
@[simp] theorem Act.apply_env_script (a : Act) (s : State) : (a.apply s).env.script = s.env.script := by
  cases a <;> simp [Act.apply]
@[simp] theorem Act.apply_env_program (a : Act) (s : State) : (a.apply s).env.program = s.env.program := by
  cases a <;> simp [Act.apply]
@[simp] theorem Act.apply_env_readValue (a : Act) (s : State) : (a.apply s).env.readValue = s.env.readValue := by
  cases a <;> simp [Act.apply]
@[simp] theorem Act.apply_env_resets (a : Act) (s : State) : (a.apply s).env.resets = s.env.resets := by
  cases a <;> simp [Act.apply]

/-- A counter that a step arms fits in TICK_W bits (R32). -/
theorem Act.apply_counters (a : Act) {s : State} (h : s.t1 < 2 ^ s.params.tickW ∧ s.t2 < 2 ^ s.params.tickW) :
    (a.apply s).t1 < 2 ^ s.params.tickW ∧ (a.apply s).t2 < 2 ^ s.params.tickW := by
  have hmod (k : Nat) : k % 2 ^ s.params.tickW < 2 ^ s.params.tickW := Nat.mod_lt _ (Nat.two_pow_pos _)
  cases a with
  | armT1 k => exact ⟨hmod k, h.2⟩
  | armT2 k => exact ⟨h.1, hmod k⟩
  | _ => simpa [Act.apply] using h

/-- Every write keeps DATA in canonical form. -/
theorem Act.apply_data_wf (a : Act) {s : State} (h : Memory.wf s.data = true) : Memory.wf (a.apply s).data = true := by
  cases a with
  | rxData k => exact State.setData_wf (s := s.rx) k s.cardByte h
  | rxPayload k => simpa [Act.apply] using State.setData_wf (s := s.rx) k s.cardByte h
  | _ => exact h

/-! ### The same state at another cs level -/

/-- The state with another cs level and another byte stream: what no op reads. -/
def State.atCs (s : State) (f : Bool) (x : List Exchange) : State :=
  { s with stat := { s.stat with cs := f }, env := { s.env with bus := x } }

@[simp] theorem State.atCs_int (s : State) (f : Bool) (x : List Exchange) : (s.atCs f x).int = s.int := rfl
@[simp] theorem State.atCs_t1 (s : State) (f : Bool) (x : List Exchange) : (s.atCs f x).t1 = s.t1 := rfl
@[simp] theorem State.atCs_nodisk (s : State) (f : Bool) (x : List Exchange) :
    (s.atCs f x).stat.nodisk = s.stat.nodisk := rfl
@[simp] theorem State.atCs_self (s : State) : s.atCs s.stat.cs s.env.bus = s := rfl

/-- `finish` with int.E and int.O given: all ops but INIT keep the two. -/
def State.finishWith (s : State) (c : Cause) (v : Word) (e o : Vector Byte 4) : State :=
  { s with int := { s.int with echo := e, ocr := o } }.finish c (some v)

/-- The step of op `i` at `p` makes one write that `i` may make there and goes on in `i`, whatever cs and the byte stream are. -/
def GoesOn (i : Instr) (p : Pos) (s : State) : Prop :=
  ∃ (a : Act) (q : Pos), a.permitted i p ∧ posFits i q = true ∧
    ∀ f x, exec i (s.atCs f x) = .next ((a.apply (s.atCs f x)).goto i q)

/-- The step of op `i` is its `finish`, whatever cs and the byte stream are. -/
def Finishes (i : Instr) (s : State) : Prop :=
  ∃ c v e o, (i ≠ .init → e = s.int.echo ∧ o = s.int.ocr) ∧
    ∀ f x, exec i (s.atCs f x) = .next ((s.atCs f x).finishWith c v e o)

/-! ### The shared sequences -/

/-- A step of the readiness wait makes one write that every op may make (R130). -/
theorem waitStep_act (p : WaitPos) (s : State) :
    ∃ (y : Progress WaitPos Byte) (a : Act), (∀ i q, a.permitted i q) ∧
      ∀ f x, waitStep p (s.atCs f x) = (y, a.apply (s.atCs f x)) := by
  cases p with
  | arm => exact ⟨.more .read, .armT2 s.params.readyTicks, fun _ _ => trivial, fun _ _ => rfl⟩
  | read => exact ⟨.more .test, .rx, fun _ _ => trivial, fun _ _ => rfl⟩
  | test =>
    refine ⟨if s.int.r = idleByte ∨ s.t2 = 0 then .done s.int.r else .more .read, .keep, fun _ _ => trivial, fun f x => ?_⟩
    exact (apply_ite (·, s.atCs f x) _ _ _).symm

/-- A step of the power-on sequence makes one write that PWRON and INIT may make (R132). -/
theorem powerStep_act (p : PowerPos) (s : State) :
    ∃ (y : Progress PowerPos Byte) (a : Act), (∀ q, a.permitted .pwron q ∧ a.permitted .init q) ∧
      ∀ f x, powerStep p (s.atCs f x) = (y, a.apply (s.atCs f x)) := by
  refine ⟨(powerStep p s).1, ?_⟩
  cases p with
  | deselect | release => exact ⟨.setCs false, by simp [Act.permitted], fun _ _ => rfl⟩
  | idle k => exact ⟨.tx idleByte, by simp [Act.permitted], fun _ _ => rfl⟩
  | select => exact ⟨.setCs true, by simp [Act.permitted], fun _ _ => rfl⟩
  | frame k => exact ⟨.tx (frameByte 0 0 k), by simp [Act.permitted], fun _ _ => rfl⟩
  | tries => exact ⟨.setN s.params.pollReads, by simp [Act.permitted], fun _ _ => rfl⟩
  | poll => exact ⟨.rx, by simp [Act.permitted], fun _ _ => rfl⟩
  | count => exact ⟨.setN (s.int.n - 1), by simp [Act.permitted], fun _ _ => rfl⟩
  | setPower => exact ⟨.setPwr true, by simp [Act.permitted], fun _ _ => rfl⟩

/-- A step of `sendCmd` makes one write that every op may make (R139). -/
theorem sendStep_act (idx : BitVec 6) (arg : Word) (p : SendPos) (s : State) :
    ∃ (y : Progress SendPos (Byte × Cause)) (a : Act), (∀ i q, a.permitted i q) ∧
      ∀ f x, sendStep idx arg p (s.atCs f x) = (y, a.apply (s.atCs f x)) := by
  cases p with
  | wait q =>
    obtain ⟨y, a, ha, h⟩ := waitStep_act q s
    cases y with
    | more q' => exact ⟨.more (.wait q'), a, ha, fun f x => by simp only [sendStep, h]⟩
    | done w =>
      refine ⟨if w = idleByte then .more (.frame 0) else .done (0xFF, .notReady), a, ha, fun f x => ?_⟩
      simp only [sendStep, h]
      exact (apply_ite (·, a.apply (s.atCs f x)) _ _ _).symm
  | frame k => exact ⟨_, .tx (frameByte idx arg k), fun _ _ => trivial, fun _ _ => rfl⟩
  | stuff => exact ⟨_, .rx, fun _ _ => trivial, fun _ _ => rfl⟩
  | tries => exact ⟨_, .setN s.params.r1Tries, fun _ _ => trivial, fun _ _ => rfl⟩
  | poll => exact ⟨_, .rx, fun _ _ => trivial, fun _ _ => rfl⟩
  | count => exact ⟨(sendStep idx arg .count s).1, .setN (s.int.n - 1), fun _ _ => trivial, fun _ _ => rfl⟩

/-! ### Each op's step at its position -/

/-- Where RDBLK runs, its meaning is its step. -/
theorem exec_rdblk_at {len : Nat} {p : RdblkPos} {s : State} (h : s.standsAt (.rdblk len) (.rdblk p)) :
    exec (.rdblk len) s = .next (rdblkStep len p s) := by
  simp only [exec, execRdblk, State.posOf_eq h]

/-- Where WRBLK runs, its meaning is its step. -/
theorem exec_wrblk_at {tok : Token} {p : WrblkPos} {s : State} (h : s.standsAt (.wrblk tok) (.wrblk p)) :
    exec (.wrblk tok) s = .next (wrblkStep tok p s) := by
  simp only [exec, execWrblk, State.posOf_eq h]

/-- Where INIT runs, its meaning is its step. -/
theorem exec_init_at {p : InitPos} {s : State} (h : s.standsAt .init (.init p)) :
    exec .init s = .next (initStep p s) := by
  simp only [exec, execInit, State.posOf_eq h]

/-- The other cs level leaves the engine where it stands. -/
theorem State.posOf_atCs {s : State} {i : Instr} {p : Pos} (h : s.standsAt i p) (f : Bool) (x : List Exchange) :
    (s.atCs f x).posOf i = some p := State.posOf_eq h

/-- A step that is a plain `finish`. -/
theorem Finishes.of_finish {i : Instr} {s : State} (c : Cause) (v : Word)
    (h : ∀ f x, exec i (s.atCs f x) = .next ((s.atCs f x).finish c (some v))) : Finishes i s :=
  ⟨c, v, s.int.echo, s.int.ocr, fun _ => ⟨rfl, rfl⟩, h⟩

/-- PWRON's step, position by position (R131, R132). -/
theorem pwron_goesOn_or_finishes {s : State} {p : PwronPos} (h : s.standsAt .pwron (.pwron p)) :
    GoesOn .pwron (.pwron p) s ∨ Finishes .pwron s := by
  have hpos := State.posOf_atCs h
  cases p with
  | seq p =>
    obtain ⟨y, a, ha, hstep⟩ := powerStep_act p s
    cases y with
    | more q => exact .inl ⟨a, .pwron (.seq q), (ha _).1, rfl, fun f x => by simp only [exec, execPwron, hpos, hstep]⟩
    | done r => exact .inl ⟨a, .pwron .finish, (ha _).1, rfl, fun f x => by simp only [exec, execPwron, hpos, hstep]⟩
  | finish => exact .inr (.of_finish .none (zext s.int.r) fun f x => by simp only [exec, execPwron, hpos]; rfl)

/-- WAITRDY's step, position by position (R130, R136). -/
theorem waitrdy_goesOn_or_finishes {s : State} {p : WaitrdyPos} (h : s.standsAt .waitrdy (.waitrdy p)) :
    GoesOn .waitrdy (.waitrdy p) s ∨ Finishes .waitrdy s := by
  have hpos := State.posOf_atCs h
  cases p with
  | wait p =>
    obtain ⟨y, a, ha, hstep⟩ := waitStep_act p s
    cases y with
    | more q => exact .inl ⟨a, .waitrdy (.wait q), ha _ _, rfl, fun f x => by simp only [exec, execWaitrdy, hpos, hstep]⟩
    | done w => exact .inl ⟨a, .waitrdy .finish, ha _ _, rfl, fun f x => by simp only [exec, execWaitrdy, hpos, hstep]⟩
  | finish =>
    exact .inr (.of_finish (if s.int.r = idleByte then .none else .notReady) (zext s.int.r) fun f x => by
      simp only [exec, execWaitrdy, hpos]; rfl)

/-- CMD's step, position by position (R139, R140). -/
theorem cmd_goesOn_or_finishes {idx : BitVec 6} {s : State} {p : CmdPos} (h : s.standsAt (.cmd idx) (.cmd p)) :
    GoesOn (.cmd idx) (.cmd p) s ∨ Finishes (.cmd idx) s := by
  have hpos := State.posOf_atCs h
  cases p with
  | send p =>
    obtain ⟨y, a, ha, hstep⟩ := sendStep_act idx s.int.argl p s
    cases y with
    | more q =>
      refine .inl ⟨a, .cmd (.send q), ha _ _, rfl, fun f x => ?_⟩
      simp only [exec, execCmd, hpos, State.atCs_int, hstep]
    | done w =>
      refine .inl ⟨a, .cmd (.finish w.1 w.2), ha _ _, rfl, fun f x => ?_⟩
      simp only [exec, execCmd, hpos, State.atCs_int, hstep]
  | finish r c => exact .inr (.of_finish c (zext r) fun f x => by simp only [exec, execCmd, hpos])

/-- The token test only chooses where RDBLK goes, but for the start token, which clears int.CRC (R182). -/
theorem rdblkTokenTest_act (s : State) :
    ∃ (q : RdblkPos) (a : Act), (∀ i p, a.permitted i p) ∧
      ∀ f x, rdblkTokenTest (s.atCs f x) = (q, a.apply (s.atCs f x)) := by
  by_cases hidle : s.int.r = idleByte
  · by_cases hticks : s.t1 = 0
    · exact ⟨.finish .timeout idleByte, .keep, fun _ _ => trivial, fun _ _ => (if_pos hidle).trans (if_pos hticks)⟩
    · exact ⟨.token, .keep, fun _ _ => trivial, fun _ _ => (if_pos hidle).trans (if_neg hticks)⟩
  · by_cases htoken : s.int.r = startToken
    · exact ⟨.payload 0, .clearCrc, fun _ _ => trivial, fun _ _ => (if_neg hidle).trans (if_pos htoken)⟩
    · exact ⟨.finish .badToken s.int.r, .keep, fun _ _ => trivial, fun _ _ => (if_neg hidle).trans (if_neg htoken)⟩

/-- RDBLK's step, position by position (R181). -/
theorem rdblk_goesOn_or_finishes {len : Nat} {s : State} {p : RdblkPos} (h : s.standsAt (.rdblk len) (.rdblk p)) :
    GoesOn (.rdblk len) (.rdblk p) s ∨ Finishes (.rdblk len) s := by
  have hstep (f x) := exec_rdblk_at (s := s.atCs f x) h
  cases p with
  | arm => exact .inl ⟨.armT1 s.params.tokenTicks, .rdblk .token, trivial, rfl, hstep⟩
  | token => exact .inl ⟨.rx, .rdblk .tokenTest, trivial, rfl, hstep⟩
  | tokenTest =>
    obtain ⟨q, a, ha, htest⟩ := rdblkTokenTest_act s
    exact .inl ⟨a, .rdblk q, ha _ _, rfl, fun f x => by rw [hstep, rdblkStep, htest]⟩
  | payload i =>
    exact .inl ⟨.rxPayload i, .rdblk (if i + 1 < len then .payload (i + 1) else .check1), rfl, rfl, hstep⟩
  | check1 => exact .inl ⟨.rx, .rdblk (.check0 s.cardByte), trivial, rfl, hstep⟩
  | check0 c1 => exact .inl ⟨.rx, .rdblk (.verify c1 s.cardByte), trivial, rfl, hstep⟩
  | verify c1 c0 => exact .inr (.of_finish (rdblkCause s c1 c0) _ hstep)
  | finish c r => exact .inr (.of_finish c (zext r) hstep)

/-- WRBLK's step, position by position (R186). -/
theorem wrblk_goesOn_or_finishes {tok : Token} {s : State} {p : WrblkPos} (h : s.standsAt (.wrblk tok) (.wrblk p)) :
    GoesOn (.wrblk tok) (.wrblk p) s ∨ Finishes (.wrblk tok) s := by
  have hstep (f x) := exec_wrblk_at (s := s.atCs f x) h
  cases p with
  | wait p =>
    obtain ⟨y, a, ha, hwait⟩ := waitStep_act p s
    cases y with
    | more q => exact .inl ⟨a, .wrblk (.wait q), ha _ _, rfl, fun f x => by rw [hstep, wrblkStep, hwait]⟩
    | done w => exact .inl ⟨a, .wrblk (if w = idleByte then .token else .finish .notReady w), ha _ _, rfl,
        fun f x => by rw [hstep, wrblkStep, hwait]⟩
  | token =>
    exact .inl ⟨.tx (tokByte tok), .wrblk (if tok = .stop then .finish .none 0xFF else .payload 0), trivial, rfl, hstep⟩
  | payload i =>
    exact .inl ⟨.tx (s.dataByte i), .wrblk (if i + 1 < blockLen then .payload (i + 1) else .filler 0), trivial, rfl, hstep⟩
  | filler k => exact .inl ⟨.tx 0xFF, .wrblk (if k = 0 then .filler 1 else .tries), trivial, rfl, hstep⟩
  | tries => exact .inl ⟨.setN s.params.respTries, .wrblk .response, trivial, rfl, hstep⟩
  | response => exact .inl ⟨.rx, .wrblk .count, trivial, rfl, hstep⟩
  | count =>
    exact .inl ⟨.setN (s.int.n - 1), .wrblk (afterRespCount s.int.r (s.int.n - 1)), trivial, rfl, hstep⟩
  | busy r => exact .inl ⟨.rx, .wrblk (.busyTest r), trivial, rfl, hstep⟩
  | armBusy r => exact .inl ⟨.armT2 s.params.busyTicks, .wrblk (.busy r), trivial, rfl, hstep⟩
  | busyTest r => exact .inl ⟨.keep, .wrblk (wrblkBusyTest s r), trivial, rfl, hstep⟩
  | finish c r => exact .inr (.of_finish c (zext r) hstep)

/-- INIT's step, position by position (R220). -/
theorem init_goesOn_or_finishes {s : State} {p : InitPos} (h : s.standsAt .init (.init p)) :
    GoesOn .init (.init p) s ∨ Finishes .init s := by
  have hstep (f x) := exec_init_at (s := s.atCs f x) h
  cases p with
  | diskTest =>
    by_cases hdisk : s.stat.nodisk = true
    · refine .inr ⟨.notReady, s.stat.status, Internal.reset.echo, Internal.reset.ocr, fun hne => absurd rfl hne,
        fun f x => ?_⟩
      rw [hstep, initStep, State.atCs_nodisk, if_pos hdisk]
      rfl
    · refine .inl ⟨.keep, .init (.power .deselect), trivial, rfl, fun f x => ?_⟩
      rw [hstep, initStep, State.atCs_nodisk, if_neg hdisk]
      rfl
  | power p =>
    obtain ⟨y, a, ha, hpower⟩ := powerStep_act p s
    cases y with
    | more q => exact .inl ⟨a, .init (.power q), (ha _).2, rfl, fun f x => by rw [hstep, initStep, hpower]; rfl⟩
    | done r => exact .inl ⟨a, .init .select, (ha _).2, rfl, fun f x => by rw [hstep, initStep, hpower]; rfl⟩
  | cmd c p =>
    obtain ⟨y, a, ha, hsend⟩ := sendStep_act c.index c.argument p s
    cases y with
    | more q => exact .inl ⟨a, .init (.cmd c q), ha _ _, rfl, fun f x => by rw [hstep, initStep, hsend]; rfl⟩
    | done w => exact .inl ⟨a, .init (initReply c w.1), ha _ _, rfl, fun f x => by rw [hstep, initStep, hsend]; rfl⟩
  | select => exact .inl ⟨.setCs true, .init .clearType, by simp [Act.permitted], rfl, hstep⟩
  | deselect => exact .inl ⟨.setCs false, .init .trailing, by simp [Act.permitted], rfl, hstep⟩
  | clearType => exact .inl ⟨.setType .none, .init (InitCmd.start .goIdle), trivial, rfl, hstep⟩
  | ocrType => exact .inl ⟨.setType (ocrType s.int.ocr), .init .setCtype, trivial, rfl, hstep⟩
  | legacyType t => exact .inl ⟨.setType t.type, .init .setCtype, trivial, rfl, hstep⟩
  | armBudget => exact .inl ⟨.armT1 s.params.initTicks, .init (InitCmd.start .ifCond), trivial, rfl, hstep⟩
  | echo k => exact .inl ⟨.rxEcho k, .init (initAfterEcho k (s.int.echo.set k s.cardByte)), trivial, rfl, hstep⟩
  | ocr k => exact .inl ⟨.rxOcr k, .init (initAfterOcr k), trivial, rfl, hstep⟩
  | clearOk l => exact .inl ⟨.setOk false, .init l.first, trivial, rfl, hstep⟩
  | setOk l => exact .inl ⟨.setOk true, .init (afterLoop l true), trivial, rfl, hstep⟩
  | loopTest l => exact .inl ⟨.keep, .init (if s.t1 = 0 then afterLoop l s.int.ok else l.first), trivial, rfl, hstep⟩
  | setCtype => exact .inl ⟨.setCtype s.int.type, .init .deselect, rfl, rfl, hstep⟩
  | trailing => exact .inl ⟨.rx, .init (if s.int.type = .none then .powerOff else .clearNoinit), trivial, rfl, hstep⟩
  | powerOff => exact .inl ⟨.setPwr false, .init .setNoinit, by simp [Act.permitted], rfl, hstep⟩
  | setNoinit => exact .inl ⟨.setNoinit true, .init (.finish .initFail), rfl, rfl, hstep⟩
  | clearNoinit => exact .inl ⟨.setNoinit false, .init (.finish .none), rfl, rfl, hstep⟩
  | finish c => exact .inr ⟨c, s.stat.status, Internal.reset.echo, Internal.reset.ocr, fun hne => absurd rfl hne, hstep⟩

/-- An engine step of a running op makes one write and goes on within the op, or is its `finish` (R37, R281). -/
theorem exec_goesOn_or_finishes {i : Instr} {p : Pos} {s : State} (h : s.standsAt i p) (hfit : posFits i p = true) :
    GoesOn i p s ∨ Finishes i s := by
  have hpos := State.posOf_atCs h
  cases i <;> cases p <;> cases hfit
  case pwron.pwron => exact pwron_goesOn_or_finishes h
  case waitrdy.waitrdy => exact waitrdy_goesOn_or_finishes h
  case cmd.cmd => exact cmd_goesOn_or_finishes h
  case rdblk.rdblk => exact rdblk_goesOn_or_finishes h
  case wrblk.wrblk => exact wrblk_goesOn_or_finishes h
  case init.init => exact init_goesOn_or_finishes h
  case pwroff.pwroff p =>
    cases p with
    | clear =>
      exact .inl ⟨.setPwr false, .pwroff .finish, by simp [Act.permitted], rfl, fun f x => by
        simp only [exec, execPwroff, hpos, Act.apply]⟩
    | finish => exact .inr (.of_finish .none 0 fun f x => by simp only [exec, execPwroff, hpos])
  case pwrchk.pwrchk =>
    exact .inr (.of_finish .none (flagBit s.stat.pwr 0) fun f x => by simp only [exec, execPwrchk, hpos]; rfl)
  case csel.csel p =>
    cases p with
    | drive =>
      exact .inl ⟨.setCs true, .csel .finish, .inl rfl, rfl, fun f x => by simp only [exec, execCsel, hpos, Act.apply]⟩
    | finish => exact .inr (.of_finish .none 1 fun f x => by simp only [exec, execCsel, hpos])
  case cdesel.cdesel p =>
    cases p with
    | drive =>
      exact .inl ⟨.setCs false, .cdesel .finish, .inr (.inl rfl), rfl, fun f x => by
        simp only [exec, execCdesel, hpos, Act.apply]⟩
    | finish => exact .inr (.of_finish .none 0 fun f x => by simp only [exec, execCdesel, hpos])
  case txb.txb p =>
    cases p with
    | exchange =>
      exact .inl ⟨.exchange (txbByte s.int.argl), .txb .finish, trivial, rfl, fun f x => by
        simp only [exec, execTxb, hpos, State.atCs_int, Act.apply]⟩
    | finish => exact .inr (.of_finish .none (zext s.int.r) fun f x => by
        simp only [exec, execTxb, hpos, State.atCs_int])
  case rxb.rxb len p =>
    cases p with
    | read k =>
      exact .inl ⟨.rxData k, .rxb (if k + 1 < len then .read (k + 1) else .finish), rfl, rfl, fun f x => by
        simp only [exec, execRxb, hpos, Act.apply]⟩
    | finish => exact .inr (.of_finish .none (zext (s.dataByte (len - 1))) fun f x => by
        simp only [exec, execRxb, hpos]; rfl)
  case saddr.saddr =>
    exact .inr (.of_finish .none (s.cardAddress s.int.argl) fun f x => by simp only [exec, execSaddr, hpos]; rfl)
  case media.media p =>
    cases p with
    | setNodisk =>
      exact .inl ⟨.setNodisk (mediaNodisk s.int.argl), .media .setWprot, rfl, rfl, fun f x => by
        simp only [exec, execMedia, hpos, State.atCs_int, Act.apply]⟩
    | setWprot =>
      exact .inl ⟨.setWprot (mediaWprot s.int.argl), .media .finish, rfl, rfl, fun f x => by
        simp only [exec, execMedia, hpos, State.atCs_int, Act.apply]⟩
    | finish => exact .inr (.of_finish .none s.stat.status fun f x => by simp only [exec, execMedia, hpos]; rfl)

/-- Where op `i` does not run, or runs with a position of another op, `exec i` is its start (R280; log 10). -/
theorem exec_begin_of_misfit {i : Instr} {s : State} (h : ∀ p, s.standsAt i p → posFits i p = false) :
    exec i s = .next (s.begin i) := by
  cases hpos : s.posOf i with
  | none => exact exec_begin hpos
  | some p =>
    have hfit := h p (State.standsAt_of_posOf hpos)
    cases i <;> cases p <;> cases hfit <;>
      simp only [exec, execPwron, execPwroff, execPwrchk, execWaitrdy, execCsel, execCdesel, execCmd, execTxb, execRxb,
        execRdblk, execWrblk, execInit, execSaddr, execMedia, hpos]

/-- All that `exec` can do, whatever cs and the byte stream are: the start of the op, one write the op may make where it
stands, or its `finish`. -/
theorem exec_alternatives (i : Instr) (s : State) :
    (∀ f x, exec i (s.atCs f x) = .next ((s.atCs f x).begin i)) ∨
    (∃ p, s.standsAt i p ∧ posFits i p = true ∧ GoesOn i p s) ∨ Finishes i s := by
  by_cases hrun : ∃ p, s.standsAt i p ∧ posFits i p = true
  · obtain ⟨p, hp, hfit⟩ := hrun
    exact .inr ((exec_goesOn_or_finishes hp hfit).imp_left fun h => ⟨p, hp, hfit, h⟩)
  · exact .inl fun f x => exec_begin_of_misfit fun p hp => Bool.eq_false_iff.mpr fun hfit => hrun ⟨p, hp, hfit⟩

/-- The next state of `exec`, by what the step is. -/
theorem exec_cases {i : Instr} {s t : State} (h : exec i s = .next t) :
    t = s.begin i ∨
    (∃ (p : Pos) (a : Act) (q : Pos), s.standsAt i p ∧ posFits i p = true ∧ a.permitted i p ∧ t = (a.apply s).goto i q) ∨
    ∃ c v e o, t = s.finishWith c v e o := by
  rcases exec_alternatives i s with hex | ⟨p, hp, hfit, a, q, ha, -, hex⟩ | ⟨c, v, e, o, -, hex⟩ <;>
    cases h.symm.trans (hex s.stat.cs s.env.bus)
  · exact .inl rfl
  · exact .inr (.inl ⟨p, a, q, hp, hfit, ha, rfl⟩)
  · exact .inr (.inr ⟨c, v, e, o, rfl⟩)

end Sys2Proof.Machine

/-! PROOFS. Frames of all ops, and the noninterference of the chip-select line (10_state.md R21 to R25, R31, R34, R38). -/

namespace Sys2Proof.Machine

/-! ### One step of a running op -/

/-- Settles O9: a write leaves the host's words and the completion fields, and the only other step is `finish`. -/
theorem anEngineStepGoesOnOrFinishes : Obligations.AnEngineStepGoesOnOrFinishes := by
  intro i p s t hp hfit hexec
  rcases exec_goesOn_or_finishes hp hfit with ⟨a, q, -, hq, hstep⟩ | ⟨c, v, e, o, hkeep, hstep⟩
  · cases hexec.symm.trans (hstep s.stat.cs s.env.bus)
    exact .inl ⟨q, rfl, hq, by simp⟩
  · cases hexec.symm.trans (hstep s.stat.cs s.env.bus)
    exact .inr ⟨c, v, e, o, rfl, hkeep⟩

/-! ### Frames -/

/-- Settles O11: neither the start of an op, nor a write, nor `finish` touches these fields. -/
theorem noOpChangesTheHostsRegisters : Obligations.NoOpChangesTheHostsRegisters := by
  intro i s t hexec
  rcases exec_cases hexec with rfl | ⟨p, a, q, -, -, -, rfl⟩ | ⟨c, v, e, o, rfl⟩
  · simp
  · simp
  · simp [State.finishWith]

/-- A write to CTYPE or NOINIT is INIT's (R24). -/
theorem Act.apply_stat_type {a : Act} {i : Instr} {p : Pos} (h : a.permitted i p) (hi : i ≠ .init) (s : State) :
    (a.apply s).stat.ctype = s.stat.ctype ∧ (a.apply s).stat.noinit = s.stat.noinit := by
  cases a with
  | setCtype c | setNoinit f => exact absurd h hi
  | _ => simp [Act.apply]

/-- A write to PWR is one of the three power writers' (R24). -/
theorem Act.apply_stat_pwr {a : Act} {i : Instr} {p : Pos} (h : a.permitted i p)
    (hi : ¬ (i = .pwron ∨ i = .pwroff ∨ i = .init)) (s : State) : (a.apply s).stat.pwr = s.stat.pwr := by
  cases a with
  | setPwr f => exact absurd h hi
  | _ => simp [Act.apply]

/-- A write to CS is one of the four ops' that drive the line (R24, R31). -/
theorem Act.apply_stat_cs {a : Act} {i : Instr} {p : Pos} (h : a.permitted i p)
    (hi : ¬ (i = .csel ∨ i = .cdesel ∨ i = .pwron ∨ i = .init)) (s : State) : (a.apply s).stat.cs = s.stat.cs := by
  cases a with
  | setCs f => exact absurd h hi
  | _ => simp [Act.apply]

/-- A write to a media flag is MEDIA's (R24). -/
theorem Act.apply_stat_media {a : Act} {i : Instr} {p : Pos} (h : a.permitted i p) (hi : i ≠ .media) (s : State) :
    (a.apply s).stat.nodisk = s.stat.nodisk ∧ (a.apply s).stat.wprot = s.stat.wprot := by
  cases a with
  | setNodisk f | setWprot f => exact absurd h hi
  | _ => simp [Act.apply]

/-- Settles O12: `begin` and `finish` leave these flags, and a write to one is of an op named for it. -/
theorem onlyNamedOpsWriteStatFields : Obligations.OnlyNamedOpsWriteStatFields := by
  intro i s t hexec
  rcases exec_cases hexec with rfl | ⟨p, a, q, -, -, ha, rfl⟩ | ⟨c, v, e, o, rfl⟩
  · simp
  · refine ⟨fun hi => Act.apply_stat_type ha hi s, fun h1 h2 h3 => Act.apply_stat_pwr ha ?_ s,
      fun h1 h2 h3 h4 => Act.apply_stat_cs ha ?_ s, fun hi => Act.apply_stat_media ha hi s⟩
    · simp [h1, h2, h3]
    · simp [h1, h2, h3, h4]
  · simp [State.finishWith]

/-- Every write but the two read steps leaves DATA (R34). -/
theorem Act.apply_dataByte {a : Act} (hrxb : ∀ k, a ≠ .rxData k) (hrdblk : ∀ k, a ≠ .rxPayload k) (s : State) (j : Nat) :
    (a.apply s).dataByte j = s.dataByte j := by
  refine State.dataByte_congr ?_ (by simp) j
  cases a with
  | rxData k => exact absurd rfl (hrxb k)
  | rxPayload k => exact absurd rfl (hrdblk k)
  | _ => simp [Act.apply]

/-- DATA after the read of a byte to index `k`. -/
theorem State.dataByte_rx_setData (s : State) (k j : Nat) :
    (s.rx.setData k s.cardByte).dataByte j = if j = k ∧ k < 512 then s.cardByte else s.dataByte j := by
  rw [State.dataByte_setData, State.dataByte_congr (s := s) (t := s.rx) rfl (by simp)]
  rfl

/-- Settles O15: the two read steps store the card's byte at their index, and no other write is to DATA. -/
theorem onlyReadStepsWriteData : Obligations.OnlyReadStepsWriteData := by
  intro i s t hexec j
  refine ⟨?_, ?_, fun hrxb hrdblk => ?_⟩
  · rintro len k rfl hpos
    simp only [exec, execRxb, State.posOf_eq hpos] at hexec
    cases hexec
    exact State.dataByte_rx_setData s k j
  · rintro len k rfl hpos
    cases (exec_rdblk_at hpos).symm.trans hexec
    rw [← State.dataByte_rx_setData]
    exact State.dataByte_congr (by simp [rdblkStep]) (by simp [rdblkStep]) j
  · rcases exec_cases hexec with rfl | ⟨p, a, q, hp, hfit, ha, rfl⟩ | ⟨c, v, e, o, rfl⟩
    · rfl
    · refine Act.apply_dataByte ?_ ?_ s j
      · rintro k rfl
        cases ha
        cases i <;> cases hfit
        exact hrxb _ k rfl hp
      · rintro k rfl
        cases ha
        cases i <;> cases hfit
        exact hrdblk _ k rfl hp
    · rfl

/-! ### The cs level -/

/-- `u` is `t` but for the cs level and the levels its byte stream records. -/
def State.sameButCs (u t : State) : Prop :=
  u.atCs false [] = t.atCs false [] ∧
    u.env.bus.map (fun e => (e.mosi, e.miso)) = t.env.bus.map (fun e => (e.mosi, e.miso))

/-- Going to the same position keeps the likeness. -/
theorem State.sameButCs.goto {u t : State} (h : u.sameButCs t) (i : Instr) (q : Pos) :
    (u.goto i q).sameButCs (t.goto i q) :=
  ⟨congrArg (State.goto · i q) h.1, h.2⟩

/-- Writing the same byte of DATA keeps the likeness. -/
theorem State.sameButCs.setData {u t : State} (h : u.sameButCs t) (k : Nat) (b : Byte) :
    (u.setData k b).sameButCs (t.setData k b) := by
  unfold State.setData
  split
  · exact ⟨congrArg (fun s : State => { s with data := Memory.store s.data k b }) h.1, h.2⟩
  · exact h

/-- Feeding int.CRC the same byte keeps the likeness. -/
theorem State.sameButCs.runCrc {u t : State} (h : u.sameButCs t) (b : Byte) : (u.runCrc b).sameButCs (t.runCrc b) := by
  have hchk : (u.atCs false []).crcchk = (t.atCs false []).crcchk := by rw [h.1]
  unfold State.runCrc
  rw [show u.crcchk = t.crcchk from hchk]
  split
  · exact ⟨congrArg (fun s : State => s.setCrc (crcByte s.int.crc b)) h.1, h.2⟩
  · exact h

/-- A read does the same at either level. -/
theorem State.rx_sameButCs (s : State) (f : Bool) : (s.atCs f s.env.bus).rx.sameButCs s.rx := ⟨rfl, rfl⟩

/-- A write does the same at either cs level: the received byte is the card's, whatever cs_n is (R31). -/
theorem Act.apply_sameButCs (a : Act) (s : State) (f : Bool) :
    (a.apply (s.atCs f s.env.bus)).sameButCs (a.apply s) := by
  cases a with
  | rxData k => exact (s.rx_sameButCs f).setData k s.cardByte
  | rxPayload k => exact ((s.rx_sameButCs f).setData k s.cardByte).runCrc s.cardByte
  | _ => exact ⟨rfl, rfl⟩

/-- Settles O17: at either level the step is the same start, the same write and position, or the same `finish`. -/
theorem chipSelectGatesNoOp : Obligations.ChipSelectGatesNoOp := by
  intro i s t f hexec
  rcases exec_alternatives i s with hstep | ⟨p, -, -, a, q, -, -, hstep⟩ | ⟨c, v, e, o, -, hstep⟩ <;>
    cases hexec.symm.trans (hstep s.stat.cs s.env.bus) <;> refine ⟨_, hstep f s.env.bus, ?_⟩
  · exact ⟨rfl, rfl⟩
  · exact (Act.apply_sameButCs a s f).goto i q
  · exact ⟨rfl, rfl⟩

end Sys2Proof.Machine

/-! PROOFS. The invariant of the reachable states: it holds at reset and every step keeps it (10_state.md R25, R28, R32, R37). -/

namespace Sys2Proof.Machine

/-! ### What one host access can do -/

/-- Acceptance starts the op of the latched word, or finishes an illegal one (60_exceptions.md R280, R285). -/
theorem acceptOp_cases {s t : State} {w : Word} (h : acceptOp s w = .next t) :
    (∃ i, decode w = .op i ∧ t = (s.latch w).begin i) ∨ t = (s.latch w).finish .illegal none := by
  unfold acceptOp at h
  split at h
  · next i hdec =>
    rw [exec_begin (State.posOf_idle rfl)] at h
    cases h
    exact .inl ⟨i, hdec, rfl⟩
  · cases h
    exact .inr rfl

/-- What a host write that starts no op leaves (20_memory.md R70, 60_exceptions.md R283). -/
theorem State.hostStore_cases (s : State) (r : HostReg) (v : Word) :
    s.hostStore r v = s ∨ (s.stat.busy = true ∧ s.hostStore r v = s.discard) ∨
      (s.stat.busy = false ∧ (s.hostStore r v = { s with arg := v } ∨ s.hostStore r v = { s with crcchk := cfgCrcchk v } ∨
        ∃ i, s.hostStore r v = s.setData i (v.extractLsb' 0 8))) := by
  by_cases hbusy : s.stat.busy = true
  · cases r with
    | arg | cfg | data i => exact .inr (.inl ⟨hbusy, if_pos hbusy⟩)
    | op | stat | rdata | t1 | t2 | reserved => exact .inl rfl
  · have hfree : s.stat.busy = false := by simpa using hbusy
    cases r with
    | arg => exact .inr (.inr ⟨hfree, .inl (if_neg hbusy)⟩)
    | cfg => exact .inr (.inr ⟨hfree, .inr (.inl (if_neg hbusy))⟩)
    | data i => exact .inr (.inr ⟨hfree, .inr (.inr ⟨i, if_neg hbusy⟩)⟩)
    | op | stat | rdata | t1 | t2 | reserved => exact .inl rfl

/-- What an admitted host access leaves: a read records its value; a write is ignored, discarded, stored or accepted. -/
theorem hostStep_cases {s t : State} {a : HostAccess} (h : hostStep s a = .next t) :
    (∃ e, e.resets = s.env.resets ∧ t = { s with env := e }) ∨ (s.stat.busy = true ∧ t = s.discard) ∨
      (s.stat.busy = false ∧ ((∃ v, t = { s with arg := v }) ∨ (∃ f, t = { s with crcchk := f }) ∨
        (∃ i b, t = s.setData i b) ∨ (s.rstN = true ∧ ∃ w, acceptOp s w = .next t))) := by
  unfold hostStep at h
  split at h
  · next hrst =>
    cases a with
    | read off n =>
      simp only at h
      split at h <;> cases h
      next r _ => exact .inl ⟨(s.hostRead r).env, rfl, rfl⟩
    | write off n v =>
      simp only at h
      split at h
      · next r _ =>
        unfold hostWrite at h
        split at h
        · split at h
          · next hbusy => cases h; exact .inr (.inl ⟨hbusy, rfl⟩)
          · next hbusy => exact .inr (.inr ⟨by simpa using hbusy, .inr (.inr (.inr ⟨hrst, v, h⟩))⟩)
        all_goals
          cases h
          rcases s.hostStore_cases _ v with heq | ⟨hbusy, heq⟩ | ⟨hbusy, heq | heq | ⟨i, heq⟩⟩ <;> rw [heq]
          · exact .inl ⟨s.env, rfl, rfl⟩
          · exact .inr (.inl ⟨hbusy, rfl⟩)
          · exact .inr (.inr ⟨hbusy, .inl ⟨_, rfl⟩⟩)
          · exact .inr (.inr ⟨hbusy, .inr (.inl ⟨_, rfl⟩)⟩)
          · exact .inr (.inr ⟨hbusy, .inr (.inr (.inl ⟨i, _, rfl⟩))⟩)
      · cases h
  · cases h

/-- Advancing the host program changes only the world outside, and makes no reset. -/
theorem State.advanceProgram_eq (s : State) : ∃ e, e.resets = s.env.resets ∧ s.advanceProgram = { s with env := e } := by
  unfold State.advanceProgram
  split
  · exact ⟨s.env, rfl, rfl⟩
  · next c rest _ =>
    split
    · exact ⟨{ s.env with program := rest }, rfl, rfl⟩
    · exact ⟨s.env, rfl, rfl⟩

/-- The host program's access is a host access, and the program moves on. -/
theorem programStep_cases {s t : State} (h : programStep s = .next t) :
    t = s ∨ ∃ a u e, hostStep s a = .next u ∧ e.resets = u.env.resets ∧ t = { u with env := e } := by
  unfold programStep at h
  split at h
  · cases h; exact .inl rfl
  · next c _ _ =>
    split at h <;> cases h
    next u hu =>
      obtain ⟨e, he, heq⟩ := u.advanceProgram_eq
      exact .inr ⟨stmtAccess c, u, e, hu, he, heq⟩

/-! ### CTYPE and NOINIT -/

/-- Outside INIT the agreement is that of STAT (R28). -/
theorem State.typeAgrees_iff_stat {s : State} (h : ∀ p, ¬ s.standsAt .init (.init p)) : s.typeAgrees ↔ s.stat.typeAgrees := by
  unfold State.typeAgrees
  split
  · next p hp => exact absurd hp (h p)
  · rfl

/-- At a position of INIT the agreement is the position's. -/
theorem State.typeAgrees_iff_init {s : State} {p : InitPos} (h : s.standsAt .init (.init p)) :
    s.typeAgrees ↔ initAgrees p s := by
  unfold State.typeAgrees
  rw [h]

/-- Before step 4 INIT has not written CTYPE, wherever the response to a command leads. -/
theorem initAgrees_initReply (c : InitCmd) (r : Byte) (s : State) :
    initAgrees (initReply c r) s ↔ s.stat.typeAgrees := by
  cases c with
  | probeInit => rfl
  | goIdle | ifCond | v2Prefix | v2Init | readOcr | probePrefix | sdPrefix | sdInit | mmcInit | blockLen =>
    simp only [initReply]
    split <;> rfl

/-- Nor where a loop's iteration starts. -/
theorem initAgrees_first (l : InitLoop) (s : State) : initAgrees l.first s ↔ s.stat.typeAgrees := by
  rcases l with _ | _ | _ <;> rfl

/-- Nor where a loop ends. -/
theorem initAgrees_afterLoop (l : InitLoop) (ok : Bool) (s : State) :
    initAgrees (afterLoop l ok) s ↔ s.stat.typeAgrees := by
  rcases l with _ | _ | _ <;> cases ok <;> rfl

/-- Nor after an echo byte. -/
theorem initAgrees_afterEcho (k : Fin 4) (e : Vector Byte 4) (s : State) :
    initAgrees (initAfterEcho k e) s ↔ s.stat.typeAgrees := by
  unfold initAfterEcho
  split
  · split <;> rfl
  · rfl

/-- Nor after an OCR byte. -/
theorem initAgrees_afterOcr (k : Fin 4) (s : State) : initAgrees (initAfterOcr k) s ↔ s.stat.typeAgrees := by
  unfold initAfterOcr
  split <;> rfl

/-- Every step of INIT keeps the agreement: up to step 4 it touches neither field, step 4 copies the candidate to CTYPE, and its
two ends write the NOINIT that goes with it (R232, R235). -/
theorem initStep_typeAgrees {p : InitPos} {s : State} (h : initAgrees p s) : (initStep p s).typeAgrees := by
  cases p with
  | diskTest =>
    simp only [initStep]
    split <;> exact h
  | power q =>
    obtain ⟨f, g, n, r, e, hframe, -⟩ := powerStep_frame q s
    rcases hstep : powerStep q s with ⟨_ | _, t⟩ <;> rw [hstep] at hframe <;> simp only [initStep, hstep] <;>
      cases hframe <;> exact h
  | cmd c q =>
    obtain ⟨k, n, r, e, hframe, -⟩ := sendStep_frame c.index c.argument q s
    rcases hstep : sendStep c.index c.argument q s with ⟨_ | _, t⟩ <;> rw [hstep] at hframe <;>
      simp only [initStep, hstep] <;> cases hframe
    · exact h
    · exact (initAgrees_initReply c _ _).mpr h
  | select | clearType | armBudget | ocrType | legacyType => exact h
  | echo k => exact (initAgrees_afterEcho k _ _).mpr h
  | ocr k => exact (initAgrees_afterOcr k _).mpr h
  | clearOk l => exact (initAgrees_first l _).mpr h
  | setOk l => exact (initAgrees_afterLoop l true _).mpr h
  | loopTest l =>
    simp only [initStep]
    split
    · exact (initAgrees_afterLoop l s.int.ok _).mpr h
    · exact (initAgrees_first l _).mpr h
  | setCtype => exact rfl
  | deselect => exact h
  | trailing =>
    have htype : s.stat.ctype = s.int.type := h
    simp only [initStep]
    split
    · next hnone => exact htype.trans hnone
    · next hsome => exact fun hnone => hsome (htype.symm.trans hnone)
  | powerOff => exact h
  | setNoinit =>
    have hnone : s.stat.ctype = .none := h
    exact ⟨iff_of_true hnone rfl, iff_of_false (by decide) (not_not_intro hnone)⟩
  | clearNoinit =>
    have hsome : s.stat.ctype ≠ .none := h
    exact ⟨iff_of_false hsome Bool.false_ne_true, iff_of_true rfl hsome⟩
  | finish c => exact h.1

/-- Every engine step keeps the agreement: only INIT writes either field (R24). -/
theorem exec_typeAgrees {i : Instr} {p : Pos} {s t : State} (hp : s.standsAt i p) (hfit : posFits i p = true)
    (h : s.typeAgrees) (hexec : exec i s = .next t) : t.typeAgrees := by
  by_cases hi : i = .init
  · subst hi
    cases p <;> cases hfit
    next p =>
      cases (exec_init_at hp).symm.trans hexec
      exact initStep_typeAgrees ((State.typeAgrees_iff_init hp).mp h)
  · have hs : s.stat.typeAgrees := (State.typeAgrees_iff_stat fun q hq => hi (by cases hp.symm.trans hq; rfl)).mp h
    have hother {u : State} {q : Pos} (hq : u.standsAt i q) : ∀ r, ¬ u.standsAt .init (.init r) := fun r hr =>
      hi (by cases hq.symm.trans hr; rfl)
    rcases exec_cases hexec with rfl | ⟨_, a, q, _, _, ha, rfl⟩ | ⟨c, v, e, o, rfl⟩
    · exact (State.typeAgrees_iff_stat (hother rfl)).mpr hs
    · obtain ⟨hctype, hnoinit⟩ := Act.apply_stat_type ha hi s
      refine (State.typeAgrees_iff_stat (hother rfl)).mpr ?_
      show (a.apply s).stat.ctype = .none ↔ (a.apply s).stat.noinit = true
      rw [hctype, hnoinit]
      exact hs
    · exact hs

/-! ### The invariant, operation by operation -/

/-- With BUSY 0 no op runs (R37). -/
theorem State.Inv.idle_of_not_busy {s : State} (h : s.Inv) (hbusy : s.stat.busy = false) : s.int.phase = .idle := by
  by_contra hrun
  simp [h.busy_iff.mpr hrun] at hbusy

/-- The invariant says nothing of the world outside. -/
theorem State.Inv.setEnv {s : State} (h : s.Inv) (e : Env) : ({ s with env := e } : State).Inv := { h with }

/-- A discarded write sets OVR only (R283). -/
theorem State.Inv.discard {s : State} (h : s.Inv) : s.discard.Inv := { h with }

/-- A DATA write keeps the canonical form. -/
theorem State.Inv.setData {s : State} (h : s.Inv) (i : Nat) (b : Byte) : (s.setData i b).Inv := by
  have hwf := State.setData_wf i b h.data_wf
  by_cases hi : i < blockLen
  · rw [show s.setData i b = { s with data := Memory.store s.data i b } from if_pos hi] at hwf ⊢
    exact { h with data_wf := hwf }
  · rwa [show s.setData i b = s from if_neg hi]

/-- Ticks only lower the counters (R286). -/
theorem State.Inv.tick {s : State} (h : s.Inv) : s.tick.Inv :=
  { h with
    counters := ⟨Nat.lt_of_le_of_lt (Nat.sub_le ..) h.counters.1, Nat.lt_of_le_of_lt (Nat.sub_le ..) h.counters.2⟩ }

/-- The reset state: idle, with CTYPE None and NOINIT 1 (R41). -/
theorem State.reset_inv : State.reset.Inv where
  busy_iff := by decide
  busy_clear := by decide
  fail_iff := by decide
  latched := rfl
  running := by rintro i p h; cases h
  counters := by decide
  data_wf := State.reset_data_wf
  reset_idle := by decide
  type_agrees := show Stat.typeAgrees _ by decide

/-- The reset event reaches the reset values from every state, whatever its TICK_W (70_reset_and_hazards.md R310). -/
theorem State.resetEvent_inv (s : State) : s.resetEvent.Inv :=
  { State.reset_inv with
    counters := ⟨Nat.two_pow_pos _, Nat.two_pow_pos _⟩
    reset_idle := fun _ => rfl }

/-- `finish` (R281) leaves an idle state that meets the invariant, if CTYPE agrees with NOINIT there. -/
theorem State.inv_finish {s : State} (c : Cause) (v : Option Word) (hlatched : s.op = s.int.opl)
    (hcounters : s.t1 < 2 ^ s.params.tickW ∧ s.t2 < 2 ^ s.params.tickW) (hdata : Memory.wf s.data = true)
    (htype : s.stat.typeAgrees) : (s.finish c v).Inv where
  busy_iff := by simp
  busy_clear := by simp
  fail_iff := by simp
  latched := hlatched
  running := by rintro i p h; cases h
  counters := hcounters
  data_wf := hdata
  reset_idle := fun _ => rfl
  type_agrees := htype

/-- Acceptance (R280) keeps the invariant, of an op or of an illegal word. -/
theorem acceptOp_inv {s t : State} {w : Word} (h : s.Inv) (hbusy : s.stat.busy = false) (hrst : s.rstN = true)
    (hacc : acceptOp s w = .next t) : t.Inv := by
  have hidle := h.idle_of_not_busy hbusy
  have htype : s.stat.typeAgrees := (State.typeAgrees_iff_stat fun p hp => by cases hidle.symm.trans hp).mp h.type_agrees
  rcases acceptOp_cases hacc with ⟨i, hdec, rfl⟩ | rfl
  · exact
      { busy_iff := by simp
        busy_clear := by simp
        fail_iff := by simp
        latched := rfl
        running := by
          rintro j p hp
          cases hp
          exact ⟨hdec, by cases i <;> rfl⟩
        counters := h.counters
        data_wf := h.data_wf
        reset_idle := fun hlow => absurd (hrst.symm.trans hlow) (by decide)
        type_agrees := by cases i <;> exact htype }
  · exact State.inv_finish _ _ rfl h.counters h.data_wf htype

/-- An engine step keeps the invariant (R37). -/
theorem engineStep_inv {s t : State} (h : s.Inv) (hstep : engineStep s = .next t) : t.Inv := by
  cases hphase : s.int.phase with
  | idle =>
    simp only [engineStep, hphase] at hstep
    cases hstep
    exact h
  | run i p =>
    simp only [engineStep, hphase] at hstep
    obtain ⟨hdec, hfit⟩ := h.running i p hphase
    have htype := exec_typeAgrees hphase hfit h.type_agrees hstep
    have hbusy : s.stat.busy = true := h.busy_iff.mpr (by simp [hphase])
    rcases exec_goesOn_or_finishes hphase hfit with ⟨a, q, -, hq, hex⟩ | ⟨c, v, e, o, -, hex⟩
    · cases hstep.symm.trans (hex s.stat.cs s.env.bus)
      exact
        { busy_iff := by simp [hbusy]
          busy_clear := by simpa using h.busy_clear
          fail_iff := by simpa using h.fail_iff
          latched := by simpa using h.latched
          running := by
            rintro j r hr
            cases hr
            exact ⟨by simpa using hdec, hq⟩
          counters := by simpa using a.apply_counters h.counters
          data_wf := a.apply_data_wf h.data_wf
          reset_idle := fun hlow => absurd (h.reset_idle (by simpa using hlow)) (by simp [hphase])
          type_agrees := htype }
    · cases hstep.symm.trans (hex s.stat.cs s.env.bus)
      exact State.inv_finish _ _ h.latched h.counters h.data_wf htype

/-- A host access keeps the invariant. -/
theorem hostStep_inv {s t : State} {a : HostAccess} (h : s.Inv) (hstep : hostStep s a = .next t) : t.Inv := by
  rcases hostStep_cases hstep with ⟨e, -, rfl⟩ | ⟨-, rfl⟩ | ⟨hbusy, ⟨v, rfl⟩ | ⟨f, rfl⟩ | ⟨i, b, rfl⟩ | ⟨hrst, w, hacc⟩⟩
  · exact h.setEnv e
  · exact h.discard
  · exact { h with }
  · exact { h with }
  · exact h.setData i b
  · exact acceptOp_inv h hbusy hrst hacc

/-- Every event keeps the invariant. -/
theorem applyEvent_inv {s t : State} {e : Event} (h : s.Inv) (hstep : applyEvent e s = .next t) : t.Inv := by
  cases e with
  | engine => exact engineStep_inv h hstep
  | tick => cases hstep; exact h.tick
  | host a => exact hostStep_inv h hstep
  | program =>
    rcases programStep_cases hstep with rfl | ⟨a, u, e, hu, -, rfl⟩
    · exact h
    · exact (hostStep_inv h hu).setEnv e
  | resetLow => cases hstep; exact s.resetEvent_inv
  | resetHigh => cases hstep; exact { h with reset_idle := fun hlow => by cases hlow }

/-- Settles O55: the next event acts on a state that differs in the world outside only. -/
theorem everyStepKeepsTheInvariant : Obligations.EveryStepKeepsTheInvariant := by
  intro s t h hstep
  exact applyEvent_inv (h.setEnv s.env.afterEvent) hstep

/-- The invariant holds along every run. -/
theorem State.Inv.run {s t : State} (k : Nat) (h : s.Inv) (hrun : Sys2Proof.core.run k s = .next t) : t.Inv := by
  induction k generalizing s with
  | zero => cases hrun; exact h
  | succ k ih =>
    simp only [Host.Core.run] at hrun
    split at hrun
    · next u hu => exact ih (everyStepKeepsTheInvariant s u h hu) hrun
    · cases hrun
    · cases hrun

/-- Settles O57: outside INIT the invariant's agreement is that of STAT. -/
theorem cardTypeIsNoneExactlyWhenNotInitialised : Obligations.CardTypeIsNoneExactlyWhenNotInitialised := by
  intro k s t h hrun hout
  exact (State.typeAgrees_iff_stat fun p => hout (.init p)).mp (h.run k hrun).type_agrees

end Sys2Proof.Machine

/-! PROOFS. The running checksum of RDBLK: while CFG.CRCCHK is 1 every step keeps int.CRC the checksum of the payload received so
far (10_state.md R38, 41_block_transfer.md R184; 93 G7, log 17). -/

namespace Sys2Proof.Machine

/-! ### Where the agreement says something -/

/-- The agreement asks nothing where RDBLK does not run. -/
theorem State.crcAgrees_of_not_rdblk {s : State} (h : ∀ len p, ¬ s.standsAt (.rdblk len) p) : s.crcAgrees := by
  intro _
  split
  · next len p hp => exact absurd hp (h len _)
  · trivial

/-- The agreement asks nothing of an idle engine. -/
theorem State.crcAgrees_of_idle {s : State} (h : s.int.phase = .idle) : s.crcAgrees :=
  State.crcAgrees_of_not_rdblk fun _ _ hp => by cases h.symm.trans hp

/-- DATA[0..n-1] depends on the cells and on the number of resets only. -/
theorem State.dataBytes_congr {s t : State} (hd : t.data = s.data) (hr : t.env.resets = s.env.resets) (n : Nat) :
    t.dataBytes n = s.dataBytes n :=
  List.map_congr_left fun j _ => State.dataByte_congr hd hr j

/-- The agreement depends on CRCCHK, the hidden state and DATA only. -/
theorem State.crcAgrees.congr {s t : State} (h : s.crcAgrees) (hchk : t.crcchk = s.crcchk) (hint : t.int = s.int)
    (hd : t.data = s.data) (hr : t.env.resets = s.env.resets) : t.crcAgrees := by
  simpa only [State.crcAgrees, hchk, hint, State.dataBytes_congr hd hr] using h

/-- What the agreement asks at a position of RDBLK. -/
def crcAgreesAt (len : Nat) (p : RdblkPos) (s : State) : Prop :=
  match p with
  | .payload i => i < len ∧ s.int.crc = crc16 (s.dataBytes i)
  | .check1 | .check0 _ | .verify _ _ => s.int.crc = crc16 (s.dataBytes len)
  | .arm | .token | .tokenTest | .finish _ _ => True

/-- At a position of RDBLK the agreement is the position's. -/
theorem State.crcAgrees_iff_rdblk {s : State} {len : Nat} {p : RdblkPos} (h : s.standsAt (.rdblk len) (.rdblk p)) :
    s.crcAgrees ↔ (s.crcchk = true → crcAgreesAt len p s) := by
  unfold State.crcAgrees
  rw [h]
  cases p <;> rfl

/-! ### One more payload byte -/

/-- crc16 takes the payload byte by byte (R107). -/
theorem crc16_concat (bs : List Byte) (b : Byte) : crc16 (bs ++ [b]) = crcByte (crc16 bs) b := by
  simp [crc16, List.foldl_append]

/-- A payload read adds its byte to DATA[0..k-1]. -/
theorem Act.dataBytes_rxPayload {k : Nat} (hk : k < 512) (s : State) :
    ((Act.rxPayload k).apply s).dataBytes (k + 1) = s.dataBytes k ++ [s.cardByte] := by
  have hbyte (j : Nat) : ((Act.rxPayload k).apply s).dataByte j = if j = k ∧ k < 512 then s.cardByte else s.dataByte j :=
    (State.dataByte_congr (by simp [Act.apply]) (by simp) j).trans (State.dataByte_rx_setData s k j)
  unfold State.dataBytes
  rw [List.range_succ, List.map_append, List.map_singleton, hbyte k, if_pos ⟨rfl, hk⟩]
  congr 1
  refine List.map_congr_left fun j hj => ?_
  rw [hbyte j, if_neg fun hjk => Nat.ne_of_lt (List.mem_range.mp hj) hjk.1]

/-- A payload read keeps int.CRC the checksum of the bytes received. -/
theorem Act.crc_rxPayload {k : Nat} {s : State} (hk : k < 512) (hchk : s.crcchk = true) (h : s.int.crc = crc16 (s.dataBytes k)) :
    ((Act.rxPayload k).apply s).int.crc = crc16 (((Act.rxPayload k).apply s).dataBytes (k + 1)) := by
  rw [Act.dataBytes_rxPayload hk, crc16_concat, ← h]
  simp [Act.apply, State.runCrc, hchk]

/-! ### Every step -/

/-- The LEN of a decoded RDBLK is 1 to 512 (30_encoding.md R93, R96). -/
theorem lenOk_of_decode_rdblk {w : Word} {len : Nat} (h : decode w = .op (.rdblk len)) : lenOk len := by
  unfold decode decodeN decodeC decodeL decodeT at h
  split at h <;> (repeat' split at h) <;> cases h
  assumption

/-- A step of RDBLK keeps the agreement: the start token clears int.CRC, a payload read feeds it, and the reads of the
checksum pair leave it. -/
theorem rdblkStep_crcAgrees {len : Nat} {p : RdblkPos} {s : State} (hlen : lenOk len)
    (h : s.crcchk = true → crcAgreesAt len p s) : (rdblkStep len p s).crcAgrees := by
  cases p with
  | arm | token => exact fun _ => trivial
  | tokenTest =>
    simp only [rdblkStep, rdblkTokenTest]
    split
    · split <;> exact fun _ => trivial
    · split
      · exact fun _ => ⟨hlen.1, rfl⟩
      · exact fun _ => trivial
  | payload k =>
    show (((Act.rxPayload k).apply s).goto (.rdblk len) _).crcAgrees
    refine (State.crcAgrees_iff_rdblk rfl).mpr fun hchk => ?_
    have hon : s.crcchk = true := by simpa using hchk
    obtain ⟨hk, hcrc⟩ := h hon
    have hnext := Act.crc_rxPayload (Nat.lt_of_lt_of_le hk hlen.2) hon hcrc
    split
    · next hmore => exact ⟨hmore, hnext⟩
    · next hlast =>
      obtain rfl : k + 1 = len := by omega
      exact hnext
  | check1 | check0 =>
    have hbytes : s.rx.dataBytes len = s.dataBytes len :=
      State.dataBytes_congr (s := s) (t := s.rx) rfl (by simp) len
    refine (State.crcAgrees_iff_rdblk rfl).mpr fun hchk => ?_
    exact (h hchk).trans (congrArg crc16 hbytes.symm)
  | verify | finish => exact State.crcAgrees_of_idle rfl

/-- An engine step keeps the agreement. -/
theorem engineStep_crcAgrees {s t : State} (hinv : s.Inv) (h : s.crcAgrees) (hstep : engineStep s = .next t) : t.crcAgrees := by
  cases hphase : s.int.phase with
  | idle =>
    simp only [engineStep, hphase] at hstep
    cases hstep
    exact h
  | run i p =>
    simp only [engineStep, hphase] at hstep
    obtain ⟨hdec, hfit⟩ := hinv.running i p hphase
    by_cases hi : ∃ len, i = .rdblk len
    · obtain ⟨len, rfl⟩ := hi
      cases p <;> cases hfit
      next p =>
        cases (exec_rdblk_at hphase).symm.trans hstep
        exact rdblkStep_crcAgrees (lenOk_of_decode_rdblk hdec) ((State.crcAgrees_iff_rdblk hphase).mp h)
    · refine State.crcAgrees_of_not_rdblk fun len r hr => ?_
      rcases exec_cases hstep with rfl | ⟨_, a, q, _, _, _, rfl⟩ | ⟨c, v, e, o, rfl⟩
      · cases hr; exact hi ⟨len, rfl⟩
      · cases hr; exact hi ⟨len, rfl⟩
      · cases hr

/-- A host access keeps the agreement: during an op it reads or is discarded, and an idle engine has nothing to keep. -/
theorem hostStep_crcAgrees {s t : State} {a : HostAccess} (hinv : s.Inv) (h : s.crcAgrees) (hstep : hostStep s a = .next t) :
    t.crcAgrees := by
  rcases hostStep_cases hstep with ⟨e, he, rfl⟩ | ⟨-, rfl⟩ | ⟨hbusy, ⟨v, rfl⟩ | ⟨f, rfl⟩ | ⟨i, b, rfl⟩ | ⟨-, w, hacc⟩⟩
  · exact h.congr rfl rfl rfl he
  · exact h.congr rfl rfl rfl rfl
  · exact State.crcAgrees_of_idle (hinv.idle_of_not_busy hbusy)
  · exact State.crcAgrees_of_idle (hinv.idle_of_not_busy hbusy)
  · exact State.crcAgrees_of_idle (by simpa using hinv.idle_of_not_busy hbusy)
  · rcases acceptOp_cases hacc with ⟨i, -, rfl⟩ | rfl
    · cases i with
      | rdblk len => exact fun _ => trivial
      | _ => exact State.crcAgrees_of_not_rdblk fun _ _ hp => by cases hp
    · exact State.crcAgrees_of_idle rfl

/-- Every event keeps the agreement. -/
theorem applyEvent_crcAgrees {s t : State} {e : Event} (hinv : s.Inv) (h : s.crcAgrees) (hstep : applyEvent e s = .next t) :
    t.crcAgrees := by
  cases e with
  | engine => exact engineStep_crcAgrees hinv h hstep
  | tick => cases hstep; exact h.congr rfl rfl rfl rfl
  | host a => exact hostStep_crcAgrees hinv h hstep
  | program =>
    rcases programStep_cases hstep with rfl | ⟨a, u, e, hu, he, rfl⟩
    · exact h
    · exact (hostStep_crcAgrees hinv h hu).congr rfl rfl rfl he
  | resetLow => cases hstep; exact State.crcAgrees_of_idle rfl
  | resetHigh => cases hstep; exact h.congr rfl rfl rfl rfl

/-- Taking an event makes no reset. -/
@[simp] theorem Env.afterEvent_resets (e : Env) : e.afterEvent.resets = e.resets := by
  unfold Env.afterEvent
  split <;> rfl

/-- Settles O56: the next event acts on a state that differs in the world outside only. -/
theorem everyStepKeepsTheRunningChecksum : Obligations.EveryStepKeepsTheRunningChecksum := by
  intro s t hinv h hstep
  exact applyEvent_crcAgrees (hinv.setEnv s.env.afterEvent) (h.congr rfl rfl rfl s.env.afterEvent_resets) hstep

/-- Settles O54: no op runs at reset. -/
theorem resetMeetsTheInvariant : Obligations.ResetMeetsTheInvariant :=
  ⟨State.reset_inv, State.crcAgrees_of_idle rfl⟩

end Sys2Proof.Machine

/-! PROOFS. The host's port and the reset values (10_state.md R21 to R24, R33 to R37, R41; 20_memory.md R70). -/

namespace Sys2Proof.Machine

/-! ### Steps and acceptance -/

/-- A listed event is the one the next step takes. -/
theorem step_of_script {s : State} {e : Event} {es : List Event} (h : s.env.script = e :: es) :
    step s = applyEvent e { s with env := { s.env with script := es } } := by
  simp only [step, State.nextEvent, State.takeEvent, Env.afterEvent, h]

/-- An admitted read records the value of its register (R70). -/
theorem hostStep_read {s : State} {off n : Nat} {r : HostReg} (hrst : s.rstN = true) (hloc : locate off n = some r) :
    hostStep s (.read off n) = .next (s.hostRead r) := by
  simp only [hostStep, hrst, hloc, if_true]

/-- An admitted write goes to its register. -/
theorem hostStep_write {s : State} {off n : Nat} {r : HostReg} (v : Word) (hrst : s.rstN = true)
    (hloc : locate off n = some r) : hostStep s (.write off n v) = hostWrite s r v := by
  simp only [hostStep, hrst, hloc, if_true]

/-- Settles O6: an engine event runs the op that stands, and acceptance runs the decoded op on the latched state. -/
theorem aStepRunsTheDecodedOp : Obligations.AStepRunsTheDecodedOp := by
  refine ⟨fun s es i p hs hp => ?_, fun s es w i hs hrst hbusy hdec => ?_⟩
  · rw [step_of_script hs]
    simp only [applyEvent, engineStep, hp]
  · rw [step_of_script hs]
    have hwrite := hostStep_write (s := { s with env := { s.env with script := es } }) (off := 0) (n := 4) (r := .op) w
      hrst rfl
    refine hwrite.trans ?_
    simp only [hostWrite, hbusy, acceptOp, hdec]
    rfl

/-! ### Which register an access names -/

/-- An aligned word access below 0x200 names its word (R35). -/
theorem locate_word {off : Nat} (ha : off % 4 = 0) (hhi : off ≤ 0x1FC) : locate off 4 = some (wordReg off) :=
  if_pos ⟨rfl, ha, hhi⟩

/-- A byte access at `0x200 + i` names DATA[i] (R35). -/
theorem locate_data {i : Nat} (h : i < 512) : locate (0x200 + i) 1 = some (.data i) := by
  unfold locate
  rw [if_neg (by simp), if_pos (by omega), Nat.add_sub_cancel_left]

/-- The words from 0x01C on are reserved (R36). -/
theorem wordReg_reserved {off : Nat} (h : 0x01C ≤ off) : wordReg off = .reserved := by
  unfold wordReg
  split
  case h_8 => rfl
  all_goals omega

/-- A word that is neither OP, ARG nor CFG ignores a write (R70). -/
theorem hostWrite_ignored {off : Nat} (h0 : off ≠ 0x000) (h4 : off ≠ 0x004) (h18 : off ≠ 0x018) (s : State) (v : Word) :
    hostWrite s (wordReg off) v = .next s := by
  unfold wordReg
  split
  case h_1 => exact absurd rfl h0
  case h_2 => exact absurd rfl h4
  case h_7 => exact absurd rfl h18
  all_goals rfl

/-! ### Reads and writes -/

/-- A flag in bit 0 of a word reads 1 or 0. -/
theorem flagBit_zero (f : Bool) : flagBit f 0 = if f then 1 else 0 := by cases f <;> rfl

/-- A read outside DATA records the value and draws nothing. -/
theorem hostStep_read_word {s : State} {off : Nat} {r : HostReg} (hrst : s.rstN = true) (hloc : locate off 4 = some r)
    (hr : r.isData = false) :
    hostStep s (.read off 4) = .next { s with env := { s.env with readValue := some (s.hostValue r) } } := by
  rw [hostStep_read hrst hloc, State.hostRead, hr]
  rfl

/-- Settles O46: each offset names its register, and a read records that register's value. -/
theorem hostReadsReturnTheMap : Obligations.HostReadsReturnTheMap := by
  intro s hrst
  refine ⟨fun off v hmem => ?_, fun off ha hlo hhi => ?_, fun i hi hbusy => ?_, fun i hi hbusy => ?_⟩
  · simp only [List.mem_cons, Prod.mk.injEq, List.not_mem_nil, or_false] at hmem
    rcases hmem with ⟨rfl, rfl⟩ | ⟨rfl, rfl⟩ | ⟨rfl, rfl⟩ | ⟨rfl, rfl⟩ | ⟨rfl, rfl⟩ | ⟨rfl, rfl⟩ | ⟨rfl, rfl⟩
    case inr.inr.inr.inr.inr.inr =>
      rw [← flagBit_zero]
      exact hostStep_read_word hrst (locate_word rfl (by decide)) rfl
    all_goals exact hostStep_read_word hrst (locate_word rfl (by decide)) rfl
  · exact hostStep_read_word hrst ((locate_word ha hhi).trans (congrArg some (wordReg_reserved hlo))) rfl
  · rw [hostStep_read hrst (locate_data hi)]
    simp [State.hostRead, State.hostValue, Env.afterRead, hbusy, zext]
  · refine ⟨Config.busyDataByte s.env.readDraws, ?_⟩
    rw [hostStep_read hrst (locate_data hi)]
    simp [State.hostRead, State.hostValue, Env.afterRead, HostReg.isData, hbusy, zext]

/-- Settles O48: each offset names its register, and with BUSY 0 the write is that register's store. -/
theorem hostWritesWithNoOpRunning : Obligations.HostWritesWithNoOpRunning := by
  intro s v hrst hbusy
  refine ⟨?_, ?_, fun i hi => ⟨Memory.store s.data i (v.extractLsb' 0 8), ?_, fun j => ?_⟩, fun off ha hhi h0 h4 h18 => ?_⟩
  · rw [hostStep_write (r := .arg) v hrst rfl]
    simp [hostWrite, State.hostStore, hbusy]
  · rw [hostStep_write (r := .cfg) v hrst rfl]
    simp [hostWrite, State.hostStore, hbusy, cfgCrcchk]
  · rw [hostStep_write v hrst (locate_data hi)]
    simp [hostWrite, State.hostStore, hbusy, State.setData, blockLen, hi]
  · rw [Memory.lookup_store]
    unfold State.dataByte
    split <;> rfl
  · rw [hostStep_write v hrst (locate_word ha hhi)]
    exact hostWrite_ignored h0 h4 h18 s v

/-! ### STAT -/

/-- A flag is one bit of its word. -/
theorem flagBit_getLsbD (f : Bool) {k : Nat} (hk : k < 32) (j : Nat) : (flagBit f k).getLsbD j = (f && decide (j = k)) := by
  unfold flagBit
  rw [BitVec.getLsbD_shiftLeft, BitVec.getLsbD_setWidth, BitVec.getLsbD_ofBool]
  cases f
  · simp
  · by_cases hj : j = k
    · simp [hj, hk]
    · simp [hj]; omega

/-- A code shifted to bit `k` is the bits from `k` on. -/
theorem codeBits_getLsbD {n : Nat} (x : BitVec n) (k j : Nat) :
    (x.setWidth 32 <<< k : Word).getLsbD j = (decide (k ≤ j) && decide (j < 32) && x.getLsbD (j - k)) := by
  rw [BitVec.getLsbD_shiftLeft, BitVec.getLsbD_setWidth]
  by_cases hj : j < 32
  · have hjk : j - k < 32 := by omega
    by_cases hk : k ≤ j
    · simp [hj, hjk, hk]
    · simp [hk]
  · simp [hj]

/-- Each bit of STAT, by the fields that can set it (R24). -/
theorem Stat.word_getLsbD (t : Stat) (j : Nat) :
    t.word.getLsbD j =
      ((t.busy && decide (j = 0)) || (t.done && decide (j = 1)) || (t.fail && decide (j = 2)) || (t.ovr && decide (j = 3)) ||
        (decide (4 ≤ j) && decide (j < 32) && t.cause.code.getLsbD (j - 4)) ||
        (decide (8 ≤ j) && decide (j < 32) && t.ctype.code.getLsbD (j - 8)) ||
        (t.pwr && decide (j = 11)) || (t.cs && decide (j = 12)) || (t.noinit && decide (j = 16)) ||
        (t.nodisk && decide (j = 17)) || (t.wprot && decide (j = 18))) := by
  simp only [Stat.word, BitVec.getLsbD_or, flagBit_getLsbD, codeBits_getLsbD, Nat.reduceLT]

/-- CAUSE is STAT[7:4]. -/
theorem Stat.word_cause (t : Stat) : t.word.extractLsb' 4 4 = t.cause.code := by
  apply BitVec.eq_of_getLsbD_eq
  intro j hj
  rw [BitVec.getLsbD_extractLsb', Stat.word_getLsbD]
  interval_cases j <;> simp

/-- CTYPE is STAT[10:8]. -/
theorem Stat.word_ctype (t : Stat) : t.word.extractLsb' 8 3 = t.ctype.code := by
  apply BitVec.eq_of_getLsbD_eq
  intro j hj
  rw [BitVec.getLsbD_extractLsb', Stat.word_getLsbD]
  interval_cases j <;> simp [BitVec.getLsbD_of_ge]

/-- The bits R24 does not list read 0. -/
theorem Stat.word_getLsbD_reserved (t : Stat) {j : Nat} (h : 13 ≤ j ∧ j < 16 ∨ 19 ≤ j) : t.word.getLsbD j = false := by
  rw [Stat.word_getLsbD, BitVec.getLsbD_of_ge t.cause.code (j - 4) (by omega),
    BitVec.getLsbD_of_ge t.ctype.code (j - 8) (by omega)]
  simp
  omega

/-- STAT[15:13] and STAT[31:19] are the bits not listed. -/
theorem Stat.word_reserved (t : Stat) : t.word.extractLsb' 13 3 = 0 ∧ t.word.extractLsb' 19 13 = 0 := by
  constructor <;> apply BitVec.eq_of_getLsbD_eq <;> intro j hj
  · simp [t.word_getLsbD_reserved (j := 13 + j) (by omega)]
  · simp [t.word_getLsbD_reserved (j := 19 + j) (by omega)]

/-- status() is STAT[18:16] (42_card_type_detector.md R232). -/
theorem Stat.status_eq_word (t : Stat) : t.status = (t.word.extractLsb' 16 3).setWidth 32 := by
  apply BitVec.eq_of_getLsbD_eq
  intro j hj
  rw [BitVec.getLsbD_setWidth, BitVec.getLsbD_extractLsb', Stat.word_getLsbD]
  simp only [Stat.status, BitVec.getLsbD_or, flagBit_getLsbD, Nat.reduceLT]
  rcases Nat.lt_or_ge j 3 with h3 | h3
  · interval_cases j <;> simp [BitVec.getLsbD_of_ge]
  · simp [show ¬ j < 3 by omega, show j ≠ 0 by omega, show j ≠ 1 by omega, show j ≠ 2 by omega]

/-- Settles O47: the field lemmas, the codes written out, and each flag's bit. -/
theorem statReadsItsFields : Obligations.StatReadsItsFields := by
  intro t
  refine ⟨?busy, ?done, ?fail, ?ovr, ?cause, ?ctype, ?pwr, ?cs, t.word_reserved.1, ?noinit, ?nodisk, ?wprot,
    t.word_reserved.2, t.status_eq_word⟩
  case cause =>
    rw [Stat.word_cause]
    cases t.cause <;> rfl
  case ctype =>
    rw [Stat.word_ctype]
    cases t.ctype <;> rfl
  all_goals
    rw [Stat.word_getLsbD]
    simp [BitVec.getLsbD_of_ge]

/-! ### Reset -/

/-- Settles O52: the values are those the reset state is written with. -/
theorem resetStateHasTheListedValues : Obligations.ResetStateHasTheListedValues :=
  ⟨rfl, rfl, rfl, by decide, rfl, rfl, rfl, rfl, rfl, fun _ => rfl⟩

end Sys2Proof.Machine

/-! PROOFS. The memory map and the bus: which accesses have an outcome, what an engine step exchanges, and that BASE is read by no
rule (20_memory.md R61 to R63, R70, R76). -/

namespace Sys2Proof.Machine

/-! ### Exchanges -/

/-- A write makes no exchange or one, with the card's next byte at the cs level before it (R63). -/
theorem Act.apply_envStep (a : Act) (s : State) : s.envStep (a.apply s).env := by
  cases a with
  | tx b | exchange b => exact .inr ⟨b, rfl⟩
  | rx | rxEcho k | rxOcr k => exact .inr ⟨idleByte, rfl⟩
  | rxData k | rxPayload k => exact .inr ⟨idleByte, by simp [Act.apply]⟩
  | _ => exact .inl rfl

/-- Settles O14: only a write of a step that goes on touches the world outside; the start of an op and `finish` leave it. -/
theorem atMostOneExchangePerEngineStep : Obligations.AtMostOneExchangePerEngineStep := by
  intro i s t hexec
  rcases exec_cases hexec with rfl | ⟨p, a, q, -, -, -, rfl⟩ | ⟨c, v, e, o, rfl⟩
  · exact .inl rfl
  · exact a.apply_envStep s
  · exact .inl rfl

/-! ### Admitted accesses -/

/-- An access is admitted (R61): an aligned word below 0x200, or a single byte of DATA. -/
def admitted (off n : Nat) : Prop := (n = 4 ∧ off % 4 = 0 ∧ off ≤ 0x1FC) ∨ (n = 1 ∧ 0x200 ≤ off ∧ off ≤ 0x3FF)

/-- An admitted access names a register. -/
theorem locate_of_admitted {off n : Nat} (h : admitted off n) : ∃ r, locate off n = some r := by
  rcases h with ⟨rfl, ha, hhi⟩ | ⟨rfl, hlo, hhi⟩
  · exact ⟨_, locate_word ha hhi⟩
  · obtain ⟨i, rfl⟩ := Nat.exists_eq_add_of_le hlo
    exact ⟨_, locate_data (by omega)⟩

/-- An access that is not admitted names none. -/
theorem locate_of_not_admitted {off n : Nat} (h : ¬ admitted off n) : locate off n = none := by
  obtain ⟨hword, hbyte⟩ := not_or.mp h
  exact (if_neg hword).trans (if_neg hbyte)

/-- Acceptance has a next state, whether the word is legal or not. -/
theorem acceptOp_eq_next (s : State) (w : Word) : ∃ t, acceptOp s w = .next t := by
  unfold acceptOp
  split
  · exact everyOpHasANextState _ _
  · exact ⟨_, rfl⟩

/-- Every write to a register has a next state: to OP because every op has one, legal or not. -/
theorem hostWrite_eq_next (s : State) (r : HostReg) (v : Word) : ∃ t, hostWrite s r v = .next t := by
  cases r with
  | op =>
    by_cases hbusy : s.stat.busy = true
    · exact ⟨_, if_pos hbusy⟩
    · obtain ⟨t, ht⟩ := acceptOp_eq_next s v
      exact ⟨t, (if_neg hbusy).trans ht⟩
  | arg | stat | rdata | t1 | t2 | cfg | reserved | data i => exact ⟨_, rfl⟩

/-- Settles O45: `locate` names a register exactly for the admitted accesses, and a named one is read or written. -/
theorem onlyAdmittedAccessesHaveAnOutcome : Obligations.OnlyAdmittedAccessesHaveAnOutcome := by
  intro s off n v hrst
  split
  · next hadm =>
    obtain ⟨r, hr⟩ := locate_of_admitted hadm
    rw [hostStep_read hrst hr, hostStep_write v hrst hr]
    exact ⟨⟨_, rfl⟩, hostWrite_eq_next s r v⟩
  · next hadm => simp [hostStep, hrst, locate_of_not_admitted hadm]

/-! ### The same machine at another base -/

/-- The machine with its register space at another base (R62). -/
def State.atBase (s : State) (b : Nat) : State := { s with params := { s.params with base := b } }

/-- The answer of a step with the next state, where there is one, at another base. -/
def Result.atBase (b : Nat) : Result → Result
  | .next t => .next (t.atBase b)
  | .fault f => .fault f
  | .refused r => .refused r

@[simp] theorem State.atBase_int (s : State) (b : Nat) : (s.atBase b).int = s.int := rfl
@[simp] theorem State.atBase_stat (s : State) (b : Nat) : (s.atBase b).stat = s.stat := rfl
@[simp] theorem State.atBase_crcchk (s : State) (b : Nat) : (s.atBase b).crcchk = s.crcchk := rfl
@[simp] theorem State.atBase_rstN (s : State) (b : Nat) : (s.atBase b).rstN = s.rstN := rfl
@[simp] theorem State.atBase_env (s : State) (b : Nat) : (s.atBase b).env = s.env := rfl
@[simp] theorem State.posOf_atBase (s : State) (b : Nat) (i : Instr) : (s.atBase b).posOf i = s.posOf i := rfl
@[simp] theorem State.rx_atBase (s : State) (b : Nat) : (s.atBase b).rx = s.rx.atBase b := rfl
@[simp] theorem State.cardByte_atBase (s : State) (b : Nat) : (s.atBase b).cardByte = s.cardByte := rfl

/-- Writing DATA is the same write at either base. -/
@[simp] theorem State.setData_atBase (s : State) (b i : Nat) (x : Byte) :
    (s.atBase b).setData i x = (s.setData i x).atBase b := by
  unfold State.setData
  split <;> rfl

/-- The running checksum takes the byte at either base. -/
@[simp] theorem State.runCrc_atBase (s : State) (b : Nat) (x : Byte) : (s.atBase b).runCrc x = (s.runCrc x).atBase b := by
  unfold State.runCrc
  rw [State.atBase_crcchk]
  split <;> rfl

/-! ### Engine steps at another base -/

/-- The readiness wait reads its budget, not BASE (R130). -/
theorem waitStep_atBase (p : WaitPos) (s : State) (b : Nat) :
    waitStep p (s.atBase b) = (waitStep p s).map id (·.atBase b) := by
  cases p with
  | arm | read => rfl
  | test =>
    simp only [waitStep, apply_ite (Prod.map id (State.atBase · b))]
    rfl

/-- The power-on sequence reads its counts, not BASE (R132). -/
theorem powerStep_atBase (p : PowerPos) (s : State) (b : Nat) :
    powerStep p (s.atBase b) = (powerStep p s).map id (·.atBase b) := by
  cases p <;> rfl

/-- `sendCmd` reads its tries and its gate's budget, not BASE (R139). -/
theorem sendStep_atBase (idx : BitVec 6) (arg : Word) (p : SendPos) (s : State) (b : Nat) :
    sendStep idx arg p (s.atBase b) = (sendStep idx arg p s).map id (·.atBase b) := by
  cases p with
  | wait q =>
    simp only [sendStep, waitStep_atBase]
    rcases waitStep q s with ⟨q' | w, t⟩
    · rfl
    · simp only [apply_ite (Prod.map id (State.atBase · b))]
      rfl
  | frame k | stuff | tries | poll | count => rfl

/-- The token test reads int.R and T1 only (R182). -/
theorem rdblkTokenTest_atBase (s : State) (b : Nat) :
    rdblkTokenTest (s.atBase b) = (rdblkTokenTest s).map id (·.atBase b) := by
  simp only [rdblkTokenTest, apply_ite (Prod.map id (State.atBase · b))]
  rfl

/-- RDBLK makes the same step at either base (R181). -/
theorem rdblkStep_atBase (len : Nat) (p : RdblkPos) (s : State) (b : Nat) :
    rdblkStep len p (s.atBase b) = (rdblkStep len p s).atBase b := by
  cases p with
  | tokenTest => rw [rdblkStep, rdblkTokenTest_atBase]; rfl
  | payload i => simp only [rdblkStep, State.rx_atBase, State.cardByte_atBase, State.setData_atBase, State.runCrc_atBase]; rfl
  | _ => rfl

/-- WRBLK makes the same step at either base (R186). -/
theorem wrblkStep_atBase (tok : Token) (p : WrblkPos) (s : State) (b : Nat) :
    wrblkStep tok p (s.atBase b) = (wrblkStep tok p s).atBase b := by
  cases p with
  | wait q =>
    simp only [wrblkStep, waitStep_atBase]
    rcases waitStep q s with ⟨q' | w, t⟩ <;> rfl
  | _ => rfl

/-- INIT makes the same step at either base (R220). -/
theorem initStep_atBase (p : InitPos) (s : State) (b : Nat) : initStep p (s.atBase b) = (initStep p s).atBase b := by
  cases p with
  | diskTest =>
    simp only [initStep, apply_ite (State.atBase · b)]
    rfl
  | power q =>
    simp only [initStep, powerStep_atBase]
    rcases powerStep q s with ⟨q' | r, t⟩ <;> rfl
  | cmd c q =>
    simp only [initStep, sendStep_atBase]
    rcases sendStep c.index c.argument q s with ⟨q' | r, t⟩ <;> rfl
  | _ => rfl

/-- Every op does the same at either base, where it starts and where it runs. -/
theorem exec_atBase (i : Instr) (s : State) (b : Nat) : exec i (s.atBase b) = Result.atBase b (exec i s) := by
  cases i with
  | pwron =>
    simp only [exec, execPwron, State.posOf_atBase, powerStep_atBase]
    split
    case h_1 p _ => rcases powerStep p s with ⟨q | r, t⟩ <;> rfl
    all_goals rfl
  | waitrdy =>
    simp only [exec, execWaitrdy, State.posOf_atBase, waitStep_atBase]
    split
    case h_1 p _ => rcases waitStep p s with ⟨q | r, t⟩ <;> rfl
    all_goals rfl
  | cmd idx =>
    simp only [exec, execCmd, State.posOf_atBase, State.atBase_int, sendStep_atBase]
    split
    case h_1 p _ => rcases sendStep idx s.int.argl p s with ⟨q | r, t⟩ <;> rfl
    all_goals rfl
  | rxb len =>
    simp only [exec, execRxb, State.posOf_atBase, State.rx_atBase, State.cardByte_atBase, State.setData_atBase]
    split <;> rfl
  | rdblk len =>
    simp only [exec, execRdblk, State.posOf_atBase, rdblkStep_atBase]
    split <;> rfl
  | wrblk tok =>
    simp only [exec, execWrblk, State.posOf_atBase, wrblkStep_atBase]
    split <;> rfl
  | init =>
    simp only [exec, execInit, State.posOf_atBase, initStep_atBase]
    split <;> rfl
  | pwroff | pwrchk | csel | cdesel | txb | saddr | media =>
    simp only [exec, execPwroff, execPwrchk, execCsel, execCdesel, execTxb, execSaddr, execMedia, State.posOf_atBase]
    split <;> rfl

/-- An engine step does the same at either base. -/
theorem engineStep_atBase (s : State) (b : Nat) : engineStep (s.atBase b) = Result.atBase b (engineStep s) := by
  simp only [engineStep, State.atBase_int]
  split
  · rfl
  · exact exec_atBase _ s b

/-! ### Host accesses at another base -/

/-- A read records the same value at either base: accesses are named by offset. -/
theorem State.hostRead_atBase (s : State) (b : Nat) (r : HostReg) : (s.atBase b).hostRead r = (s.hostRead r).atBase b := by
  cases r <;> rfl

/-- Acceptance starts or refuses the same op at either base. -/
theorem acceptOp_atBase (s : State) (b : Nat) (w : Word) : acceptOp (s.atBase b) w = Result.atBase b (acceptOp s w) := by
  unfold acceptOp
  split
  · exact exec_atBase _ (s.latch w) b
  · rfl

/-- A write that starts no op stores the same at either base. -/
theorem State.hostStore_atBase (s : State) (b : Nat) (r : HostReg) (v : Word) :
    (s.atBase b).hostStore r v = (s.hostStore r v).atBase b := by
  cases r with
  | arg | cfg | data i =>
    simp only [State.hostStore, State.setData_atBase, apply_ite (State.atBase · b)]
    rfl
  | op | stat | rdata | t1 | t2 | reserved => rfl

/-- A write to any register does the same at either base. -/
theorem hostWrite_atBase (s : State) (b : Nat) (r : HostReg) (v : Word) :
    hostWrite (s.atBase b) r v = Result.atBase b (hostWrite s r v) := by
  cases r with
  | op =>
    simp only [hostWrite, State.atBase_stat, acceptOp_atBase]
    split <;> rfl
  | arg | stat | rdata | t1 | t2 | cfg | reserved | data i => exact congrArg Host.Outcome.next (s.hostStore_atBase b _ v)

/-- A host access has the same outcome at either base (R61, R62). -/
theorem hostStep_atBase (s : State) (b : Nat) (a : HostAccess) : hostStep (s.atBase b) a = Result.atBase b (hostStep s a) := by
  simp only [hostStep, State.atBase_rstN, hostWrite_atBase, State.hostRead_atBase]
  split
  · cases a with
    | read off n | write off n v =>
      dsimp only
      split <;> rfl
  · rfl

/-- The host program moves on alike at either base. -/
theorem State.advanceProgram_atBase (s : State) (b : Nat) : (s.atBase b).advanceProgram = s.advanceProgram.atBase b := by
  simp only [State.advanceProgram, State.atBase_env]
  split
  · rfl
  · simp only [apply_ite (State.atBase · b)]
    rfl

/-- The host program's access has the same outcome at either base. -/
theorem programStep_atBase (s : State) (b : Nat) : programStep (s.atBase b) = Result.atBase b (programStep s) := by
  simp only [programStep, State.atBase_env, hostStep_atBase]
  split
  · rfl
  · next c _ _ =>
    rcases hostStep s (stmtAccess c) with t | f | r
    · exact congrArg _ (t.advanceProgram_atBase b)
    · rfl
    · rfl

/-- Every event of every agent acts alike at either base (R62). -/
theorem applyEvent_atBase (e : Event) (s : State) (b : Nat) :
    applyEvent e (s.atBase b) = Result.atBase b (applyEvent e s) := by
  cases e with
  | engine => exact engineStep_atBase s b
  | host a => exact hostStep_atBase s b a
  | program => exact programStep_atBase s b
  | tick | resetLow | resetHigh => rfl

/-- Settles O19: every event acts at the other base as it does at this one. -/
theorem baseChangesNoBehaviour : Obligations.BaseChangesNoBehaviour := by
  intro s t b hstep
  calc step (s.atBase b) = Result.atBase b (step s) := applyEvent_atBase s.nextEvent s.takeEvent b
    _ = .next (t.atBase b) := by rw [hstep]; rfl

end Sys2Proof.Machine

/-! PROOFS. Op words: the decoder, its encoder and the table of R95 agree (30_encoding.md R90 to R97, R112). -/

namespace Sys2Proof

/-! ### Words and fields as numbers -/

/-- A field is a quotient and a remainder. -/
theorem toNat_field (w : Word) (lo n : Nat) : (w.extractLsb' lo n).toNat = w.toNat / 2 ^ lo % 2 ^ n := by
  rw [BitVec.extractLsb'_toNat, Nat.shiftRight_eq_div_pow]

/-- A field is 0 when its number is. -/
theorem field_eq_zero_iff (w : Word) (lo n : Nat) : w.extractLsb' lo n = 0 ↔ w.toNat / 2 ^ lo % 2 ^ n = 0 := by
  rw [← toNat_field, BitVec.toNat_eq]
  rfl

/-- A field that reaches the top of the word is 0 when nothing stands from its low bit on. -/
theorem topField_eq_zero_iff (w : Word) {lo n : Nat} (h : lo + n = 32) : w.extractLsb' lo n = 0 ↔ w.toNat / 2 ^ lo = 0 := by
  have hlt : w.toNat / 2 ^ lo < 2 ^ n := Nat.div_lt_of_lt_mul (by rw [← Nat.pow_add, h]; exact w.isLt)
  rw [field_eq_zero_iff, Nat.mod_eq_of_lt hlt]

theorem toNat_opcField (w : Word) : (opcField w).toNat = w.toNat % 256 := by
  rw [opcField, toNat_field, Nat.pow_zero, Nat.div_one]
  rfl

theorem toNat_idxField (w : Word) : (idxField w).toNat = w.toNat / 2 ^ 8 % 2 ^ 6 := toNat_field w 8 6

theorem lenField_eq (w : Word) : lenField w = w.toNat / 2 ^ 16 % 2 ^ 10 := toNat_field w 16 10

theorem toNat_tokField (w : Word) : (tokField w).toNat = w.toNat / 2 ^ 8 % 4 := toNat_field w 8 2

/-- An operand placed above the opcode adds to it (R112). -/
theorem toNat_or_shiftLeft {p x : Word} {lo : Nat} (hp : p.toNat < 2 ^ lo) (hx : x.toNat * 2 ^ lo < 2 ^ 32) :
    (p ||| x <<< lo).toNat = p.toNat + x.toNat * 2 ^ lo := by
  rw [BitVec.toNat_or, BitVec.toNat_shiftLeft, Nat.shiftLeft_eq, Nat.mod_eq_of_lt hx, Nat.or_comm, Nat.mul_comm,
    ← Nat.two_pow_add_eq_or_of_lt hp, Nat.add_comm]

theorem toNat_encode_cmd (idx : BitVec 6) : (encode (.cmd idx)).toNat = 7 + idx.toNat * 2 ^ 8 := by
  have hidx : (idx.setWidth 32).toNat = idx.toNat := BitVec.toNat_setWidth_of_le (by decide)
  rw [encode, toNat_or_shiftLeft (by decide) (by rw [hidx]; omega), hidx]
  rfl

/-- The words of the format L ops, by their opcode (R93). -/
theorem toNat_lenWord {p : Word} {len : Nat} (hp : p.toNat < 2 ^ 16) (hlen : lenOk len) :
    (p ||| BitVec.ofNat 32 len <<< 16).toNat = p.toNat + len * 2 ^ 16 := by
  have hle : len ≤ 512 := hlen.2
  have hlen : (BitVec.ofNat 32 len).toNat = len := by
    rw [BitVec.toNat_ofNat, Nat.mod_eq_of_lt (by omega)]
  rw [toNat_or_shiftLeft hp (by rw [hlen]; omega), hlen]

theorem toNat_encode_rxb {len : Nat} (h : lenOk len) : (encode (.rxb len)).toNat = 9 + len * 2 ^ 16 :=
  toNat_lenWord (by decide) h

theorem toNat_encode_rdblk {len : Nat} (h : lenOk len) : (encode (.rdblk len)).toNat = 10 + len * 2 ^ 16 :=
  toNat_lenWord (by decide) h

theorem toNat_encode_wrblk (tok : Token) : (encode (.wrblk tok)).toNat = 11 + (tokCode tok).toNat * 2 ^ 8 := by
  cases tok <;> rfl

/-! ### When each format decodes to an op -/

/-- A check that refuses the word when it fails: the op comes from the checked branch. -/
theorem ite_illegal_eq_op_iff {c : Prop} [Decidable c] {d : Decoded} {e : Illegal} {j : Instr} :
    (if c then d else .illegal e) = .op j ↔ c ∧ d = .op j := by
  split <;> simp_all

theorem decodeN_eq_op_iff {w : Word} {i j : Instr} : decodeN w i = .op j ↔ w.toNat / 2 ^ 8 = 0 ∧ i = j := by
  rw [decodeN, ite_illegal_eq_op_iff, topField_eq_zero_iff w rfl, Decoded.op.injEq]

theorem decodeC_eq_op_iff {w : Word} {j : Instr} : decodeC w = .op j ↔ w.toNat / 2 ^ 14 = 0 ∧ .cmd (idxField w) = j := by
  rw [decodeC, ite_illegal_eq_op_iff, topField_eq_zero_iff w rfl, Decoded.op.injEq]

theorem decodeL_eq_op_iff {w : Word} {mk : Nat → Instr} {j : Instr} :
    decodeL w mk = .op j ↔
      (w.toNat / 2 ^ 26 = 0 ∧ w.toNat / 2 ^ 8 % 2 ^ 8 = 0) ∧ lenOk (lenField w) ∧ mk (lenField w) = j := by
  rw [decodeL, ite_illegal_eq_op_iff, ite_illegal_eq_op_iff, topField_eq_zero_iff w rfl, field_eq_zero_iff, Decoded.op.injEq]

theorem decodeT_eq_op_iff {w : Word} {j : Instr} :
    decodeT w = .op j ↔ w.toNat / 2 ^ 10 = 0 ∧ ∃ tok, (tokField w).toNat = (tokCode tok).toNat ∧ .wrblk tok = j := by
  rw [decodeT, ite_illegal_eq_op_iff, topField_eq_zero_iff w rfl]
  refine and_congr_right fun _ => ⟨fun h => ?_, ?_⟩
  · split at h
    · next hf => cases h; exact ⟨.single, by rw [hf]; rfl, rfl⟩
    · split at h
      · next hf => cases h; exact ⟨.multi, by rw [hf]; rfl, rfl⟩
      · obtain ⟨hf, h⟩ := ite_illegal_eq_op_iff.1 h
        cases h
        exact ⟨.stop, by rw [hf]; rfl, rfl⟩
  · rintro ⟨tok, htok, rfl⟩
    have hf : tokField w = (tokCode tok).setWidth 2 := BitVec.eq_of_toNat_eq (by rw [htok]; cases tok <;> rfl)
    rw [hf]
    cases tok <;> rfl

/-- Every TOK but 3 is the code of a token (R94). -/
theorem exists_tokCode_iff {n : Nat} (h : n < 4) : (∃ tok, n = (tokCode tok).toNat) ↔ n ≠ 3 := by
  constructor
  · rintro ⟨tok, rfl⟩
    cases tok <;> decide
  · intro h3
    obtain rfl | rfl | rfl : n = 0 ∨ n = 1 ∨ n = 2 := by omega
    exacts [⟨.single, rfl⟩, ⟨.multi, rfl⟩, ⟨.stop, rfl⟩]

/-! ### Decoding the word of an op -/

theorem decode_of_opc_cmd {w : Word} (h : w.toNat % 256 = 7) : decode w = decodeC w := by
  rw [decode, toNat_opcField, h]; rfl

theorem decode_of_opc_rxb {w : Word} (h : w.toNat % 256 = 9) : decode w = decodeL w .rxb := by
  rw [decode, toNat_opcField, h]; rfl

theorem decode_of_opc_rdblk {w : Word} (h : w.toNat % 256 = 10) : decode w = decodeL w .rdblk := by
  rw [decode, toNat_opcField, h]; rfl

theorem decode_of_opc_wrblk {w : Word} (h : w.toNat % 256 = 11) : decode w = decodeT w := by
  rw [decode, toNat_opcField, h]; rfl

/-- A word that holds LEN above an opcode has zeros in the reserved fields of format L. -/
theorem decodeL_of_toNat {w : Word} {opc len : Nat} (mk : Nat → Instr) (hopc : opc < 256) (hlen : lenOk len)
    (hw : w.toNat = opc + len * 2 ^ 16) : decodeL w mk = .op (mk len) := by
  have hle : len ≤ 512 := hlen.2
  have hfield : lenField w = len := by rw [lenField_eq]; omega
  exact decodeL_eq_op_iff.2 ⟨⟨by omega, by omega⟩, hfield.symm ▸ hlen, by rw [hfield]⟩

/-- Settles O2: the words without an operand and the three of WRBLK decode by evaluation; of the others the number of the word
gives back opcode and operand. -/
theorem decodeOfEncodeIsTheOp : Obligations.DecodeOfEncodeIsTheOp := by
  intro i hwf
  cases i with
  | pwron | pwroff | pwrchk | waitrdy | csel | cdesel | txb | init | saddr | media => rfl
  | cmd idx =>
    have hw := toNat_encode_cmd idx
    have hidx : idxField (encode (.cmd idx)) = idx := BitVec.eq_of_toNat_eq (by rw [toNat_idxField]; omega)
    rw [decode_of_opc_cmd (by omega)]
    exact decodeC_eq_op_iff.2 ⟨by omega, by rw [hidx]⟩
  | rxb len =>
    have hlen : lenOk len := of_decide_eq_true hwf
    have hw := toNat_encode_rxb hlen
    rw [decode_of_opc_rxb (by omega)]
    exact decodeL_of_toNat .rxb (by decide) hlen hw
  | rdblk len =>
    have hlen : lenOk len := of_decide_eq_true hwf
    have hw := toNat_encode_rdblk hlen
    rw [decode_of_opc_rdblk (by omega)]
    exact decodeL_of_toNat .rdblk (by decide) hlen hw
  | wrblk tok => cases tok <;> rfl

/-! ### The only word of an op -/

theorem ownWord_of_decodeN {w : Word} {i j : Instr} (h : decodeN w i = .op j) (hopc : w.toNat % 256 = (encode i).toNat)
    (hwf : WellFormed i = true) : WellFormed j = true ∧ encode j = w := by
  obtain ⟨hzero, rfl⟩ := decodeN_eq_op_iff.1 h
  exact ⟨hwf, BitVec.eq_of_toNat_eq (by omega)⟩

theorem ownWord_of_decodeC {w : Word} {j : Instr} (h : decodeC w = .op j) (hopc : w.toNat % 256 = 7) :
    WellFormed j = true ∧ encode j = w := by
  obtain ⟨hzero, rfl⟩ := decodeC_eq_op_iff.1 h
  refine ⟨rfl, BitVec.eq_of_toNat_eq ?_⟩
  rw [toNat_encode_cmd, toNat_idxField]
  omega

theorem ownWord_of_decodeL {w : Word} {mk : Nat → Instr} {j : Instr} {opc : Nat} (h : decodeL w mk = .op j)
    (hopc : w.toNat % 256 = opc) (hwf : ∀ len, lenOk len → WellFormed (mk len) = true)
    (hmk : ∀ len, lenOk len → (encode (mk len)).toNat = opc + len * 2 ^ 16) : WellFormed j = true ∧ encode j = w := by
  obtain ⟨⟨htop, hmid⟩, hlen, rfl⟩ := decodeL_eq_op_iff.1 h
  refine ⟨hwf _ hlen, BitVec.eq_of_toNat_eq ?_⟩
  rw [hmk _ hlen, lenField_eq]
  omega

theorem ownWord_of_decodeT {w : Word} {j : Instr} (h : decodeT w = .op j) (hopc : w.toNat % 256 = 11) :
    WellFormed j = true ∧ encode j = w := by
  obtain ⟨hzero, tok, htok, rfl⟩ := decodeT_eq_op_iff.1 h
  rw [toNat_tokField] at htok
  refine ⟨rfl, BitVec.eq_of_toNat_eq ?_⟩
  rw [toNat_encode_wrblk]
  omega

/-- Settles O3: in each format the opcode, the fields checked to be 0 and the operand make up the whole word. -/
theorem onlyItsOwnWordDecodesToAnOp : Obligations.OnlyItsOwnWordDecodesToAnOp := by
  intro w i h
  rw [decode, toNat_opcField] at h
  split at h
  case h_7 hopc => exact ownWord_of_decodeC h hopc
  case h_9 hopc => exact ownWord_of_decodeL h hopc (fun _ => decide_eq_true) fun _ => toNat_encode_rxb
  case h_10 hopc => exact ownWord_of_decodeL h hopc (fun _ => decide_eq_true) fun _ => toNat_encode_rdblk
  case h_11 hopc => exact ownWord_of_decodeT h hopc
  case h_15 => cases h
  all_goals
    next hopc => exact ownWord_of_decodeN h hopc rfl

/-! ### The table of R95 -/

/-- The row of an op selects its word. -/
theorem exists_row_of_wellFormed {i : Instr} (h : WellFormed i = true) :
    ∃ r ∈ opTable, r.mnemonic = i.mnemonic ∧ r.selects (encode i) := by
  cases i with
  | pwron => exact Laws.TableRow.pwron h
  | pwroff => exact Laws.TableRow.pwroff h
  | pwrchk => exact Laws.TableRow.pwrchk h
  | waitrdy => exact Laws.TableRow.waitrdy h
  | csel => exact Laws.TableRow.csel h
  | cdesel => exact Laws.TableRow.cdesel h
  | cmd idx => exact Laws.TableRow.cmd idx h
  | txb => exact Laws.TableRow.txb h
  | rxb len => exact Laws.TableRow.rxb len h
  | rdblk len => exact Laws.TableRow.rdblk len h
  | wrblk tok => exact Laws.TableRow.wrblk tok h
  | init => exact Laws.TableRow.init h
  | saddr => exact Laws.TableRow.saddr h
  | media => exact Laws.TableRow.media h

/-- A word has no bit at or above `lo` when its number is below `2 ^ lo`. -/
theorem getLsbD_of_toNat_lt {p : Word} {lo k : Nat} (hp : p.toNat < 2 ^ lo) (hk : lo ≤ k) : p.getLsbD k = false :=
  Nat.testBit_lt_two_pow (Nat.lt_of_lt_of_le hp (Nat.pow_le_pow_right (by decide) hk))

/-- A mask of R95 that clears the bits from `lo` to `hi` checks the word below `lo` and wants 0 from `hi` on. -/
theorem fields_of_and_mask {w mask p : Word} {lo hi : Nat} (h : w &&& mask = p)
    (hmask : ∀ k : Fin 32, k.val < lo ∨ hi ≤ k.val → mask.getLsbD k = true) (hp : p.toNat < 2 ^ lo) (hle : lo ≤ hi) :
    w.toNat % 2 ^ lo = p.toNat ∧ w.toNat / 2 ^ hi = 0 := by
  have hkept : ∀ k, k < lo ∨ hi ≤ k → w.toNat.testBit k = p.toNat.testBit k := fun k hk => by
    show w.getLsbD k = p.getLsbD k
    rcases Nat.lt_or_ge k 32 with h32 | h32
    · rw [← h, BitVec.getLsbD_and, hmask ⟨k, h32⟩ hk, Bool.and_true]
    · rw [BitVec.getLsbD_of_ge _ _ h32, BitVec.getLsbD_of_ge _ _ h32]
  constructor <;> apply Nat.eq_of_testBit_eq <;> intro k
  · rw [Nat.testBit_mod_two_pow]
    by_cases hk : k < lo
    · simpa [hk] using hkept k (.inl hk)
    · rw [decide_eq_false hk, Bool.false_and]
      exact (getLsbD_of_toNat_lt hp (Nat.le_of_not_lt hk)).symm
  · rw [Nat.testBit_div_two_pow, Nat.zero_testBit, hkept _ (.inr (Nat.le_add_left _ _))]
    exact getLsbD_of_toNat_lt hp (by omega)

/-- A word that the row selects decodes to an op of the row's mnemonic. -/
def OpRow.Decodes (r : OpRow) : Prop := ∀ w, r.selects w → ∃ i, decode w = .op i ∧ i.mnemonic = r.mnemonic

/-- A full mask leaves one word. -/
theorem OpRow.decodes_fullMask {m : String} {p : Word} {i : Instr} (hdec : decode p = .op i) (hm : i.mnemonic = m) :
    OpRow.Decodes ⟨m, p, 0xFFFFFFFF, .any⟩ := by
  rintro w ⟨hmask, -⟩
  have hw : w = p := (BitVec.and_allOnes (x := w)).symm.trans hmask
  exact ⟨i, hw ▸ hdec, hm⟩

theorem OpRow.decodes_cmd : OpRow.Decodes ⟨"CMD", 0x07, 0xFFFFC0FF, .any⟩ := by
  rintro w ⟨hmask, -⟩
  obtain ⟨hopc, htop⟩ := fields_of_and_mask (lo := 8) (hi := 14) hmask (by decide) (by decide) (by decide)
  exact ⟨_, (decode_of_opc_cmd hopc).trans (decodeC_eq_op_iff.2 ⟨htop, rfl⟩), rfl⟩

/-- The rows of format L (R93), by their opcode. -/
theorem OpRow.decodes_len {m : String} {p : Word} {mk : Nat → Instr} (hp : p.toNat < 256)
    (hdec : ∀ w : Word, w.toNat % 256 = p.toNat → decode w = decodeL w mk) (hm : ∀ len, (mk len).mnemonic = m) :
    OpRow.Decodes ⟨m, p, 0xFC00FFFF, .len⟩ := by
  rintro w ⟨hmask, hlen⟩
  obtain ⟨hlow, htop⟩ := fields_of_and_mask (mask := 0xFC00FFFF) (p := p) (lo := 16) (hi := 26) hmask (by decide) (by omega)
    (by decide)
  exact ⟨_, (hdec w (by omega)).trans (decodeL_eq_op_iff.2 ⟨⟨htop, by omega⟩, hlen, rfl⟩), hm _⟩

theorem OpRow.decodes_wrblk : OpRow.Decodes ⟨"WRBLK", 0x0B, 0xFFFFFCFF, .tok⟩ := by
  rintro w ⟨hmask, htok⟩
  obtain ⟨hopc, htop⟩ := fields_of_and_mask (lo := 8) (hi := 10) hmask (by decide) (by decide) (by decide)
  obtain ⟨tok, htok⟩ := (exists_tokCode_iff (tokField w).isLt).2 fun h => htok (BitVec.eq_of_toNat_eq h)
  exact ⟨_, (decode_of_opc_wrblk hopc).trans (decodeT_eq_op_iff.2 ⟨htop, tok, htok, rfl⟩), rfl⟩

theorem OpRow.decodes_of_mem : ∀ r ∈ opTable, r.Decodes := by
  simp only [opTable, List.forall_mem_cons]
  exact ⟨decodes_fullMask (i := .pwron) rfl rfl, decodes_fullMask (i := .pwroff) rfl rfl,
    decodes_fullMask (i := .pwrchk) rfl rfl, decodes_fullMask (i := .waitrdy) rfl rfl,
    decodes_fullMask (i := .csel) rfl rfl, decodes_fullMask (i := .cdesel) rfl rfl, decodes_cmd,
    decodes_fullMask (i := .txb) rfl rfl, decodes_len (by decide) (fun _ => decode_of_opc_rxb) fun _ => rfl,
    decodes_len (by decide) (fun _ => decode_of_opc_rdblk) fun _ => rfl, decodes_wrblk,
    decodes_fullMask (i := .init) rfl rfl, decodes_fullMask (i := .saddr) rfl rfl,
    decodes_fullMask (i := .media) rfl rfl, by simp⟩

/-- Every mask keeps OPC, so the word a row selects has the row's pattern there. -/
theorem OpRow.opc_of_selects {r : OpRow} {w : Word} (hr : r ∈ opTable) (h : r.selects w) : w &&& 0xFF = r.pattern := by
  have hrow : ∀ r ∈ opTable, r.mask &&& 0xFF = 0xFF ∧ r.pattern &&& 0xFF = r.pattern := by decide
  obtain ⟨hmask, hpattern⟩ := hrow r hr
  calc w &&& 0xFF = (w &&& r.mask) &&& 0xFF := by rw [BitVec.and_assoc, hmask]
    _ = r.pattern := by rw [h.1, hpattern]

/-- Settles O4: a decoded word is the word of its op, which the op's row selects; a selected word decodes row by row; and no two
rows share an opcode. -/
theorem decoderAgreesWithTheMatchTable : Obligations.DecoderAgreesWithTheMatchTable := by
  refine ⟨fun w m => ⟨?_, ?_⟩, fun w r hr q hq hrw hqw => ?_⟩
  · rintro ⟨i, hdec, rfl⟩
    obtain ⟨hwf, rfl⟩ := onlyItsOwnWordDecodesToAnOp w i hdec
    exact exists_row_of_wellFormed hwf
  · rintro ⟨r, hr, rfl, hsel⟩
    exact OpRow.decodes_of_mem r hr w hsel
  · have hinj : ∀ r ∈ opTable, ∀ q ∈ opTable, r.pattern = q.pattern → r = q := by decide
    exact hinj r hr q hq ((OpRow.opc_of_selects hr hrw).symm.trans (OpRow.opc_of_selects hq hqw))

/-! ### Illegal words -/

/-- A word is illegal when it decodes to no op. -/
theorem illegal_iff_no_op (d : Decoded) : (∃ e, d = .illegal e) ↔ ¬ ∃ j, d = .op j := by
  cases d <;> simp

theorem decodeN_illegal_iff {w : Word} {i : Instr} : (∃ e, decodeN w i = .illegal e) ↔ w.toNat / 2 ^ 8 ≠ 0 := by
  simp only [illegal_iff_no_op, decodeN_eq_op_iff, exists_and_left, exists_eq', and_true, ne_eq]

theorem decodeC_illegal_iff {w : Word} : (∃ e, decodeC w = .illegal e) ↔ w.toNat / 2 ^ 14 ≠ 0 := by
  simp only [illegal_iff_no_op, decodeC_eq_op_iff, exists_and_left, exists_eq', and_true, ne_eq]

theorem decodeL_illegal_iff {w : Word} {mk : Nat → Instr} :
    (∃ e, decodeL w mk = .illegal e) ↔
      w.toNat / 2 ^ 26 ≠ 0 ∨ w.toNat / 2 ^ 8 % 2 ^ 8 ≠ 0 ∨ w.toNat / 2 ^ 16 % 2 ^ 10 = 0 ∨
        512 < w.toNat / 2 ^ 16 % 2 ^ 10 := by
  simp only [illegal_iff_no_op, decodeL_eq_op_iff, exists_and_left, exists_eq', and_true, lenField_eq, lenOk, blockLen]
  omega

theorem decodeT_illegal_iff {w : Word} :
    (∃ e, decodeT w = .illegal e) ↔ w.toNat / 2 ^ 10 ≠ 0 ∨ w.toNat / 2 ^ 8 % 4 = 3 := by
  have htok : (∃ j tok, (tokField w).toNat = (tokCode tok).toNat ∧ Instr.wrblk tok = j) ↔ w.toNat / 2 ^ 8 % 4 ≠ 3 := by
    rw [exists_comm, ← toNat_tokField, ← exists_tokCode_iff (tokField w).isLt]
    simp only [exists_and_left, exists_eq', and_true]
  simp only [illegal_iff_no_op, decodeT_eq_op_iff, exists_and_left, htok]
  omega

/-- Settles O5: opcode by opcode, the word is refused when a check of its format fails. -/
theorem illegalWordsAreThoseListed : Obligations.IllegalWordsAreThoseListed := by
  intro w
  rw [decode, toNat_opcField]
  split
  case h_7 hopc => simp [hopc, decodeC_illegal_iff]
  case h_9 hopc => simp [hopc, decodeL_illegal_iff]
  case h_10 hopc => simp [hopc, decodeL_illegal_iff]
  case h_11 hopc => simp [hopc, decodeT_illegal_iff]
  case h_15 =>
    have hunused : w.toNat % 256 = 0 ∨ 15 ≤ w.toNat % 256 := by
      simp only [imp_false] at *
      omega
    exact ⟨fun _ => .inl hunused, fun _ => ⟨_, rfl⟩⟩
  all_goals
    next hopc => simp [hopc, decodeN_illegal_iff]

/-- Settles O1: the decoder runs on the listed words. -/
theorem decodeOfTheListedOpWords : Obligations.DecodeOfTheListedOpWords := by
  unfold Obligations.DecodeOfTheListedOpWords
  decide

end Sys2Proof

/-! PROOFS. Host programs: each statement makes its access, and the program moves on (30_encoding.md R113). -/

namespace Sys2Proof.Machine

/-- A store leaves the rest of the host program alone. -/
theorem State.hostStore_program (s : State) (r : HostReg) (v : Word) : (s.hostStore r v).env.program = s.env.program := by
  rcases s.hostStore_cases r v with heq | ⟨-, heq⟩ | ⟨-, heq | heq | ⟨i, heq⟩⟩ <;> rw [heq]
  · rfl
  · rw [State.setData_env]

/-- So does a write, whether it is discarded, stored or accepted. -/
theorem hostWrite_program {s t : State} {r : HostReg} {v : Word} (h : hostWrite s r v = .next t) :
    t.env.program = s.env.program := by
  cases r with
  | op =>
    unfold hostWrite at h
    simp only at h
    split at h
    · cases h; rfl
    · rcases acceptOp_cases h with ⟨i, -, rfl⟩ | rfl <;> rfl
  | arg | stat | rdata | t1 | t2 | cfg | reserved | data i =>
    cases h
    exact s.hostStore_program _ v

/-- A host access leaves the host program for `advanceProgram` to move on. -/
theorem hostStep_program {s t : State} {a : HostAccess} (h : hostStep s a = .next t) : t.env.program = s.env.program := by
  unfold hostStep at h
  split at h
  · cases a with
    | read off n =>
      simp only at h
      split at h <;> cases h
      rfl
    | write off n v =>
      simp only at h
      split at h
      · exact hostWrite_program h
      · cases h
  · cases h

/-- The first statement of the program makes its access and goes when it is over. -/
theorem programStep_next {s t : State} {c : Stmt} {cs : List Stmt} (hprog : s.env.program = c :: cs)
    (h : hostStep s (stmtAccess c) = .next t) :
    programStep s = .next (if stmtOver c t.env.readValue then { t with env := { t.env with program := cs } } else t) := by
  have htprog : t.env.program = c :: cs := (hostStep_program h).trans hprog
  simp only [programStep, hprog, h, State.advanceProgram, htprog]

/-- An access without an outcome stops the program. -/
theorem programStep_fault {s : State} {c : Stmt} {cs : List Stmt} {f : Fault} (hprog : s.env.program = c :: cs)
    (h : hostStep s (stmtAccess c) = .fault f) : programStep s = .fault f := by
  simp only [programStep, hprog, h]

/-- A statement that does not wait is over after its access, whatever the access read. -/
theorem programStep_of_over {s : State} {c : Stmt} {cs : List Stmt} (hprog : s.env.program = c :: cs)
    (hover : ∀ o, stmtOver c o = true) :
    (∀ t, hostStep s (stmtAccess c) = .next t → programStep s = .next { t with env := { t.env with program := cs } }) ∧
      ∀ f, hostStep s (stmtAccess c) = .fault f → programStep s = .fault f :=
  ⟨fun t ht => by rw [programStep_next hprog ht, if_pos (hover _)], fun _ => programStep_fault hprog⟩

/-- WAIT is over when BUSY, bit 0 of the word it read (10_state.md R24), was 0. -/
theorem stmtOver_wait (t : Stat) : stmtOver .wait (some t.word) = !t.busy := by
  obtain ⟨hbusy, -⟩ := statReadsItsFields t
  exact congrArg (!·) hbusy

/-- Settles O50: each statement but WAIT is over after the access it makes; WAIT reads STAT and is over when BUSY was 0. -/
theorem hostProgramsMakeTheirAccesses : Obligations.HostProgramsMakeTheirAccesses := by
  refine ⟨fun s cs i v j b x hx hprog => ?_, fun s cs hrst hprog => ?_, fun i idx v b => ⟨rfl, rfl, rfl, rfl, rfl⟩⟩
  · simp only [List.mem_cons, List.not_mem_nil, or_false] at hx
    rcases hx with rfl | rfl | rfl | rfl | rfl | rfl | rfl | rfl | rfl | rfl | rfl | rfl <;>
      exact programStep_of_over hprog fun _ => rfl
  · have hread := hostStep_read_word (off := 0x008) (r := .stat) hrst rfl rfl
    refine (programStep_next hprog hread).trans ?_
    simp only [State.hostValue, stmtOver_wait]
    cases s.stat.busy
    · rfl
    · simp [← hprog]

end Sys2Proof.Machine

/-! PROOFS. PowerState gates nothing (40_readiness_and_dispatch.md R135). -/

namespace Sys2Proof.Machine

/-! ### The same machine at another PowerState -/

/-- The answer of a step with the next state, where there is one, at another PWR. -/
def Result.setPwr (f : Bool) : Result → Result
  | .next t => .next (t.setPwr f)
  | .fault r => .fault r
  | .refused r => .refused r

@[simp] theorem State.posOf_setPwr (s : State) (f : Bool) (i : Instr) : (s.setPwr f).posOf i = s.posOf i := rfl
@[simp] theorem State.rx_setPwr (s : State) (f : Bool) : (s.setPwr f).rx = s.rx.setPwr f := rfl
@[simp] theorem State.cardByte_setPwr (s : State) (f : Bool) : (s.setPwr f).cardByte = s.cardByte := rfl

/-- Writing DATA is the same write at either PWR. -/
@[simp] theorem State.setData_setPwr (s : State) (f : Bool) (k : Nat) (b : Byte) :
    (s.setPwr f).setData k b = (s.setData k b).setPwr f := by
  unfold State.setData
  split <;> rfl

/-- The running checksum takes the byte at either PWR. -/
@[simp] theorem State.runCrc_setPwr (s : State) (f : Bool) (b : Byte) :
    (s.setPwr f).runCrc b = (s.runCrc b).setPwr f := by
  unfold State.runCrc
  rw [State.setPwr_crcchk]
  split <;> rfl

/-! ### Steps at another PowerState -/

/-- The readiness wait tests int.R and T2, not PWR (R130). -/
theorem waitStep_setPwr (p : WaitPos) (s : State) (f : Bool) :
    waitStep p (s.setPwr f) = (waitStep p s).map id (·.setPwr f) := by
  cases p with
  | arm | read => rfl
  | test =>
    simp only [waitStep, apply_ite (Prod.map id (State.setPwr · f))]
    rfl

/-- The power-on sequence keeps PWR as it finds it, up to its last step, which sets it (R132). -/
theorem powerStep_setPwr (p : PowerPos) (s : State) (f : Bool) :
    ∃ g, powerStep p (s.setPwr f) = (powerStep p s).map id (·.setPwr g) := by
  cases p with
  | setPower => exact ⟨true, rfl⟩
  | deselect | idle | select | frame | tries | poll | count | release => exact ⟨f, rfl⟩

/-- `sendCmd` tests int.R, int.N and T2, not PWR (R139). -/
theorem sendStep_setPwr (idx : BitVec 6) (arg : Word) (p : SendPos) (s : State) (f : Bool) :
    sendStep idx arg p (s.setPwr f) = (sendStep idx arg p s).map id (·.setPwr f) := by
  cases p with
  | wait q =>
    simp only [sendStep, waitStep_setPwr]
    rcases waitStep q s with ⟨q' | w, t⟩
    · rfl
    · simp only [apply_ite (Prod.map id (State.setPwr · f))]
      rfl
  | frame | stuff | tries | poll | count => rfl

/-- RDBLK makes the same step at either PWR (R181). -/
theorem rdblkStep_setPwr (len : Nat) (p : RdblkPos) (s : State) (f : Bool) :
    rdblkStep len p (s.setPwr f) = (rdblkStep len p s).setPwr f := by
  cases p with
  | tokenTest =>
    have htest : rdblkTokenTest (s.setPwr f) = (rdblkTokenTest s).map id (·.setPwr f) := by
      simp only [rdblkTokenTest, apply_ite (Prod.map id (State.setPwr · f))]
      rfl
    rw [rdblkStep, htest]
    rfl
  | payload k =>
    simp only [rdblkStep, State.rx_setPwr, State.cardByte_setPwr, State.setData_setPwr, State.runCrc_setPwr]
    rfl
  | arm | token | check1 | check0 | verify | finish => rfl

/-- WRBLK makes the same step at either PWR (R186). -/
theorem wrblkStep_setPwr (tok : Token) (p : WrblkPos) (s : State) (f : Bool) :
    wrblkStep tok p (s.setPwr f) = (wrblkStep tok p s).setPwr f := by
  cases p with
  | wait q =>
    simp only [wrblkStep, waitStep_setPwr]
    rcases waitStep q s with ⟨q' | w, t⟩ <;> rfl
  | token | payload | filler | tries | response | count | armBusy | busy | busyTest | finish => rfl

/-- INIT makes the same step at either PWR, and writes PWR in the power-on sequence and where it fails (R220). -/
theorem initStep_setPwr (p : InitPos) (s : State) (f : Bool) :
    ∃ g, initStep p (s.setPwr f) = (initStep p s).setPwr g := by
  cases p with
  | diskTest =>
    refine ⟨f, ?_⟩
    simp only [initStep, apply_ite (State.setPwr · f)]
    rfl
  | power q =>
    obtain ⟨g, hg⟩ := powerStep_setPwr q s f
    refine ⟨g, ?_⟩
    simp only [initStep, hg]
    rcases powerStep q s with ⟨q' | r, t⟩ <;> rfl
  | cmd c q =>
    refine ⟨f, ?_⟩
    simp only [initStep, sendStep_setPwr]
    rcases sendStep c.index c.argument q s with ⟨q' | r, t⟩ <;> rfl
  | powerOff => exact ⟨false, rfl⟩
  | select | clearType | armBudget | echo | clearOk | setOk | loopTest | ocr | ocrType | legacyType | setCtype | deselect
  | trailing | setNoinit | clearNoinit | finish => exact ⟨f, rfl⟩

/-- Every op but PWRCHK does the same at either PWR: it keeps PWR, or it is one of the three that write it (R24, R135). -/
theorem exec_setPwr {i : Instr} (hi : i ≠ .pwrchk) (s : State) (f : Bool) :
    ∃ g, exec i (s.setPwr f) = Result.setPwr g (exec i s) := by
  cases i with
  | pwrchk => exact absurd rfl hi
  | pwron =>
    simp only [exec, execPwron, State.posOf_setPwr]
    split
    case h_1 p _ =>
      obtain ⟨g, hg⟩ := powerStep_setPwr p s f
      rw [hg]
      rcases powerStep p s with ⟨q | r, t⟩ <;> exact ⟨g, rfl⟩
    all_goals exact ⟨f, rfl⟩
  | pwroff =>
    simp only [exec, execPwroff, State.posOf_setPwr]
    split
    case h_1 => exact ⟨false, rfl⟩
    all_goals exact ⟨f, rfl⟩
  | waitrdy =>
    simp only [exec, execWaitrdy, State.posOf_setPwr, waitStep_setPwr]
    split
    case h_1 p _ => rcases waitStep p s with ⟨q | r, t⟩ <;> exact ⟨f, rfl⟩
    all_goals exact ⟨f, rfl⟩
  | cmd idx =>
    simp only [exec, execCmd, State.posOf_setPwr, State.setPwr_int, sendStep_setPwr]
    split
    case h_1 p _ => rcases sendStep idx s.int.argl p s with ⟨q | r, t⟩ <;> exact ⟨f, rfl⟩
    all_goals exact ⟨f, rfl⟩
  | init =>
    simp only [exec, execInit, State.posOf_setPwr]
    split
    case h_1 p _ =>
      obtain ⟨g, hg⟩ := initStep_setPwr p s f
      exact ⟨g, congrArg _ hg⟩
    all_goals exact ⟨f, rfl⟩
  | csel | cdesel | txb | rxb len | rdblk len | wrblk tok | saddr | media =>
    refine ⟨f, ?_⟩
    simp only [exec, execCsel, execCdesel, execTxb, execRxb, execRdblk, execWrblk, execSaddr, execMedia, State.posOf_setPwr,
      State.rx_setPwr, State.cardByte_setPwr, State.setData_setPwr, rdblkStep_setPwr, wrblkStep_setPwr]
    split <;> rfl

/-- Settles O16: at the other PWR the next state is the same one, at some PWR. -/
theorem powerStateGatesNoOp : Obligations.PowerStateGatesNoOp := by
  intro i s t f hi hexec
  obtain ⟨g, hg⟩ := exec_setPwr hi s f
  rw [hexec] at hg
  exact ⟨t.setPwr g, hg, rfl⟩

end Sys2Proof.Machine

/-! PROOFS. The power, chip-select, readiness, command and raw byte ops, from their start to their `finish`
(40_readiness_and_dispatch.md R130 to R147). -/

namespace Sys2Proof.Machine

/-- Two engine steps. -/
theorem execN_two {i : Instr} {s t u : State} (h : exec i s = .next t ∧ exec i t = .next u) : execN i 2 s = .next u :=
  (execN_succ h.1 1).trans (execN_succ h.2 0)

/-! ### Power and chip-select ops -/

/-- PWRON goes on as its power-on sequence does (R131). -/
theorem powerIn_pwron : PowerIn .pwron (fun p => .pwron (.seq p)) := by
  intro s t p q hs hstep
  simp only [exec, execPwron, State.posOf_eq hs, hstep]

/-- The last write of the power-on sequence, then `finish`. -/
theorem pwron_end {s : State} (hs : s.standsAt .pwron (.pwron (.seq .setPower))) :
    execN .pwron 2 s = .next ((s.setPwr true).finish .none (some (zext s.int.r))) := by
  refine execN_two (t := (s.setPwr true).goto .pwron (.pwron .finish)) ⟨?_, rfl⟩
  simp only [exec, execPwron, State.posOf_eq hs, powerStep]

/-- Settles O20: the power-on sequence up to its last write, that write, and `finish`. -/
theorem pwronWakesTheCard : Obligations.PwronWakesTheCard := by
  intro s noise refusals r hs hnoise hrefuse hend hsends
  obtain ⟨k, n, hrun⟩ := powerOn_run powerIn_pwron s noise refusals r [] hs hnoise hrefuse hend hsends
  exact ⟨k + 2, n, (execN_add hrun 2).trans (pwron_end rfl)⟩

/-- Settles O21: the write of PWR, then `finish`. -/
theorem pwroffClearsPowerOnly : Obligations.PwroffClearsPowerOnly := by
  refine ⟨by decide, fun s hs => ⟨(s.setPwr false).goto .pwroff (.pwroff .finish), ?_, rfl⟩⟩
  simp only [exec, execPwroff, State.posOf_eq hs]

/-- Settles O22: `finish` with PWR, which STAT reads as bit 11 (10_state.md R24). -/
theorem pwrchkReadsPower : Obligations.PwrchkReadsPower := by
  refine ⟨by decide, fun s => ?_, fun s hs => ?_⟩
  · obtain ⟨-, -, -, -, -, -, hpwr, -⟩ := statReadsItsFields s.stat
    exact hpwr
  · rw [← flagBit_zero]
    simp only [exec, execPwrchk, State.posOf_eq hs]
    rfl

/-- Settles O23: the write of CS, which drives cs_n (10_state.md R31), then `finish`. -/
theorem chipSelectOpsDriveTheLine : Obligations.ChipSelectOpsDriveTheLine := by
  refine ⟨by decide, fun s hs => ⟨(s.setCs true).goto .csel (.csel .finish), ?_, rfl, rfl⟩,
    fun s hs => ⟨(s.setCs false).goto .cdesel (.cdesel .finish), ?_, rfl, rfl⟩⟩
  · simp only [exec, execCsel, State.posOf_eq hs]
  · simp only [exec, execCdesel, State.posOf_eq hs]

/-! ### Readiness -/

/-- WAITRDY goes on as its readiness wait does (R136). -/
theorem waitIn_waitrdy (a : Word) : WaitIn .waitrdy a (fun p => .waitrdy (.wait p)) := by
  intro s t p q _ hs hstep
  simp only [exec, execWaitrdy, State.posOf_eq hs, hstep]

/-- At the test, 0xFF or an expired budget ends the wait, and `finish` tells the two apart by int.R. -/
theorem waitrdy_end {s : State} (hs : s.standsAt .waitrdy (.waitrdy (.wait .test))) (hend : s.int.r = 0xFF ∨ s.t2 = 0) :
    exec .waitrdy s = .next (s.goto .waitrdy (.waitrdy .finish)) ∧
      exec .waitrdy (s.goto .waitrdy (.waitrdy .finish)) =
        .next (s.finish (if s.int.r = 0xFF then .none else .notReady) (some (zext s.int.r))) := by
  refine ⟨?_, rfl⟩
  simp only [exec, execWaitrdy, State.posOf_eq hs, waitStep, if_pos hend]

/-- Settles O24: the readiness wait up to its test, which 0xFF passes, and `finish`. -/
theorem waitrdyFindsTheIdleByte : Obligations.WaitrdyFindsTheIdleByte := by
  intro s bs hs hticks hbytes hsends
  obtain ⟨k, hrun⟩ := waitReady_run (waitIn_waitrdy s.int.argl) bs s rfl hs hticks hbytes hsends
  exact ⟨k + 2, s.int.n, (execN_add hrun 2).trans (execN_two (waitrdy_end rfl (.inl rfl)))⟩

/-- Settles O25: the test passes, the test fails, or the wait goes back to its read. -/
theorem waitrdyTestsTheByteBeforeTheBudget : Obligations.WaitrdyTestsTheByteBeforeTheBudget := by
  intro s hs
  refine ⟨fun hend => ⟨_, waitrdy_end hs hend⟩, fun hr ht => ?_⟩
  exact waitIn_waitrdy s.int.argl s s .test .read rfl hs (if_neg (not_or.mpr ⟨hr, ht⟩))

/-! ### Command dispatch -/

/-- CMD goes on as `sendCmd(IDX, int.ARGL)` does (R140). -/
theorem sendIn_cmd (idx : BitVec 6) (a : Word) : SendIn (.cmd idx) idx a a (fun p => .cmd (.send p)) := by
  intro s t p q ha hs hstep
  simp only [exec, execCmd, State.posOf_eq hs, ha, hstep]

/-- Where `sendCmd` returns, CMD finishes with what it returned (R140). -/
theorem cmd_end {idx : BitVec 6} {s t : State} {p : SendPos} {r : Byte} {c : Cause} (hs : s.standsAt (.cmd idx) (.cmd (.send p)))
    (hstep : sendStep idx s.int.argl p s = (.done (r, c), t)) :
    exec (.cmd idx) s = .next (t.goto (.cmd idx) (.cmd (.finish r c))) ∧
      exec (.cmd idx) (t.goto (.cmd idx) (.cmd (.finish r c))) = .next (t.finish c (some (zext r))) := by
  constructor
  · simp only [exec, execCmd, State.posOf_eq hs, hstep]
  · simp only [exec, execCmd, State.posOf_eq (s := t.goto (.cmd idx) (.cmd (.finish r c))) rfl]
    rfl

/-- The R1 poll ends with a response whose bit 7 is clear, or when its tries run out (R142). -/
theorem sendStep_count_done {idx : BitVec 6} {arg : Word} {s : State} (h : s.int.r.msb = false ∨ s.int.n - 1 = 0) :
    sendStep idx arg .count s = (.done (s.int.r, if s.int.r.msb then .noResp else .none), s.setN (s.int.n - 1)) := by
  cases hmsb : s.int.r.msb with
  | false => simp [sendStep, afterSendCount, hmsb]
  | true =>
    have hn : s.int.n - 1 = 0 := h.resolve_left (by simp [hmsb])
    simp [sendStep, afterSendCount, hmsb, hn]

/-- The end of the R1 poll, then `finish`: OK with a response, FAIL(NORESP) without one (R142). -/
theorem cmd_end_of_count {idx : BitVec 6} {s : State} (hs : s.standsAt (.cmd idx) (.cmd (.send .count)))
    (h : s.int.r.msb = false ∨ s.int.n - 1 = 0) :
    execN (.cmd idx) 2 s =
      .next ((s.setN (s.int.n - 1)).finish (if s.int.r.msb then .noResp else .none) (some (zext s.int.r))) :=
  execN_two (cmd_end hs (sendStep_count_done h))

/-- Settles O27: `sendCmd` up to the count that decides it, that count, and `finish`. -/
theorem cmdSendsItsFrameAndPollsTheResponse : Obligations.CmdSendsItsFrameAndPollsTheResponse := by
  intro s idx waits noise pending r hs hticks hwaits hnoise hpending hend hsends
  have htries : pending.length < s.params.r1Tries := by omega
  obtain ⟨k, hrun⟩ := sendCmd_run (sendIn_cmd idx s.int.argl) s waits noise pending r [] rfl hs hticks hwaits hnoise
    hpending htries hsends
  have hlast : r.msb = false ∨ s.params.r1Tries - pending.length - 1 = 0 := by
    rcases hend with ⟨hmsb, -⟩ | ⟨-, hlen⟩
    · exact .inl hmsb
    · exact .inr (by omega)
  exact ⟨k + 2, s.params.r1Tries - pending.length - 1, (execN_add hrun 2).trans (cmd_end_of_count rfl hlast)⟩

/-- Settles O28: the gate's verdict is what `sendCmd` returns, with no exchange after it. -/
theorem cmdSendsNothingAfterAFailedGate : Obligations.CmdSendsNothingAfterAFailedGate := by
  intro s idx hs hr ht
  have hgate : sendStep idx s.int.argl (.wait .test) s = (.done (0xFF, .notReady), s) := by
    simp only [sendStep, waitStep, ht, or_true, if_true, if_neg hr]
  exact ⟨_, cmd_end hs hgate⟩

/-! ### Raw bytes -/

/-- Settles O29: one exchange, then `finish` with the byte it received. -/
theorem txbExchangesOneByte : Obligations.TxbExchangesOneByte := by
  refine ⟨by decide, fun s hs => ⟨(s.exchange (txbByte s.int.argl)).goto .txb (.txb .finish), ?_, rfl⟩⟩
  simp only [exec, execTxb, State.posOf_eq hs]

/-- The cells after the bytes `bs` were written from index `k` on. -/
def Memory.storeFrom (m : Memory) (k : Nat) : List Byte → Memory
  | [] => m
  | b :: bs => Memory.storeFrom (Memory.store m k b) (k + 1) bs

/-- A read after such writes gives the byte written there, and elsewhere what it gave before. -/
theorem Memory.lookup_storeFrom (m : Memory) (k : Nat) (bs : List Byte) (j : Nat) :
    Memory.lookup (Memory.storeFrom m k bs) j = if k ≤ j ∧ j < k + bs.length then bs[j - k]? else Memory.lookup m j := by
  induction bs generalizing m k with
  | nil => rw [Memory.storeFrom, if_neg (by simp)]
  | cons b bs ih =>
    rw [Memory.storeFrom, ih, Memory.lookup_store, List.length_cons]
    rcases Nat.lt_trichotomy j k with hlt | rfl | hgt
    · rw [if_neg (by omega), if_neg (by omega), if_neg (by omega)]
    · rw [if_neg (by omega), if_pos rfl, if_pos (by omega), Nat.sub_self, List.getElem?_cons_zero]
    · obtain ⟨d, rfl⟩ := Nat.exists_eq_add_of_lt hgt
      rw [show k + d + 1 - (k + 1) = d by omega, show k + d + 1 - k = d + 1 by omega, List.getElem?_cons_succ,
        if_neg (show ¬ k + d + 1 = k by omega)]
      exact if_congr (by omega) rfl rfl

/-- One read of RXB (R147). -/
theorem exec_rxb_read {len k : Nat} {s : State} (hs : s.standsAt (.rxb len) (.rxb (.read k))) :
    exec (.rxb len) s = .next ((s.rx.setData k s.cardByte).goto (.rxb len)
      (.rxb (if k + 1 < len then .read (k + 1) else .finish))) := by
  simp only [exec, execRxb, State.posOf_eq hs]

/-- The state after the reads of `bs` to DATA from index `k` on, standing at `p` of op `i`. -/
def State.filled (s : State) (k : Nat) (bs : List Byte) (i : Instr) (p : Pos) : State :=
  State.goto { s with
    data := Memory.storeFrom s.data k bs
    int := { s.int with r := bs.getLastD s.int.r }
    env := s.afterTraffic (idles bs.length) bs } i p

/-- One read to DATA is the reads of one byte. -/
theorem State.rx_setData_goto {s : State} {k : Nat} (hk : k < 512) (i : Instr) (p : Pos) :
    (s.rx.setData k s.cardByte).goto i p = s.filled k [s.cardByte] i p := by
  have hdata : s.rx.setData k s.cardByte = { s.rx with data := Memory.store s.data k s.cardByte } := if_pos hk
  rw [hdata]
  rfl

/-- Reads after a read. -/
theorem State.filled_filled (s : State) (k : Nat) (b : Byte) (bs : List Byte) (i : Instr) (p q : Pos) :
    (s.filled k [b] i p).filled (k + 1) bs i q = s.filled k (b :: bs) i q := by
  have henv : (s.filled k [b] i p).afterTraffic (idles bs.length) bs =
      s.afterTraffic (idles (b :: bs).length) (b :: bs) :=
    State.afterTraffic_append (s := s) (t := s.filled k [b] i p) (o := [0xFF]) (i := [b]) rfl rfl rfl (idles bs.length) bs
  have hlast : bs.getLastD b = (b :: bs).getLastD s.int.r := by cases bs <;> rfl
  unfold State.filled at henv ⊢
  rw [henv, ← hlast]
  rfl

/-- RXB's reads from index `k` to the last one, with what the card sends. -/
theorem rxbReads_run {len : Nat} (hlen : len ≤ 512) (bs : List Byte) (hne : bs ≠ []) (s : State) (k : Nat)
    (hs : s.standsAt (.rxb len) (.rxb (.read k))) (hk : k + bs.length = len) (hsends : s.env.sends bs) :
    execN (.rxb len) bs.length s = .next (s.filled k bs (.rxb len) (.rxb .finish)) := by
  induction bs generalizing s k with
  | nil => exact absurd rfl hne
  | cons b bs ih =>
    have hb : s.cardByte = b := hsends.1
    have hrest : (s.afterTraffic [0xFF] [b]).sends bs := ((State.sends_afterTraffic s [0xFF] [b] bs).mp hsends).2
    rw [List.length_cons] at hk
    have hread := exec_rxb_read hs
    rw [State.rx_setData_goto (by omega), hb] at hread
    rw [List.length_cons, execN_succ hread]
    by_cases hbs : bs = []
    · subst hbs
      rw [if_neg (by rw [List.length_nil] at hk; omega)]
      rfl
    · have hpos : 0 < bs.length := List.length_pos_iff.mpr hbs
      have hreads := ih hbs (s.filled k [b] (.rxb len) (.rxb (.read (k + 1)))) (k + 1) rfl (by omega) hrest
      rw [State.filled_filled] at hreads
      rwa [if_pos (show k + 1 < len by omega)]

/-- DATA after the reads of `bs` from index 0 on. -/
theorem State.dataByte_filled (s : State) (bs : List Byte) (i : Instr) (p : Pos) (j : Nat) :
    (s.filled 0 bs i p).dataByte j = if j < bs.length then bs[j]! else s.dataByte j := by
  have hresets : (s.filled 0 bs i p).env.resets = s.env.resets := Env.afterCards_resets s.env bs.length
  unfold State.dataByte
  rw [hresets, show (s.filled 0 bs i p).data = Memory.storeFrom s.data 0 bs from rfl, Memory.lookup_storeFrom]
  by_cases hj : j < bs.length <;> simp [hj]

/-- After its reads RXB finishes with the byte its last read stored (R147). -/
theorem exec_rxb_finish {len : Nat} {s : State} (hs : s.standsAt (.rxb len) (.rxb .finish)) :
    exec (.rxb len) s = .next (s.finish .none (some (zext (s.dataByte (len - 1))))) := by
  simp only [exec, execRxb, State.posOf_eq hs]

/-- Settles O30: the reads, then `finish`. -/
theorem rxbFillsDataInWireOrder : Obligations.RxbFillsDataInWireOrder := by
  intro s bs hs hpos hlen hsends
  have hrun := rxbReads_run hlen bs (List.length_pos_iff.mp hpos) s 0 hs (Nat.zero_add _) hsends
  have hbyte := s.dataByte_filled bs (.rxb bs.length) (.rxb .finish)
  have hlast := hbyte (bs.length - 1)
  rw [if_pos (by omega)] at hlast
  have hfinish := exec_rxb_finish (len := bs.length) (s := s.filled 0 bs (.rxb bs.length) (.rxb .finish)) rfl
  rw [hlast] at hfinish
  refine ⟨bs.length + 1, s.int.n, Memory.storeFrom s.data 0 bs, bs.getLastD s.int.r,
    (execN_add hrun 1).trans (execN_succ hfinish 0), fun j => ?_⟩
  rw [← hbyte j]
  simp [State.dataByte, State.filled, State.goto, State.afterTraffic]

end Sys2Proof.Machine

/-! PROOFS. The block-data ops RDBLK and WRBLK, from their start to their `finish` (41_block_transfer.md R180 to R192). -/

namespace Sys2Proof.Machine

/-! ### Runs of an op, their length left open -/

/-- Engine steps of op `i` lead from one state to the other, with no other event between them. -/
def Reaches (i : Instr) (s t : State) : Prop := ∃ k, execN i k s = .next t

/-- One engine step. -/
theorem Reaches.of_exec {i : Instr} {s t : State} (h : exec i s = .next t) : Reaches i s t := ⟨1, execN_succ h 0⟩

/-- Steps after steps. -/
theorem Reaches.trans {i : Instr} {s t u : State} (h : Reaches i s t) (h' : Reaches i t u) : Reaches i s u := by
  obtain ⟨j, hj⟩ := h
  obtain ⟨k, hk⟩ := h'
  exact ⟨j + k, (execN_add hj k).trans hk⟩

/-! ### Traffic and what it leaves -/

@[simp] theorem length_idles (n : Nat) : (idles n).length = n := List.length_replicate

/-- The bytes the block drives while it reads, in two parts. -/
theorem idles_add (j k : Nat) : idles j ++ idles k = idles (j + k) := List.replicate_append_replicate

@[simp] theorem State.length_dataBytes (s : State) (n : Nat) : (s.dataBytes n).length = n := by simp [State.dataBytes]

/-- Where the engine stands, nothing has been heard yet. -/
theorem State.heard_nil {s : State} {i : Instr} {p : Pos} (h : s.standsAt i p) : s.heard [] [] s.int.n s.int.r i p = s :=
  State.goto_self h

@[simp] theorem State.heard_int_r (s : State) (o m : List Byte) (n : Nat) (r : Byte) (i : Instr) (p : Pos) :
    (s.heard o m n r i p).int.r = r := rfl
/-- Traffic leaves DATA. -/
@[simp] theorem State.heard_dataByte (s : State) (o m : List Byte) (n : Nat) (r : Byte) (i : Instr) (p : Pos) (j : Nat) :
    (s.heard o m n r i p).dataByte j = s.dataByte j :=
  State.dataByte_congr (s := s) (t := s.heard o m n r i p) rfl (Env.afterCards_resets ..) j

/-! ### Polls that a tick counter bounds -/

/-- A poll bounded by a counter, with no tick between: the token poll (R181) and the busy drain (R190). `P` is the position of
its read, `C` that of its test; `pending` are bytes on which the test goes back to the read. -/
theorem tickPoll_run {i : Instr} {P C : Pos} {s : State} {again : Byte → Prop}
    (hread : ∀ u : State, u.standsAt i P → exec i u = .next (u.rx.goto i C))
    (htest : ∀ u : State, u.standsAt i C → again u.int.r → u.t1 = s.t1 → u.t2 = s.t2 → exec i u = .next (u.goto i P))
    (pending : List Byte) (c : Byte) (rest : List Byte) (hp : ∀ b ∈ pending, again b) {o m : List Byte} (n : Nat) (r : Byte)
    (hl : o.length = m.length) (hc : s.env.sends (m ++ (pending ++ c :: rest))) :
    Reaches i (s.heard o m n r i P) (s.heard (o ++ idles (pending.length + 1)) (m ++ (pending ++ [c])) n c i C) := by
  induction pending generalizing o m r with
  | nil =>
    have hlast := hread (s.heard o m n r i P) rfl
    rw [State.heard_rx hl hc] at hlast
    exact .of_exec hlast
  | cons b bs ih =>
    have hone := hread (s.heard o m n r i P) rfl
    rw [State.heard_rx (c := b) hl hc] at hone
    have hback : exec i (s.heard (o ++ [0xFF]) (m ++ [b]) n b i C) = .next (s.heard (o ++ [0xFF]) (m ++ [b]) n b i P) :=
      htest (s.heard (o ++ [0xFF]) (m ++ [b]) n b i C) rfl (hp b List.mem_cons_self) rfl rfl
    have hrest := ih (fun x hx => hp x (List.mem_cons_of_mem _ hx)) (o := o ++ [0xFF]) (m := m ++ [b]) b (by simp [hl])
      (by simpa using hc)
    rw [List.append_assoc, List.append_assoc] at hrest
    exact (Reaches.of_exec hone).trans ((Reaches.of_exec hback).trans hrest)

/-! ### RDBLK: the token -/

/-- The token test passes the start token and clears int.CRC (R182). -/
theorem rdblkStep_tokenTest_start (len : Nat) {s : State} (hr : s.int.r = 0xFE) :
    rdblkStep len .tokenTest s = (s.setCrc 0).goto (.rdblk len) (.rdblk (.payload 0)) := by
  simp [rdblkStep, rdblkTokenTest, hr]

/-- The token test reads past an idle byte while T1 is not 0 (R182). -/
theorem rdblkStep_tokenTest_idle (len : Nat) {s : State} (hr : s.int.r = 0xFF) (ht : s.t1 ≠ 0) :
    rdblkStep len .tokenTest s = s.goto (.rdblk len) (.rdblk .token) := by
  simp [rdblkStep, rdblkTokenTest, hr, ht]

/-- The token test refuses an idle byte once T1 is 0, and every other byte at once (R182). -/
theorem rdblkStep_tokenTest_fail (len : Nat) {s : State}
    (h : (s.int.r ≠ 0xFF ∧ s.int.r ≠ 0xFE) ∨ (s.int.r = 0xFF ∧ s.t1 = 0)) :
    rdblkStep len .tokenTest s = s.goto (.rdblk len)
      (.rdblk (.finish (if s.int.r = 0xFF then .timeout else .badToken) s.int.r)) := by
  unfold rdblkStep rdblkTokenTest
  rcases h with ⟨hidle, hstart⟩ | ⟨hidle, ht⟩
  · rw [if_neg hidle, if_neg hstart, if_neg hidle]
  · rw [if_pos hidle, if_pos ht, if_pos hidle, hidle]

/-- Settles O32: the start token, an idle byte with time left, and the bytes that fail. -/
theorem rdblkTokenDecidesTheOutcome : Obligations.RdblkTokenDecidesTheOutcome := by
  intro s len hs
  rw [exec_rdblk_at hs]
  refine ⟨fun hr => ?_, fun hr ht => ?_, fun h => ?_⟩
  · exact ⟨_, congrArg _ (rdblkStep_tokenTest_start len hr), rfl⟩
  · exact congrArg _ (rdblkStep_tokenTest_idle len hr ht)
  · refine ⟨_, congrArg _ (rdblkStep_tokenTest_fail len h), ?_⟩
    rw [exec_rdblk_at rfl]
    rfl

/-- RDBLK from its start to the first payload byte: T1 is armed, idle bytes are read past, and the token is taken (R181). -/
theorem rdblkToken_run {len : Nat} {s : State} (idle : Nat) (rest : List Byte) (hs : s.standsAt (.rdblk len) (.rdblk .arm))
    (ht : s.armed s.params.tokenTicks ≠ 0) (hc : s.env.sends (idles idle ++ 0xFE :: rest)) :
    Reaches (.rdblk len) s
      (State.setCrc (State.heard { s with t1 := s.armed s.params.tokenTicks } (idles (idle + 1)) (idles idle ++ [0xFE]) s.int.n
        0xFE (.rdblk len) (.rdblk (.payload 0))) 0) := by
  let u : State := { s with t1 := s.armed s.params.tokenTicks }
  have harm : exec (.rdblk len) s = .next (u.heard [] [] s.int.n s.int.r (.rdblk len) (.rdblk .token)) := exec_rdblk_at hs
  have hpoll := tickPoll_run (s := u) (again := (· = 0xFF)) (fun v hv => exec_rdblk_at (len := len) (p := .token) hv)
    (fun v hv hr ht1 _ => (exec_rdblk_at hv).trans (congrArg _ (rdblkStep_tokenTest_idle len hr (ht1 ▸ ht))))
    (idles idle) 0xFE rest (fun _ hb => List.eq_of_mem_replicate hb) (o := []) (m := []) s.int.n s.int.r rfl hc
  rw [length_idles] at hpoll
  refine (Reaches.of_exec harm).trans (hpoll.trans (.of_exec ?_))
  rw [exec_rdblk_at rfl, rdblkStep_tokenTest_start len rfl]
  rfl

/-! ### RDBLK: the payload and the checksum pair -/

/-- The running checksum after payload bytes: crc16 goes on over them while CRCCHK is 1, and int.CRC stays while it is 0. -/
theorem State.foldl_runCrc (s : State) (bs : List Byte) :
    bs.foldl State.runCrc s = s.setCrc (if s.crcchk then bs.foldl crcByte s.int.crc else s.int.crc) := by
  induction bs generalizing s with
  | nil => exact (congrArg s.setCrc (ite_self s.int.crc)).symm
  | cons b bs ih =>
    rw [List.foldl_cons, ih, State.runCrc]
    by_cases hchk : s.crcchk = true
    · rw [if_pos hchk, if_pos hchk]
      exact congrArg s.setCrc (if_pos hchk)
    · rw [if_neg hchk, if_neg hchk]
      exact congrArg s.setCrc (if_neg hchk).symm

/-- The running checksum does not depend on where the engine goes. -/
theorem State.goto_runCrc (s : State) (b : Byte) (i : Instr) (p : Pos) : (s.runCrc b).goto i p = (s.goto i p).runCrc b :=
  apply_ite (State.goto · i p) ..

/-- The running checksum does not depend on the reads to DATA that follow. -/
theorem State.filled_runCrc (s : State) (b : Byte) (k : Nat) (bs : List Byte) (i : Instr) (p : Pos) :
    (s.runCrc b).filled k bs i p = (s.filled k bs i p).runCrc b :=
  apply_ite (State.filled · k bs i p) ..

/-- One payload read of RDBLK is one read to DATA, which feeds the running checksum (R181, R184). -/
theorem exec_rdblk_payload {len k : Nat} {s : State} (hk : k < 512) (hs : s.standsAt (.rdblk len) (.rdblk (.payload k))) :
    exec (.rdblk len) s = .next ((s.filled k [s.cardByte] (.rdblk len)
      (.rdblk (if k + 1 < len then .payload (k + 1) else .check1))).runCrc s.cardByte) := by
  rw [exec_rdblk_at hs, ← State.rx_setData_goto hk, ← State.goto_runCrc]
  rfl

/-- RDBLK's payload reads from index `k` to the last one, with what the card sends. -/
theorem rdblkPayload_run {len : Nat} (hlen : len ≤ 512) (bs : List Byte) (hne : bs ≠ []) (s : State) (k : Nat)
    (hs : s.standsAt (.rdblk len) (.rdblk (.payload k))) (hk : k + bs.length = len) (hsends : s.env.sends bs) :
    Reaches (.rdblk len) s (bs.foldl State.runCrc (s.filled k bs (.rdblk len) (.rdblk .check1))) := by
  induction bs generalizing s k with
  | nil => exact absurd rfl hne
  | cons b bs ih =>
    have hb : s.cardByte = b := hsends.1
    have hrest : (s.afterTraffic [0xFF] [b]).sends bs := ((State.sends_afterTraffic s [0xFF] [b] bs).mp hsends).2
    rw [List.length_cons] at hk
    have hread := exec_rdblk_payload (by omega) hs
    rw [hb] at hread
    by_cases hbs : bs = []
    · subst hbs
      rw [if_neg (by rw [List.length_nil] at hk; omega)] at hread
      exact .of_exec hread
    · have hpos : 0 < bs.length := List.length_pos_iff.mpr hbs
      rw [if_pos (by omega)] at hread
      have hstands : ((s.filled k [b] (.rdblk len) (.rdblk (.payload (k + 1)))).runCrc b).standsAt (.rdblk len)
          (.rdblk (.payload (k + 1))) := State.runCrc_int_phase ..
      have hreads := ih hbs _ (k + 1) hstands (by omega) (by rw [State.runCrc_env]; exact hrest)
      rw [State.filled_runCrc, State.filled_filled] at hreads
      exact (Reaches.of_exec hread).trans hreads

/-- The two checksum reads and `finish`, with the comparison that decides it (R183, R184). -/
theorem rdblkCheck_run {len : Nat} {s : State} {c1 c0 : Byte} (hs : s.standsAt (.rdblk len) (.rdblk .check1))
    (hsends : s.env.sends [c1, c0]) :
    Reaches (.rdblk len) s
      (State.finish { s with int := { s.int with r := c0 }, env := s.afterTraffic (idles 2) [c1, c0] } (rdblkCause s c1 c0)
        (some ((c1 ++ c0).setWidth 32))) := by
  have hread1 : exec (.rdblk len) s = .next (s.heard [0xFF] [c1] s.int.n c1 (.rdblk len) (.rdblk (.check0 c1))) := by
    rw [exec_rdblk_at hs, rdblkStep, show s.cardByte = c1 from hsends.1]
    have hrx := State.heard_rx (s := s) (o := []) (i := []) rfl hsends s.int.n s.int.r (.rdblk len) (.rdblk .check1)
      (.rdblk (.check0 c1))
    rw [State.heard_nil hs] at hrx
    exact congrArg _ hrx
  have hread2 : exec (.rdblk len) (s.heard [0xFF] [c1] s.int.n c1 (.rdblk len) (.rdblk (.check0 c1))) =
      .next (s.heard (idles 2) [c1, c0] s.int.n c0 (.rdblk len) (.rdblk (.verify c1 c0))) := by
    obtain ⟨hbyte, -⟩ := State.heard_xchg (s := s) (o := [0xFF]) (i := [c1]) rfl hsends s.int.n c1 (.rdblk len)
      (.rdblk (.check0 c1)) 0xFF
    rw [exec_rdblk_at rfl, rdblkStep, hbyte, State.heard_rx (o := [0xFF]) (i := [c1]) rfl hsends]
    rfl
  refine (Reaches.of_exec hread1).trans ((Reaches.of_exec hread2).trans (.of_exec ?_))
  rw [exec_rdblk_at rfl]
  rfl

/-- What the checksum comparison decides, int.CRC being the checksum of the payload while CRCCHK is 1 (R184). -/
theorem rdblkCause_eq {s : State} {bs : List Byte} (h : s.crcchk = true → s.int.crc = crc16 bs) (c1 c0 : Byte) :
    rdblkCause s c1 c0 = if s.crcchk = true ∧ crc16 bs ≠ c1 ++ c0 then .crcErr else .none := by
  refine if_congr (and_congr_right fun hchk => ?_) rfl rfl
  rw [h hchk]
  rfl

/-- Settles O58: at the comparison the invariant has int.CRC the checksum of DATA[0..LEN-1]. -/
theorem rdblkComparesTheChecksumOfData : Obligations.RdblkComparesTheChecksumOfData := by
  intro s len c1 c0 _ hcrc hs
  have hsum : s.crcchk = true → s.int.crc = crc16 (s.dataBytes len) := (State.crcAgrees_iff_rdblk hs).mp hcrc
  rw [exec_rdblk_at hs, rdblkStep, rdblkCause_eq hsum]
  rfl

/-- Settles O31: the token, the payload, the checksum pair and the comparison. -/
theorem rdblkReceivesABlock : Obligations.RdblkReceivesABlock := by
  intro s idle bs c1 c0 hs hpos hlen hticks hsends
  let u : State := { s with t1 := s.armed s.params.tokenTicks }
  let v : State :=
    (u.heard (idles (idle + 1)) (idles idle ++ [0xFE]) s.int.n 0xFE (.rdblk bs.length) (.rdblk (.payload 0))).setCrc 0
  let w : State := (v.filled 0 bs (.rdblk bs.length) (.rdblk .check1)).setCrc (if s.crcchk then crc16 bs else 0)
  have hall : s.env.sends ((idles idle ++ [0xFE]) ++ (bs ++ [c1, c0])) := by simpa using hsends
  have hv : v.env.sends (bs ++ [c1, c0]) := ((State.sends_afterTraffic u (idles (idle + 1)) _ _).mp hall).2
  have htoken : Reaches (.rdblk bs.length) s v := rdblkToken_run idle _ hs hticks hsends
  obtain ⟨hvbs, hw⟩ := (State.sends_afterTraffic v (idles bs.length) _ _).mp hv
  have hpayload : Reaches (.rdblk bs.length) v w := by
    have h := rdblkPayload_run hlen bs (List.length_pos_iff.mp hpos) v 0 rfl (Nat.zero_add _) hvbs
    rwa [State.foldl_runCrc] at h
  have hcheck := rdblkCheck_run (s := w) rfl hw
  have hcause := rdblkCause_eq (s := w) (bs := bs) (fun hchk => if_pos hchk) c1 c0
  have henv : w.afterTraffic (idles 2) [c1, c0] =
      s.afterTraffic (idles (idle + 1 + bs.length + 2)) (idles idle ++ 0xFE :: (bs ++ [c1, c0])) := by
    rw [State.afterTraffic_append (s := v) (t := w) (o := idles bs.length) (i := bs) rfl rfl (by simp),
      State.afterTraffic_append (s := s) (t := v) (o := idles (idle + 1)) (i := idles idle ++ [0xFE]) rfl rfl (by simp),
      idles_add, idles_add, ← Nat.add_assoc, List.append_assoc]
    rfl
  rw [hcause, henv] at hcheck
  obtain ⟨k, hrun⟩ := htoken.trans (hpayload.trans hcheck)
  refine ⟨k, Memory.storeFrom s.data 0 bs, { s.int with r := c0, crc := w.int.crc, phase := .idle }, hrun, rfl, fun j => ?_⟩
  rw [← s.dataByte_filled bs (.rdblk bs.length) (.rdblk .check1) j]
  simp [State.dataByte, State.filled, State.goto, State.afterTraffic]

/-! ### WRBLK: its tests -/

/-- Where its readiness wait ends, WRBLK goes to its token, or to a failing `finish` with nothing sent (R186). -/
theorem wrblkStep_waitTest {tok : Token} {s : State} (h : s.int.r = 0xFF ∨ s.t2 = 0) :
    wrblkStep tok (.wait .test) s =
      s.goto (.wrblk tok) (.wrblk (if s.int.r = 0xFF then .token else .finish .notReady s.int.r)) := by
  simp only [wrblkStep, waitStep, if_pos h]

/-- An accepted response ends the poll (R189). -/
theorem afterRespCount_accepted {r : Byte} (h : r &&& 0x1F = 0x05) (n : Nat) : afterRespCount r n = .armBusy r := if_pos h

/-- A response that is not accepted fails the op once its tries are used up, and is polled past before (R189). -/
theorem afterRespCount_refused {r : Byte} (h : r &&& 0x1F ≠ 0x05) (n : Nat) :
    afterRespCount r n = if n = 0 then .finish .badToken r else .response := if_neg h

/-- A busy byte keeps the drain going while T2 is not 0 (R190). -/
theorem wrblkBusyTest_busy {s : State} (hr : s.int.r = 0x00) (ht : s.t2 ≠ 0) (r : Byte) : wrblkBusyTest s r = .busy r := by
  rw [wrblkBusyTest, if_neg (not_not.mpr hr), if_neg ht]

/-- A nonzero byte ends the drain whatever T2 holds, and a busy byte ends it once T2 is 0 (R190). -/
theorem wrblkBusyTest_end {s : State} (h : s.int.r ≠ 0x00 ∨ s.t2 = 0) (r : Byte) :
    wrblkBusyTest s r = if s.int.r = 0x00 then .finish .timeout 0x00 else .finish .none r := by
  unfold wrblkBusyTest
  by_cases hr : s.int.r = 0x00
  · rw [if_neg (not_not.mpr hr), if_pos (h.resolve_left (not_not.mpr hr)), if_pos hr]
  · rw [if_pos hr, if_neg hr]

/-- Where WRBLK goes to a `finish`, that is its next step. -/
theorem exec_wrblk_finish (tok : Token) (c : Cause) (r : Byte) (s : State) :
    exec (.wrblk tok) (s.goto (.wrblk tok) (.wrblk (.finish c r))) = .next (s.finish c (some (zext r))) :=
  exec_wrblk_at (p := .finish c r) (s := s.goto (.wrblk tok) (.wrblk (.finish c r))) rfl

/-- Settles O35: the failed readiness wait, the last refused response, and the two ends of the busy drain. -/
theorem wrblkFailsAsItsStagesSay : Obligations.WrblkFailsAsItsStagesSay := by
  intro s tok
  refine ⟨fun hs hr ht => ?_, fun hs hrefused hn => ?_, fun r hs => ⟨fun hr ht => ?_, fun hend => ?_⟩⟩
  · refine ⟨_, ?_, exec_wrblk_finish tok .notReady s.int.r s⟩
    rw [exec_wrblk_at hs, wrblkStep_waitTest (.inr ht), if_neg hr]
  · refine ⟨s.rx.goto (.wrblk tok) (.wrblk .count), _, exec_wrblk_at hs, ?_,
      exec_wrblk_finish tok .badToken s.cardByte (s.rx.setN 0)⟩
    have hlast : (s.rx.goto (.wrblk tok) (.wrblk .count)).int.n - 1 = 0 := Nat.sub_eq_zero_of_le hn.le
    have hgo : afterRespCount (s.rx.goto (.wrblk tok) (.wrblk .count)).int.r 0 = .finish .badToken s.cardByte :=
      (afterRespCount_refused hrefused 0).trans (if_pos rfl)
    rw [exec_wrblk_at rfl, wrblkStep, hlast, hgo]
    rfl
  · rw [exec_wrblk_at hs, wrblkStep, wrblkBusyTest_busy hr ht]
    rfl
  · refine ⟨_, exec_wrblk_at hs, ?_⟩
    rw [wrblkStep, wrblkBusyTest_end hend]
    by_cases hr : s.int.r = 0x00
    · simp only [if_pos hr]
      exact exec_wrblk_finish tok .timeout 0x00 s
    · simp only [if_neg hr]
      exact exec_wrblk_finish tok .none r s

/-! ### WRBLK: its stages -/

/-- After traffic, WRBLK's meaning is its step at the position it stands at. -/
theorem exec_wrblk_heard (s : State) (o m : List Byte) (n : Nat) (r : Byte) (tok : Token) (p : WrblkPos) :
    exec (.wrblk tok) (s.heard o m n r (.wrblk tok) (.wrblk p)) =
      .next (wrblkStep tok p (s.heard o m n r (.wrblk tok) (.wrblk p))) :=
  exec_wrblk_at rfl

/-- WRBLK goes on as its readiness wait does (R186). -/
theorem waitIn_wrblk (tok : Token) (a : Word) : WaitIn (.wrblk tok) a (fun p => .wrblk (.wait p)) := by
  intro s t p q _ hs hstep
  simp only [exec_wrblk_at hs, wrblkStep, hstep]

/-- WRBLK's readiness wait with a card that becomes ready: it leads to the token (R186). -/
theorem wrblkReady_run {tok : Token} {s : State} {waits : List Byte} {rest : List Byte}
    (hs : s.standsAt (.wrblk tok) (.wrblk (.wait .arm))) (ht : s.armed s.params.readyTicks ≠ 0)
    (hw : ∀ b ∈ waits, b ≠ 0xFF) (hc : s.env.sends (waits ++ 0xFF :: rest)) :
    Reaches (.wrblk tok) s
      (State.heard { s with t2 := s.armed s.params.readyTicks } (idles (waits.length + 1)) (waits ++ [0xFF]) s.int.n 0xFF
        (.wrblk tok) (.wrblk .token)) := by
  have hready : s.env.sends (waits ++ [0xFF]) := ((Env.sends_append s.env (waits ++ [0xFF]) rest).mp (by simpa using hc)).1
  refine Reaches.trans (waitReady_run (waitIn_wrblk tok s.int.argl) waits s rfl hs ht hw hready) (.of_exec ?_)
  rw [exec_wrblk_at rfl, wrblkStep_waitTest (.inl rfl)]
  rfl

/-- Settles O34: the readiness wait, the stop token, and `finish`. -/
theorem wrblkStopSendsTheTokenOnly : Obligations.WrblkStopSendsTheTokenOnly := by
  intro s waits x hs hticks hwaits hsends
  let u : State := { s with t2 := s.armed s.params.readyTicks }
  have hx : u.env.sends ((waits ++ [0xFF]) ++ x :: []) := by simpa using hsends
  have hready : Reaches (.wrblk .stop) s _ := wrblkReady_run hs hticks hwaits hsends
  have htoken : exec (.wrblk .stop) (u.heard (idles (waits.length + 1)) (waits ++ [0xFF]) s.int.n 0xFF (.wrblk .stop)
      (.wrblk .token)) = .next (u.heard (idles (waits.length + 1) ++ [0xFD]) (waits ++ [0xFF] ++ [x]) s.int.n 0xFF
        (.wrblk .stop) (.wrblk (.finish .none 0xFF))) := by
    rw [exec_wrblk_heard, wrblkStep, State.heard_tx (by simp) hx]
    rfl
  have hall := hready.trans ((Reaches.of_exec htoken).trans (.of_exec (exec_wrblk_finish ..)))
  rw [List.append_assoc waits] at hall
  obtain ⟨k, hrun⟩ := hall
  exact ⟨k, s.int.n, hrun⟩

/-- The payload bytes of WRBLK from index `k` to the last one, with what the card sends during them discarded (R188). -/
theorem wrblkPayload_run {tok : Token} {s : State} (xs rest : List Byte) (hne : xs ≠ []) {o m : List Byte} (k n : Nat)
    (r : Byte) (hl : o.length = m.length) (hk : k + xs.length = 512) (hc : s.env.sends (m ++ (xs ++ rest))) :
    Reaches (.wrblk tok) (s.heard o m n r (.wrblk tok) (.wrblk (.payload k)))
      (s.heard (o ++ (List.range' k xs.length).map s.dataByte) (m ++ xs) n r (.wrblk tok) (.wrblk (.filler 0))) := by
  induction xs generalizing o m k with
  | nil => exact absurd rfl hne
  | cons x xs ih =>
    rw [List.length_cons] at hk
    have hsend := exec_wrblk_heard s o m n r tok (.payload k)
    rw [wrblkStep, State.heard_dataByte, State.heard_tx hl hc] at hsend
    refine (Reaches.of_exec hsend).trans ?_
    by_cases hxs : xs = []
    · subst hxs
      rw [if_neg (show ¬ k + 1 < blockLen by rw [List.length_nil] at hk; simp only [blockLen]; omega)]
      exact ⟨0, rfl⟩
    · have hpos : 0 < xs.length := List.length_pos_iff.mpr hxs
      have hrest := ih hxs (o := o ++ [s.dataByte k]) (m := m ++ [x]) (k + 1) (by simp [hl]) (by omega) (by simpa using hc)
      rw [if_pos (show k + 1 < blockLen by simp only [blockLen]; omega), List.length_cons, List.range'_succ]
      simpa using hrest

/-- The two filler bytes of a data block (R188). -/
theorem wrblkFiller_run {tok : Token} {s : State} {f0 f1 : Byte} {rest : List Byte} {o m : List Byte} (n : Nat) (r : Byte)
    (hl : o.length = m.length) (hc : s.env.sends (m ++ ([f0, f1] ++ rest))) :
    Reaches (.wrblk tok) (s.heard o m n r (.wrblk tok) (.wrblk (.filler 0)))
      (s.heard (o ++ idles 2) (m ++ [f0, f1]) n r (.wrblk tok) (.wrblk .tries)) := by
  have hfirst : exec (.wrblk tok) (s.heard o m n r (.wrblk tok) (.wrblk (.filler 0))) =
      .next (s.heard (o ++ [0xFF]) (m ++ [f0]) n r (.wrblk tok) (.wrblk (.filler 1))) := by
    rw [exec_wrblk_heard, wrblkStep, State.heard_tx hl hc, if_pos rfl]
  have hsecond : exec (.wrblk tok) (s.heard (o ++ [0xFF]) (m ++ [f0]) n r (.wrblk tok) (.wrblk (.filler 1))) =
      .next (s.heard (o ++ [0xFF] ++ [0xFF]) (m ++ [f0] ++ [f1]) n r (.wrblk tok) (.wrblk .tries)) := by
    rw [exec_wrblk_heard, wrblkStep, State.heard_tx (by simp [hl]) (by simpa using hc), if_neg (by decide)]
  rw [List.append_assoc, List.append_assoc] at hsecond
  exact (Reaches.of_exec hfirst).trans (.of_exec hsecond)

/-- What the card sends during a data block: one byte with the token, 512 with the payload, two with the filler bytes. -/
theorem exists_blockNoise {noise : List Byte} (h : noise.length = 515) :
    ∃ x xs f0 f1, noise = x :: (xs ++ [f0, f1]) ∧ xs.length = 512 := by
  obtain ⟨x, ys, rfl⟩ := List.exists_cons_of_length_eq_add_one h
  rw [List.length_cons] at h
  obtain ⟨f0, f1, hf⟩ := List.length_eq_two.mp (show (ys.drop 512).length = 2 by rw [List.length_drop]; omega)
  exact ⟨x, ys.take 512, f0, f1, by rw [← hf, List.take_append_drop], by rw [List.length_take]; omega⟩

/-- The token, the payload and the two filler bytes of a data block, with what the card sends during them discarded
(R186, R188). -/
theorem wrblkBlock_run {tok : Token} (htok : tok ≠ .stop) {s : State} (noise rest : List Byte) (hnoise : noise.length = 515)
    {o m : List Byte} (n : Nat) (r : Byte) (hl : o.length = m.length) (hc : s.env.sends (m ++ (noise ++ rest))) :
    Reaches (.wrblk tok) (s.heard o m n r (.wrblk tok) (.wrblk .token))
      (s.heard (o ++ tokByte tok :: (s.dataBytes 512 ++ idles 2)) (m ++ noise) n r (.wrblk tok) (.wrblk .tries)) := by
  obtain ⟨x, xs, f0, f1, rfl, hxs⟩ := exists_blockNoise hnoise
  have htoken : exec (.wrblk tok) (s.heard o m n r (.wrblk tok) (.wrblk .token)) =
      .next (s.heard (o ++ [tokByte tok]) (m ++ [x]) n r (.wrblk tok) (.wrblk (.payload 0))) := by
    rw [exec_wrblk_heard, wrblkStep, State.heard_tx hl hc, if_neg htok]
  have hpayload := wrblkPayload_run (tok := tok) (s := s) xs ([f0, f1] ++ rest) (List.ne_nil_of_length_eq_add_one hxs)
    (o := o ++ [tokByte tok]) (m := m ++ [x]) 0 n r (by simp [hl]) (by rw [hxs]) (by simpa using hc)
  rw [hxs, ← List.range_eq_range'] at hpayload
  have hfiller := wrblkFiller_run (tok := tok) (s := s) (f0 := f0) (f1 := f1) (rest := rest)
    (o := o ++ [tokByte tok] ++ s.dataBytes 512) (m := m ++ [x] ++ xs) n r (by simp [hl, hxs]) (by simpa using hc)
  have hall := (Reaches.of_exec htoken).trans (hpayload.trans hfiller)
  simp only [List.append_assoc, List.singleton_append] at hall
  exact hall

/-- The count and the data-response poll, up to and with the accepted response (R189). -/
theorem wrblkResponse_run {tok : Token} {s : State} (refusals : List Byte) {c : Byte} {rest : List Byte}
    (hrefuse : ∀ x ∈ refusals, x &&& 0x1F ≠ 0x05) (htries : refusals.length < s.params.respTries) (hacc : c &&& 0x1F = 0x05)
    {o m : List Byte} (n : Nat) (r : Byte) (hl : o.length = m.length) (hc : s.env.sends (m ++ (refusals ++ c :: rest))) :
    Reaches (.wrblk tok) (s.heard o m n r (.wrblk tok) (.wrblk .tries))
      (s.heard (o ++ idles (refusals.length + 1)) (m ++ (refusals ++ [c])) (s.params.respTries - refusals.length - 1) c
        (.wrblk tok) (.wrblk (.armBusy c))) := by
  have htry : exec (.wrblk tok) (s.heard o m n r (.wrblk tok) (.wrblk .tries)) =
      .next (s.heard o m s.params.respTries r (.wrblk tok) (.wrblk .response)) := exec_wrblk_heard ..
  have hpoll := poll_run (s := s) (again := fun x => x &&& 0x1F ≠ 0x05)
    (fun u _ hu => exec_wrblk_at (tok := tok) (p := .response) hu)
    (fun u _ hu hr hn => by rw [exec_wrblk_at hu, wrblkStep, afterRespCount_refused hr, if_neg hn])
    refusals c rest hrefuse s.params.respTries r hl htries hc
  refine (Reaches.of_exec htry).trans (Reaches.trans ⟨_, hpoll⟩ (.of_exec ?_))
  rw [exec_wrblk_heard, wrblkStep, State.heard_int_r, afterRespCount_accepted hacc]
  rfl

/-- The busy drain, with its budget armed, up to the nonzero byte that ends it, and `finish` (R190, R191). -/
theorem wrblkDrain_run {tok : Token} {s : State} (drain : Nat) {b : Byte} (hb : b ≠ 0x00) (resp : Byte)
    (ht : s.armed s.params.busyTicks ≠ 0) {o m : List Byte} (n : Nat) (r : Byte) (hl : o.length = m.length)
    (hc : s.env.sends (m ++ (List.replicate drain 0x00 ++ [b]))) :
    Reaches (.wrblk tok) (s.heard o m n r (.wrblk tok) (.wrblk (.armBusy resp)))
      (State.finish (State.heard { s with t2 := s.armed s.params.busyTicks } (o ++ idles (drain + 1))
        (m ++ (List.replicate drain 0x00 ++ [b])) n b (.wrblk tok) (.wrblk (.finish .none resp))) .none (some (zext resp))) := by
  let u : State := { s with t2 := s.armed s.params.busyTicks }
  have harm : exec (.wrblk tok) (s.heard o m n r (.wrblk tok) (.wrblk (.armBusy resp))) =
      .next (u.heard o m n r (.wrblk tok) (.wrblk (.busy resp))) := exec_wrblk_heard ..
  have hpoll := tickPoll_run (s := u) (again := (· = 0x00)) (fun v hv => exec_wrblk_at (tok := tok) (p := .busy resp) hv)
    (fun v hv hr _ ht2 => by rw [exec_wrblk_at hv, wrblkStep, wrblkBusyTest_busy hr (ht2 ▸ ht)])
    (List.replicate drain 0x00) b [] (fun _ hx => List.eq_of_mem_replicate hx) n r hl hc
  rw [List.length_replicate] at hpoll
  refine (Reaches.of_exec harm).trans (hpoll.trans (Reaches.trans (.of_exec ?_) (.of_exec (exec_wrblk_finish ..))))
  rw [exec_wrblk_heard, wrblkStep, wrblkBusyTest_end (.inl hb), State.heard_int_r, if_neg hb]
  rfl

/-- Settles O33: readiness, the block, the accepted response, and the busy drain. -/
theorem wrblkSendsABlock : Obligations.WrblkSendsABlock := by
  intro s tok waits noise refusals r drain b htok hs hticks hbusy hwaits hnoise hrefuse htries hacc hb hsends
  let u : State := { s with t2 := s.armed s.params.readyTicks }
  have hu : u.env.sends ((waits ++ [0xFF]) ++ (noise ++ (refusals ++ r :: (List.replicate drain 0x00 ++ [b])))) := by
    simpa using hsends
  have hready := wrblkReady_run hs hticks hwaits hsends
  have hblock := wrblkBlock_run htok (s := u) noise _ hnoise (o := idles (waits.length + 1)) s.int.n 0xFF (by simp) hu
  have hresponse := wrblkResponse_run (tok := tok) (s := u) refusals hrefuse htries hacc s.int.n 0xFF
    (o := idles (waits.length + 1) ++ tokByte tok :: (s.dataBytes 512 ++ idles 2)) (m := waits ++ [0xFF] ++ noise)
    (by simp [hnoise]) (by simpa using hu)
  have hdrain := wrblkDrain_run (tok := tok) (s := u) drain hb r hbusy (s.params.respTries - refusals.length - 1) r
    (o := idles (waits.length + 1) ++ tokByte tok :: (s.dataBytes 512 ++ idles 2) ++ idles (refusals.length + 1))
    (m := waits ++ [0xFF] ++ noise ++ (refusals ++ [r])) (by simp [hnoise]; omega) (by simpa using hu)
  have htokByte : tokByte tok = if tok = .single then 0xFE else 0xFC := by
    cases tok with
    | single | multi => rfl
    | stop => exact absurd rfl htok
  obtain ⟨k, hrun⟩ := hready.trans (hblock.trans (hresponse.trans hdrain))
  simp only [htokByte, List.append_assoc, List.cons_append, List.nil_append] at hrun
  exact ⟨k, s.params.respTries - refusals.length - 1, hrun⟩

end Sys2Proof.Machine

/-! PROOFS. The card-type detector INIT, from its start to its `finish` (42_card_type_detector.md R220 to R236). -/

namespace Sys2Proof.Machine

/-! ### Step 4 -/

/-- status() as a sum: its three flags are bits of their own (R232). -/
theorem Stat.status_eq_add (t : Stat) :
    t.status = (if t.noinit then 1 else 0) + (if t.nodisk then 2 else 0) + (if t.wprot then 4 else 0) := by
  unfold Stat.status
  cases t.noinit <;> cases t.nodisk <;> cases t.wprot <;> rfl

/-- status() once NOINIT is written. -/
theorem State.status_setNoinit (s : State) (p : Prop) [Decidable p] :
    (s.setNoinit (decide p)).stat.status =
      (if p then 1 else 0) + (if s.stat.nodisk then 2 else 0) + (if s.stat.wprot then 4 else 0) := by
  rw [Stat.status_eq_add]
  simp only [State.setNoinit_stat_noinit, decide_eq_true_eq]
  rfl

/-- Settles O36: the NODISK test is INIT's `finish`. -/
theorem initWithoutDiskFailsAtOnce : Obligations.InitWithoutDiskFailsAtOnce := by
  intro s hs hdisk
  refine ⟨Internal.reset.echo, Internal.reset.ocr, ?_⟩
  rw [exec_init_at hs, initStep, if_pos hdisk, State.finishInit, Stat.status_eq_add, hdisk]
  rfl

/-- One engine step of INIT. -/
theorem Reaches.of_initStep {s : State} {p : InitPos} (h : s.standsAt .init (.init p)) : Reaches .init s (initStep p s) :=
  .of_exec (exec_init_at h)

/-- The first three steps of step 4, which the candidate does not decide: CTYPE, chip select, the trailing byte (R232). -/
theorem initTrailing_run {s : State} (hs : s.standsAt .init (.init .setCtype)) :
    Reaches .init s (((s.setCtype s.int.type).setCs false).rx.goto .init
      (.init (if s.int.type = .none then .powerOff else .clearNoinit))) := by
  have hctype : Reaches .init s ((s.setCtype s.int.type).goto .init (.init .deselect)) := .of_initStep hs
  have hdeselect : Reaches .init ((s.setCtype s.int.type).goto .init (.init .deselect))
      (((s.setCtype s.int.type).setCs false).goto .init (.init .trailing)) := .of_initStep (p := .deselect) rfl
  exact hctype.trans (hdeselect.trans (.of_initStep (p := .trailing) rfl))

/-- State Failed: power off, NOINIT, `finish`; or state Ready: NOINIT is cleared, `finish` (R232). -/
theorem initOutcome_run {s : State}
    (hs : s.standsAt .init (.init (if s.int.type = .none then .powerOff else .clearNoinit))) :
    Reaches .init s
      (((s.setPwr (if s.int.type = .none then false else s.stat.pwr)).setNoinit (decide (s.int.type = .none))).finishInit
        (if s.int.type = .none then .initFail else .none)) := by
  by_cases htype : s.int.type = .none
  · simp only [if_pos htype, decide_eq_true htype] at hs ⊢
    have hpower : Reaches .init s ((s.setPwr false).goto .init (.init .setNoinit)) := .of_initStep hs
    exact hpower.trans ((Reaches.of_initStep (p := .setNoinit) rfl).trans (.of_initStep (p := .finish .initFail) rfl))
  · simp only [if_neg htype, decide_eq_false htype] at hs ⊢
    exact (Reaches.of_initStep hs).trans (.of_initStep (p := .finish .none) rfl)

/-- Settles O37: the steps before the candidate is looked at, and those it decides. -/
theorem initCompletesByItsCandidate : Obligations.InitCompletesByItsCandidate := by
  intro s hs
  obtain ⟨k, hrun⟩ := (initTrailing_run hs).trans (initOutcome_run rfl)
  refine ⟨k, Internal.reset.echo, Internal.reset.ocr, hrun.trans ?_⟩
  rw [State.finishInit, State.status_setNoinit]
  dsimp only [State.finish, State.dropReplies, State.setNoinit, State.setPwr, State.goto, State.rx, State.exchange, State.xchg,
    State.setR, State.setCs, State.setCtype]
  rfl

/-! ### Tests and responses -/

/-- Settles O42: each loop's test goes to the loop's first command, or with int.OK 0 to step 4. -/
theorem initNegotiatesUntilTheBudgetEnds : Obligations.InitNegotiatesUntilTheBudgetEnds := by
  intro s
  have hmore {l : InitLoop} (hs : s.standsAt .init (.init (.loopTest l))) (ht : s.t1 ≠ 0) :
      exec .init s = .next (s.goto .init (.init l.first)) := by
    rw [exec_init_at hs, initStep, if_neg ht]
    rfl
  have hend {l : InitLoop} (hs : s.standsAt .init (.init (.loopTest l))) (ht : s.t1 = 0) (hok : s.int.ok = false) :
      exec .init s = .next (s.goto .init (.init .setCtype)) := by
    rw [exec_init_at hs, initStep, if_pos ht, hok]
    rfl
  exact ⟨fun hs => ⟨hmore hs, hend hs⟩, fun hs => ⟨hmore hs, hend hs⟩, fun hs => ⟨hmore hs, hend hs⟩⟩

/-- The gate's test fails when the byte is not 0xFF and T2 is 0 (40_readiness_and_dispatch.md R143). -/
theorem sendStep_waitTest_fail {idx : BitVec 6} {arg : Word} {s : State} (hr : s.int.r ≠ 0xFF) (ht : s.t2 = 0) :
    sendStep idx arg (.wait .test) s = (.done (0xFF, .notReady), s) := by
  simp only [sendStep, waitStep, ht, or_true, if_true, if_neg hr]

/-- Where `sendCmd` returns, INIT goes where the response leads (R222 to R229). -/
theorem exec_init_reply {c : InitCmd} {p : SendPos} {s t : State} {r : Byte} {e : Cause}
    (hs : s.standsAt .init (.init (.cmd c p))) (hstep : sendStep c.index c.argument p s = (.done (r, e), t)) :
    exec .init s = .next (t.goto .init (.init (initReply c r))) := by
  rw [exec_init_at hs, initStep, hstep]
  rfl

/-- A command of INIT that ends with response `r` leads where that response says, however it ends. -/
theorem State.endsWith.leadsTo {s : State} {c : InitCmd} {r : Byte} (h : s.endsWith c r) : s.leadsTo (initReply c r) := by
  rcases h with ⟨hs, rfl, hlast⟩ | ⟨hs, rfl, hr, ht⟩
  · exact ⟨s.int.n - 1, exec_init_reply hs (sendStep_count_done (hlast.imp_right Nat.sub_eq_zero_of_le))⟩
  · exact ⟨s.int.n, exec_init_reply hs (sendStep_waitTest_fail hr ht)⟩

/-- The echo check looks at the third byte as it was read and at the last byte (R224). -/
theorem initAfterEcho_last (e : Vector Byte 4) (b : Byte) :
    initAfterEcho 3 (e.set (3 : Fin 4) b) = if e[2] = 0x01 ∧ b = 0xAA then .clearOk .v2 else .setCtype := by
  have hecho : echoMatches (e.set (3 : Fin 4) b) ↔ e[2] = 0x01 ∧ b = 0xAA := by simp [echoMatches]
  rw [initAfterEcho, if_pos rfl]
  exact if_congr hecho rfl rfl

/-! ### A run of INIT that talks to the card -/

/-- The world outside once the idle bytes of the power-on sequence have gone by deselected, `wake` being what the card sends in
them and in the frame that follows. -/
def State.wokenEnv (s : State) (wake : List Byte) : Env :=
  (s.setCs false).afterTraffic (idles s.params.idleBytes) (wake.take s.params.idleBytes)

/-- `s` once INIT has powered up and selected the card: PWR and CS are 1. The counters and the hidden state are as given. -/
def State.selected (s : State) (wake : List Byte) (t1 t2 : Nat) (j : Internal) : State :=
  { s with
    stat := { s.stat with pwr := true, cs := true }
    t1 := t1
    t2 := t2
    int := j
    env := s.wokenEnv wake }

/-- Without a tick or a host access INIT goes from `s` to its position `p`: since the idle bytes it has driven `o` while the
card sent `m`, T1 and T2 hold `t1` and `t2`, the hidden state but int.N and int.R is one that `know` holds of, and the card's
next bytes are `rest`. -/
structure InitTalk (s : State) (wake : List Byte) (t1 t2 : Nat) (know : Internal → Prop) (p : InitPos)
    (o m rest : List Byte) : Prop where
  run : ∃ j n r, know j ∧ Reaches .init s ((s.selected wake t1 t2 j).heard o m n r .init (.init p))
  aligned : o.length = m.length
  sends : (s.wokenEnv wake).sends (m ++ rest)

/-- What lies outside after INIT has driven `o` to the selected card, counted from its start. -/
theorem State.selected_afterTraffic {s : State} {wake : List Byte} (hwake : wake.length = s.params.idleBytes + 6) (t1 t2 : Nat)
    (j : Internal) (o m : List Byte) :
    (s.selected wake t1 t2 j).afterTraffic o m =
      { s.env.afterCards (s.params.idleBytes + m.length) with
        bus := traffic true o m ++ (traffic false (idles s.params.idleBytes) (wake.take s.params.idleBytes) ++ s.env.bus) } := by
  have hlen : (wake.take s.params.idleBytes).length = s.params.idleBytes := by simp [hwake]
  rw [Env.afterCards_add]
  simp only [State.afterTraffic, State.selected, State.wokenEnv, hlen, Env.afterCards_setBus]
  rfl

/-- INIT's candidate is `ty`. -/
def Internal.hasType (ty : CardType) (j : Internal) : Prop := j.type = ty

/-- The first OCR byte received is `b`. -/
def Internal.startsOcr (b : Byte) (j : Internal) : Prop := j.ocr[0] = b

/-- INIT's power-on sequence is `powerOnSeq` (R222). -/
theorem powerIn_init : PowerIn .init (fun p => .init (.power p)) := by
  intro s t p q hs hstep
  rw [exec_init_at hs, initStep, hstep]
  rfl

/-- The commands of INIT go on as `sendCmd` does. -/
theorem sendIn_init (c : InitCmd) (a : Word) : SendIn .init c.index c.argument a (fun p => .init (.cmd c p)) := by
  intro s t p q _ hs hstep
  rw [exec_init_at hs, initStep, hstep]
  rfl

/-- INIT sends no "stop transmission" (30_encoding.md R102, R110). -/
theorem InitCmd.index_ne_stopIndex (c : InitCmd) : c.index ≠ stopIndex := by
  cases c with
  | blockLen t => exact show (16 : BitVec 6) ≠ stopIndex by decide
  | _ => decide

/-- What the block drives and hears goes on over what it drove and heard. -/
theorem State.heard_heard {s : State} {o m : List Byte} (hl : o.length = m.length) (n n' : Nat) (r r' : Byte) (i : Instr)
    (p q : Pos) (o' m' : List Byte) :
    (s.heard o m n r i p).heard o' m' n' r' i q = s.heard (o ++ o') (m ++ m') n' r' i q := by
  have henv := State.afterTraffic_append (s := s) (t := s.heard o m n r i p) rfl rfl hl o' m'
  unfold State.heard at henv ⊢
  rw [henv]
  rfl

/-- The end of the R1 poll of a command of INIT, after traffic. -/
theorem exec_init_heard_count {s : State} {o m : List Byte} {n : Nat} {r : Byte} {c : InitCmd}
    (h : r.msb = false ∨ n - 1 = 0) :
    exec .init (s.heard o m n r .init (.init (.cmd c .count))) =
      .next (s.heard o m (n - 1) r .init (.init (initReply c r))) :=
  exec_init_reply (t := (s.heard o m n r .init (.init (.cmd c .count))).setN (n - 1)) rfl (sendStep_count_done h)

section
variable {s : State} {wake o m rest : List Byte} {t1 t2 : Nat} {know know' : Internal → Prop}

/-- A command of INIT with a ready card: the gate's bytes, the frame, the R1 poll, and on to where the response leads. -/
theorem InitTalk.command {c : InitCmd} {waits noise pending : List Byte} {r : Byte}
    (h : InitTalk s wake t1 t2 know c.start o m (waits ++ 0xFF :: (noise ++ (pending ++ r :: rest))))
    (hticks : s.armed s.params.readyTicks ≠ 0) (hwaits : ∀ b ∈ waits, b ≠ 0xFF) (hnoise : noise.length = 6)
    (hpending : ∀ b ∈ pending, b.msb = true)
    (hlast : r.msb = false ∧ pending.length < s.params.r1Tries ∨ r.msb = true ∧ pending.length + 1 = s.params.r1Tries) :
    InitTalk s wake t1 (s.armed s.params.readyTicks) know (initReply c r)
      (o ++ (idles (waits.length + 1) ++ (frameBytes c.index c.argument ++ idles (pending.length + 1))))
      (m ++ (waits ++ 0xFF :: (noise ++ (pending ++ [r])))) rest := by
  obtain ⟨j, n, r', hknow, hrun⟩ := h.run
  let u := (s.selected wake t1 t2 j).heard o m n r' .init (.init c.start)
  let v := s.selected wake t1 (s.armed s.params.readyTicks) j
  have hsends : u.env.sends (waits ++ 0xFF :: (noise ++ (pending ++ r :: rest))) :=
    ((State.sends_afterTraffic (s.selected wake t1 t2 j) o m _).mp h.sends).2
  obtain ⟨k, hsend⟩ := sendCmd_run (sendIn_init c j.argl) u waits noise pending r rest rfl rfl hticks hwaits
    (hnoise.trans (if_neg c.index_ne_stopIndex).symm) hpending (show pending.length < s.params.r1Tries by omega) hsends
  rw [if_neg c.index_ne_stopIndex] at hsend
  have hall : Reaches .init u (v.heard (o ++ (idles (waits.length + 1) ++ (frameBytes c.index c.argument ++
      idles (pending.length + 1)))) (m ++ (waits ++ 0xFF :: (noise ++ (pending ++ [r]))))
      (s.params.r1Tries - pending.length) r .init (.init (.cmd c .count))) := by
    rw [← State.heard_heard h.aligned n _ r' _ _ (.init c.start)]
    exact ⟨k, hsend⟩
  have hdone : r.msb = false ∨ s.params.r1Tries - pending.length - 1 = 0 := by
    rcases hlast with ⟨hmsb, -⟩ | ⟨-, hlen⟩
    · exact .inl hmsb
    · exact .inr (by omega)
  refine ⟨⟨j, s.params.r1Tries - pending.length - 1, r, hknow, hrun.trans (hall.trans (.of_exec ?_))⟩, ?_, ?_⟩
  · exact exec_init_heard_count hdone
  · simp [h.aligned, frameBytes, hnoise]; omega
  · simpa using h.sends

/-- A command of INIT that a ready card answers at the first read. -/
theorem InitTalk.answered {c : InitCmd} {noise : List Byte} {r : Byte} {q : InitPos}
    (h : InitTalk s wake t1 t2 know c.start o m (answer noise r ++ rest)) (hticks : s.armed s.params.readyTicks ≠ 0)
    (htries : 1 ≤ s.params.r1Tries) (hnoise : noise.length = 6) (hr : r.msb = false) (hq : initReply c r = q) :
    InitTalk s wake t1 (s.armed s.params.readyTicks) know q (o ++ sent c.index c.argument) (m ++ answer noise r) rest := by
  subst hq
  refine InitTalk.command (t2 := t2) (waits := []) (pending := []) ?_ hticks (by simp) hnoise (by simp) (.inl ⟨hr, htries⟩)
  simpa [answer] using h

/-- A step of INIT without an exchange. -/
theorem InitTalk.silent {p q : InitPos} {t1' : Nat} (h : InitTalk s wake t1 t2 know p o m rest)
    (hstep : ∀ j n r, know j → ∃ j', know' j' ∧ initStep p ((s.selected wake t1 t2 j).heard o m n r .init (.init p)) =
      (s.selected wake t1' t2 j').heard o m n r .init (.init q)) :
    InitTalk s wake t1' t2 know' q o m rest := by
  obtain ⟨j, n, r, hknow, hrun⟩ := h.run
  obtain ⟨j', hknow', heq⟩ := hstep j n r hknow
  exact ⟨⟨j', n, r, hknow', heq ▸ hrun.trans (.of_initStep rfl)⟩, h.aligned, h.sends⟩

/-- T1 is armed with the negotiation budget (R223). -/
theorem InitTalk.armBudget (h : InitTalk s wake t1 t2 know .armBudget o m rest) :
    InitTalk s wake (s.armed s.params.initTicks) t2 know (InitCmd.start .ifCond) o m rest :=
  h.silent fun j _ _ hknow => ⟨j, hknow, rfl⟩

/-- int.OK is cleared before a loop (R225, R228). -/
theorem InitTalk.clearOk {l : InitLoop} (h : InitTalk s wake t1 t2 (Internal.hasType .none) (.clearOk l) o m rest) :
    InitTalk s wake t1 t2 (Internal.hasType .none) l.first o m rest :=
  h.silent fun j _ _ hknow => ⟨{ j with ok := false }, hknow, rfl⟩

/-- A loop's success leads to the command after the loop (R225, R228). -/
theorem InitTalk.setOk {l : InitLoop} (h : InitTalk s wake t1 t2 (Internal.hasType .none) (.setOk l) o m rest) :
    InitTalk s wake t1 t2 (Internal.hasType .none) l.next o m rest :=
  h.silent fun j _ _ hknow => ⟨{ j with ok := true }, hknow, rfl⟩

/-- The candidate of the legacy path becomes int.TYPE (R229). -/
theorem InitTalk.legacyType {t : Legacy} (h : InitTalk s wake t1 t2 (Internal.hasType .none) (.legacyType t) o m rest) :
    InitTalk s wake t1 t2 (Internal.hasType t.type) .setCtype o m rest :=
  h.silent fun j _ _ _ => ⟨{ j with type := t.type }, rfl, rfl⟩

end

/-- A read of an echo byte, after traffic. -/
theorem State.heard_rx_setEcho {s : State} {o m : List Byte} {c : Byte} {rest : List Byte} (hl : o.length = m.length)
    (hc : s.env.sends (m ++ c :: rest)) (n : Nat) (r : Byte) (i : Instr) (p q : Pos) (k : Fin 4) :
    ((s.heard o m n r i p).rx.setEcho k c).goto i q = (s.setEcho k c).heard (o ++ [0xFF]) (m ++ [c]) n c i q :=
  congrArg (State.setEcho · k c) (State.heard_rx hl hc n r i p q)

/-- A read of an OCR byte, after traffic. -/
theorem State.heard_rx_setOcr {s : State} {o m : List Byte} {c : Byte} {rest : List Byte} (hl : o.length = m.length)
    (hc : s.env.sends (m ++ c :: rest)) (n : Nat) (r : Byte) (i : Instr) (p q : Pos) (k : Fin 4) :
    ((s.heard o m n r i p).rx.setOcr k c).goto i q = (s.setOcr k c).heard (o ++ [0xFF]) (m ++ [c]) n c i q :=
  congrArg (State.setOcr · k c) (State.heard_rx hl hc n r i p q)

section
variable {s : State} {wake o m rest : List Byte} {t1 t2 : Nat} {know know' : Internal → Prop}

/-- A step of INIT that reads one byte. -/
theorem InitTalk.read {p q : InitPos} {c : Byte} (h : InitTalk s wake t1 t2 know p o m (c :: rest))
    (hstep : ∀ j n r, know j → ((s.selected wake t1 t2 j).heard o m n r .init (.init p)).cardByte = c →
      ∃ j', know' j' ∧ initStep p ((s.selected wake t1 t2 j).heard o m n r .init (.init p)) =
        (s.selected wake t1 t2 j').heard (o ++ [0xFF]) (m ++ [c]) n c .init (.init q)) :
    InitTalk s wake t1 t2 know' q (o ++ [0xFF]) (m ++ [c]) rest := by
  obtain ⟨j, n, r, hknow, hrun⟩ := h.run
  obtain ⟨hbyte, -⟩ := State.heard_xchg (s := s.selected wake t1 t2 j) h.aligned h.sends n r .init (.init p) 0xFF
  obtain ⟨j', hknow', heq⟩ := hstep j n r hknow hbyte
  exact ⟨⟨j', n, c, hknow', heq ▸ hrun.trans (.of_initStep rfl)⟩, by simp [h.aligned], by simpa using h.sends⟩

/-- One byte of the echo (R224). -/
theorem InitTalk.echo {k : Fin 4} {c : Byte} {q : InitPos} (h : InitTalk s wake t1 t2 know (.echo k) o m (c :: rest))
    (hnext : ∀ j, know j → know' { j with echo := j.echo.set k c } ∧ initAfterEcho k (j.echo.set k c) = q) :
    InitTalk s wake t1 t2 know' q (o ++ [0xFF]) (m ++ [c]) rest := by
  refine h.read fun j n r hknow hbyte => ?_
  obtain ⟨hknow', rfl⟩ := hnext j hknow
  refine ⟨_, hknow', ?_⟩
  rw [initStep, hbyte]
  exact State.heard_rx_setEcho (s := s.selected wake t1 t2 j) h.aligned h.sends ..

/-- One byte of the OCR (R226). -/
theorem InitTalk.ocr {k : Fin 4} {c : Byte} (h : InitTalk s wake t1 t2 know (.ocr k) o m (c :: rest))
    (hnext : ∀ j, know j → know' { j with ocr := j.ocr.set k c }) :
    InitTalk s wake t1 t2 know' (initAfterOcr k) (o ++ [0xFF]) (m ++ [c]) rest := by
  refine h.read fun j n r hknow hbyte => ⟨_, hnext j hknow, ?_⟩
  rw [initStep, hbyte]
  exact State.heard_rx_setOcr (s := s.selected wake t1 t2 j) h.aligned h.sends ..

/-- The four bytes of an echo that matches lead to the negotiation (R224, R225). -/
theorem InitTalk.echoes {e0 e1 : Byte}
    (h : InitTalk s wake t1 t2 (Internal.hasType .none) (.echo 0) o m ([e0, e1, 0x01, 0xAA] ++ rest)) :
    InitTalk s wake t1 t2 (Internal.hasType .none) (.clearOk .v2) (o ++ idles 4) (m ++ [e0, e1, 0x01, 0xAA]) rest := by
  have h1 := h.echo (know' := Internal.hasType .none) (q := .echo 1) fun _ hj => ⟨hj, rfl⟩
  have h2 := h1.echo (know' := Internal.hasType .none) (q := .echo 2) fun _ hj => ⟨hj, rfl⟩
  have h3 := h2.echo (know' := fun j => j.hasType .none ∧ j.echo[2] = 0x01) (q := .echo 3) fun j hj =>
    ⟨⟨hj, j.echo.getElem_set_self (by decide)⟩, rfl⟩
  have h4 := h3.echo (know' := Internal.hasType .none) (q := .clearOk .v2) fun j hj =>
    ⟨hj.1, (initAfterEcho_last j.echo 0xAA).trans (if_pos ⟨hj.2, rfl⟩)⟩
  simpa [idles] using h4

/-- The four bytes of the OCR give the candidate, by bit 6 of the first (R226). -/
theorem InitTalk.ocrs {o0 o1 o2 o3 : Byte} {ty : CardType}
    (h : InitTalk s wake t1 t2 (Internal.hasType ty) (.ocr 0) o m ([o0, o1, o2, o3] ++ rest)) :
    InitTalk s wake t1 t2 (Internal.hasType (if o0.getLsbD 6 then .sdv2Block else .sdv2Byte)) .setCtype (o ++ idles 4)
      (m ++ [o0, o1, o2, o3]) rest := by
  have hkeep (k : Fin 4) (hk : (k : Nat) ≠ 0) (c : Byte) (j : Internal) (hj : j.startsOcr o0) :
      Internal.startsOcr o0 { j with ocr := j.ocr.set k c } := (j.ocr.getElem_set_ne k.isLt (by decide) hk).trans hj
  have h1 := h.ocr (know' := Internal.startsOcr o0) fun j _ => j.ocr.getElem_set_self (by decide)
  have h4 := ((h1.ocr (k := 1) (hkeep 1 (by decide) o1)).ocr (k := 2) (hkeep 2 (by decide) o2)).ocr (k := 3)
    (hkeep 3 (by decide) o3)
  have h5 := h4.silent (know' := Internal.hasType (if o0.getLsbD 6 then .sdv2Block else .sdv2Byte)) (t1' := t1) (q := .setCtype)
    fun j _ _ hj => ⟨{ j with type := ocrType j.ocr }, by rw [Internal.hasType, ocrType, show j.ocr[0] = o0 from hj], rfl⟩
  simpa [idles] using h5

end

/-- From the last write of the power-on sequence to the first command: PWR, chip select, the candidate cleared (R222). -/
theorem initSelect_run {s : State} (hs : s.standsAt .init (.init (.power .setPower))) :
    Reaches .init s ((((s.setPwr true).setCs true).setType .none).goto .init (.init (InitCmd.start .goIdle))) := by
  have hpower : Reaches .init s ((s.setPwr true).goto .init (.init .select)) := .of_initStep hs
  have hselect : Reaches .init ((s.setPwr true).goto .init (.init .select))
      (((s.setPwr true).setCs true).goto .init (.init .clearType)) := .of_initStep (p := .select) rfl
  have hclear : Reaches .init (((s.setPwr true).setCs true).goto .init (.init .clearType))
      ((((s.setPwr true).setCs true).setType .none).goto .init (.init (InitCmd.start .goIdle))) :=
    Reaches.of_initStep (p := .clearType) rfl
  exact hpower.trans (hselect.trans hclear)

/-- INIT with a disk, up to its first command: the power-on sequence, acknowledged or out of tries, chip select, and the
candidate cleared (R222). -/
theorem initTalk_start {s : State} {wake refusals rest : List Byte} {a : Byte} (hs : s.standsAt .init (.init .diskTest))
    (hdisk : s.stat.nodisk = false) (hwake : wake.length = s.params.idleBytes + 6) (hrefuse : ∀ b ∈ refusals, b ≠ 0x01)
    (hend : a = 0x01 ∧ refusals.length < s.params.pollReads ∨ refusals.length + 1 = s.params.pollReads)
    (hsends : s.env.sends (wake ++ (refusals ++ a :: rest))) :
    InitTalk s wake s.t1 s.t2 (Internal.hasType .none) (InitCmd.start .goIdle) (frameBytes 0 0 ++ idles (refusals.length + 1))
      (wake.drop s.params.idleBytes ++ (refusals ++ [a])) rest := by
  have htest : exec .init s = .next (s.goto .init (.init (.power .deselect))) := by
    rw [exec_init_at hs, initStep, hdisk]
    rfl
  obtain ⟨k, n, hpower⟩ := powerOn_run powerIn_init (s.goto .init (.init (.power .deselect))) wake refusals a rest rfl hwake
    hrefuse hend hsends
  refine ⟨⟨{ s.int with type := .none }, n, a, rfl, ?_⟩, ?_, ?_⟩
  · refine (Reaches.of_exec htest).trans (Reaches.trans ⟨k, hpower⟩ ?_)
    have hlen : (wake ++ (refusals ++ [a])).length =
        s.params.idleBytes + (wake.drop s.params.idleBytes ++ (refusals ++ [a])).length := by
      simp [hwake]; omega
    refine (initSelect_run (by exact rfl)).trans ⟨0, ?_⟩
    rw [execN, State.heard, State.selected_afterTraffic hwake, hlen]
    dsimp only [State.goto, State.setType, State.setCs, State.setPwr, State.selected]
  · simp [frameBytes, hwake]; omega
  · rw [← List.take_append_drop s.params.idleBytes wake] at hsends
    rw [List.append_assoc] at hsends
    simpa [State.wokenEnv] using ((State.sends_afterTraffic (s.setCs false) (idles s.params.idleBytes) _ _).mp hsends).2

/-- Step 4 after traffic, from its first write to `finish` (R232). -/
theorem InitTalk.completes {s : State} {wake o m : List Byte} {t1 t2 : Nat} {ty : CardType} {x : Byte}
    (h : InitTalk s wake t1 t2 (Internal.hasType ty) .setCtype o m [x]) (hdisk : s.stat.nodisk = false)
    (hwake : wake.length = s.params.idleBytes + 6) {k : Nat} (hk : s.params.idleBytes + m.length + 1 = k) :
    ∃ k' i, i.phase = .idle ∧ execN .init k' s = .next
      { s with
        rdata := (if ty = .none then 1 else 0) + (if s.stat.wprot then 4 else 0)
        t1 := t1
        t2 := t2
        stat := { s.stat.ended (if ty = .none then .initFail else .none) with
          ctype := ty, noinit := decide (ty = .none), pwr := if ty = .none then false else true, cs := false }
        int := i
        env := { s.env.afterCards k with
          bus := traffic false [0xFF] [x] ++ (traffic true o m ++
            (traffic false (idles s.params.idleBytes) (wake.take s.params.idleBytes) ++ s.env.bus)) } } := by
  obtain ⟨j, n, r, rfl, hrun⟩ := h.run
  obtain ⟨hbyte, -⟩ := State.heard_xchg (s := s.selected wake t1 t2 j) h.aligned h.sends n r .init (.init .setCtype) 0xFF
  let u := (s.selected wake t1 t2 j).heard o m n r .init (.init .setCtype)
  have henv : u.env = _ := State.selected_afterTraffic hwake t1 t2 j o m
  obtain ⟨l, e, o', hend⟩ := initCompletesByItsCandidate u rfl
  obtain ⟨k', hall⟩ := hrun.trans ⟨l, hend⟩
  refine ⟨k', { u.int with r := u.cardByte, echo := e, ocr := o', phase := .idle }, rfl, hall.trans ?_⟩
  have hcount : (s.env.afterCards (s.params.idleBytes + m.length)).afterCard = s.env.afterCards k := by
    rw [← hk, Env.afterCards_add _ _ 1]
    rfl
  rw [show u.stat.nodisk = false from hdisk, if_neg Bool.false_ne_true, add_zero, show u.cardByte = x from hbyte, henv,
    Env.afterCard_setBus, hcount]
  rfl

/-- Step 4 with a candidate found leaves INIT OK (R232). -/
theorem InitTalk.succeeds {s : State} {wake o m : List Byte} {t1 t2 : Nat} {ty : CardType} {x : Byte}
    (h : InitTalk s wake t1 t2 (Internal.hasType ty) .setCtype o m [x]) (hty : ty ≠ .none) (hdisk : s.stat.nodisk = false)
    (hwake : wake.length = s.params.idleBytes + 6) {k : Nat} (hk : s.params.idleBytes + m.length + 1 = k) :
    ∃ k' i, i.phase = .idle ∧ execN .init k' s = .next
      { s with
        rdata := if s.stat.wprot then 4 else 0
        t1 := t1
        t2 := t2
        stat := { s.stat.ended .none with ctype := ty, noinit := false, pwr := true, cs := false }
        int := i
        env := { s.env.afterCards k with
          bus := traffic false [0xFF] [x] ++ (traffic true o m ++
            (traffic false (idles s.params.idleBytes) (wake.take s.params.idleBytes) ++ s.env.bus)) } } := by
  have hend := h.completes hdisk hwake hk
  simp only [if_neg hty, decide_eq_false hty, zero_add] at hend
  exact hend

/-! ### The runs -/

/-- A byte that accepts command 55 is a response: its bit 7 is clear (30_encoding.md R103). -/
theorem msb_eq_false_of_prefixAccepted {r : Byte} (h : prefixAccepted r) : r.msb = false := by
  have hr : r.toNat ≤ 1 := h
  rw [BitVec.msb_eq_false_iff_two_mul_lt]
  omega

/-- Settles O38: the run of a refused idle probe, then each response and the last echo byte. -/
theorem initFailsOnARefusedIdleProbe : Obligations.InitFailsOnARefusedIdleProbe := by
  refine ⟨?run, fun s r => ?_⟩
  case run =>
    intro s wake refusals waits noise pending a r x hs hdisk hticks hwake hrefuse hend hwaits hnoise hpending hlast hsends
    have hne : r ≠ 0x01 := by
      rintro rfl
      simp at hlast
    have hprobe := (initTalk_start hs hdisk hwake hrefuse hend hsends).command hticks hwaits hnoise hpending
      (hlast.imp_left fun ⟨hmsb, _, hlen⟩ => ⟨hmsb, hlen⟩)
    rw [show initReply .goIdle r = .setCtype from if_neg hne] at hprobe
    have hfail := hprobe.completes hdisk hwake
      (k := s.params.idleBytes + refusals.length + waits.length + pending.length + 16) (by simp [hwake, hnoise]; omega)
    simp only [List.append_assoc, List.singleton_append] at hfail
    exact hfail
  have hlead (c : InitCmd) (h : s.endsWith c r) : s.leadsTo (initReply c r) := h.leadsTo
  refine ⟨hlead .goIdle, hlead .ifCond, hlead .v2Prefix, hlead .v2Init, hlead .readOcr, hlead .probePrefix, fun h => ?_,
    hlead .sdPrefix, hlead .sdInit, hlead .mmcInit, fun t => hlead (.blockLen t), fun hs => ?_⟩
  · have hprobe := hlead .probeInit h
    rwa [initReply, apply_ite (fun t => InitPos.clearOk (.legacy t))] at hprobe
  · rw [exec_init_at hs, initStep, initAfterEcho_last]
    rfl

section
variable {s : State} {wake o m rest : List Byte} {t1 t2 : Nat}

/-- Up to command 8, with a card that acknowledges the power-on poll and command 0 at the first read (R222, R223). -/
theorem initTalk_ifCond {n0 : List Byte} (hs : s.standsAt .init (.init .diskTest)) (hdisk : s.stat.nodisk = false)
    (hticks : s.armed s.params.readyTicks ≠ 0) (htries : 1 ≤ s.params.r1Tries) (hpolls : 1 ≤ s.params.pollReads)
    (hwake : wake.length = s.params.idleBytes + 6) (h0 : n0.length = 6)
    (hsends : s.env.sends (wake ++ 0x01 :: (answer n0 0x01 ++ rest))) :
    InitTalk s wake (s.armed s.params.initTicks) (s.armed s.params.readyTicks) (Internal.hasType .none)
      (InitCmd.start .ifCond) (frameBytes 0 0 ++ idles 1 ++ sent 0 0) (wake.drop s.params.idleBytes ++ [0x01] ++ answer n0 0x01)
      rest := by
  have hstart := initTalk_start (refusals := []) hs hdisk hwake (by simp) (.inl ⟨rfl, hpolls⟩) hsends
  exact (hstart.answered hticks htries h0 (q := .armBudget) rfl rfl).armBudget

/-- From a legacy candidate's success through command 16 to step 4 (R229). -/
theorem InitTalk.blockLen {t : Legacy} {n16 : List Byte}
    (h : InitTalk s wake t1 t2 (Internal.hasType .none) (.setOk (.legacy t)) o m (answer n16 0x00 ++ rest))
    (hticks : s.armed s.params.readyTicks ≠ 0) (htries : 1 ≤ s.params.r1Tries) (h16 : n16.length = 6) :
    InitTalk s wake t1 (s.armed s.params.readyTicks) (Internal.hasType t.type) .setCtype (o ++ sent 16 0x200)
      (m ++ answer n16 0x00) rest :=
  (h.setOk.answered (c := .blockLen t) hticks htries h16 (q := .legacyType t) rfl rfl).legacyType

end

/-- Settles O39: commands 0 and 8, the echo, one iteration of the negotiation, command 58, the OCR, and step 4. -/
theorem initDetectsAnSdv2Card : Obligations.InitDetectsAnSdv2Card := by
  intro s wake n0 n8 n55 n41 n58 e0 e1 p o0 o1 o2 o3 x hs hdisk hticks htries hpolls hwake h0 h8 h55 h41 h58 hp hsends
  have hstart := initTalk_ifCond hs hdisk hticks htries hpolls hwake h0 hsends
  have hcond := hstart.answered hticks htries h8 (q := .echo 0) rfl rfl
  have happ := hcond.echoes.clearOk.answered hticks htries h55 (q := InitCmd.start .v2Init)
    (msb_eq_false_of_prefixAccepted hp) (if_pos hp)
  have hinit := happ.answered hticks htries h41 (q := .setOk .v2) rfl rfl
  have hocr := hinit.setOk.answered hticks htries h58 (q := .ocr 0) rfl rfl
  have hend := hocr.ocrs.succeeds (by split <;> decide) hdisk hwake (k := s.params.idleBytes + 56)
    (by simp [hwake, answer, h0, h8, h55, h41, h58])
  simp only [List.append_assoc, List.nil_append, List.cons_append] at hend ⊢
  exact hend

/-- Settles O40: commands 0 and 8, the probe's pair, one iteration of the polling, command 16, and step 4. -/
theorem initDetectsAnSdv1Card : Obligations.InitDetectsAnSdv1Card := by
  intro s wake n0 n8 a b c d n16 r8 p q p' x hs hdisk hticks htries hpolls hwake h0 h8 ha hb hc hd h16 hmsb hr8 hp hq hp' hsends
  have hstart := initTalk_ifCond hs hdisk hticks htries hpolls hwake h0 hsends
  have hcond := hstart.answered hticks htries h8 (q := InitCmd.start .probePrefix) hmsb (if_neg hr8)
  have happ := hcond.answered hticks htries ha (q := InitCmd.start .probeInit) (msb_eq_false_of_prefixAccepted hp) (if_pos hp)
  have hprobe := happ.answered hticks htries hb (q := .clearOk (.legacy .sd)) (msb_eq_false_of_prefixAccepted hq)
    (congrArg (fun t => InitPos.clearOk (.legacy t)) (if_pos hq))
  have hagain := hprobe.clearOk.answered (c := .sdPrefix) hticks htries hc (q := InitCmd.start .sdInit)
    (msb_eq_false_of_prefixAccepted hp') (if_pos hp')
  have hinit := hagain.answered hticks htries hd (q := .setOk (.legacy .sd)) rfl rfl
  have hend := (hinit.blockLen hticks htries h16).succeeds (by decide) hdisk hwake (k := s.params.idleBytes + 64)
    (by simp [hwake, answer, h0, h8, ha, hb, hc, hd, h16])
  simp only [List.append_assoc, List.nil_append, List.cons_append] at hend ⊢
  exact hend

/-- Settles O41: commands 0 and 8, the probe's refused command 55, one iteration of the polling, command 16, and step 4. -/
theorem initDetectsAnMmcCard : Obligations.InitDetectsAnMmcCard := by
  intro s wake n0 n8 a b n16 r8 p x hs hdisk hticks htries hpolls hwake h0 h8 ha hb h16 hmsb hr8 hpmsb hp hsends
  have hstart := initTalk_ifCond hs hdisk hticks htries hpolls hwake h0 hsends
  have hcond := hstart.answered hticks htries h8 (q := InitCmd.start .probePrefix) hmsb (if_neg hr8)
  have hrefused := hcond.answered hticks htries ha (q := .clearOk (.legacy .mmc)) hpmsb (if_neg hp)
  have hinit := hrefused.clearOk.answered (c := .mmcInit) hticks htries hb (q := .setOk (.legacy .mmc)) rfl rfl
  have hend := (hinit.blockLen hticks htries h16).succeeds (by decide) hdisk hwake (k := s.params.idleBytes + 48)
    (by simp [hwake, answer, h0, h8, ha, hb, h16])
  simp only [List.append_assoc, List.nil_append, List.cons_append] at hend ⊢
  exact hend

end Sys2Proof.Machine

/-! PROOFS. The control ops, and write protection, which gates no op (43_control.md R260 to R262). -/

namespace Sys2Proof.Machine

/-! ### SADDR and MEDIA -/

/-- The conversion of R260 as a product: a shift by 9 is times 512, modulo 2^32. -/
theorem State.cardAddress_eq_mul (s : State) (sector : Word) :
    s.cardAddress sector = if s.stat.ctype = .sdv2Block then sector else BitVec.ofNat 32 (sector.toNat * 512) := by
  have hshift : sector <<< 9 = BitVec.ofNat 32 (sector.toNat * 512) := by
    apply BitVec.eq_of_toNat_eq
    simp [Nat.shiftLeft_eq]
  rw [State.cardAddress, hshift]

/-- Settles O43: `finish` with the card address of the latched sector. -/
theorem saddrConvertsASector : Obligations.SaddrConvertsASector := by
  refine ⟨by decide, fun s hs => ?_⟩
  rw [← State.cardAddress_eq_mul]
  simp only [exec, execSaddr, State.posOf_eq hs]
  rfl

/-- Settles O44: the two writes, then `finish` with status() of the flags just written. -/
theorem mediaSetsTheFlags : Obligations.MediaSetsTheFlags := by
  refine ⟨by decide, fun s hs => ?_⟩
  have hnodisk : exec .media s = .next ((s.setNodisk (mediaNodisk s.int.argl)).goto .media (.media .setWprot)) := by
    simp only [exec, execMedia, State.posOf_eq hs]
  refine ⟨_, ((s.setNodisk (mediaNodisk s.int.argl)).setWprot (mediaWprot s.int.argl)).goto .media (.media .finish),
    hnodisk, rfl, ?_⟩
  have hstatus := Stat.status_eq_add ((s.setNodisk (mediaNodisk s.int.argl)).setWprot (mediaWprot s.int.argl)).stat
  exact congrArg (fun v => Host.Outcome.next (State.finish _ .none (some v))) hstatus

/-! ### Steps at another WPROT -/

/-- The answer of a step with the next state, where there is one, at another WPROT. -/
def Result.setWprot (f : Bool) : Result → Result
  | .next t => .next (t.setWprot f)
  | .fault r => .fault r
  | .refused r => .refused r

@[simp] theorem State.posOf_setWprot (s : State) (f : Bool) (i : Instr) : (s.setWprot f).posOf i = s.posOf i := rfl
@[simp] theorem State.rx_setWprot (s : State) (f : Bool) : (s.setWprot f).rx = s.rx.setWprot f := rfl
@[simp] theorem State.cardByte_setWprot (s : State) (f : Bool) : (s.setWprot f).cardByte = s.cardByte := rfl

/-- Writing DATA is the same write at either WPROT. -/
@[simp] theorem State.setData_setWprot (s : State) (f : Bool) (k : Nat) (b : Byte) :
    (s.setWprot f).setData k b = (s.setData k b).setWprot f := by
  unfold State.setData
  split <;> rfl

/-- The running checksum takes the byte at either WPROT. -/
@[simp] theorem State.runCrc_setWprot (s : State) (f : Bool) (b : Byte) :
    (s.setWprot f).runCrc b = (s.runCrc b).setWprot f := by
  unfold State.runCrc
  rw [State.setWprot_crcchk]
  split <;> rfl

/-- The readiness wait tests int.R and T2 (R130). -/
theorem waitStep_setWprot (p : WaitPos) (s : State) (f : Bool) :
    waitStep p (s.setWprot f) = (waitStep p s).map id (·.setWprot f) := by
  cases p with
  | arm | read => rfl
  | test =>
    simp only [waitStep, apply_ite (Prod.map id (State.setWprot · f))]
    rfl

/-- The power-on sequence tests int.R and int.N (R132). -/
theorem powerStep_setWprot (p : PowerPos) (s : State) (f : Bool) :
    powerStep p (s.setWprot f) = (powerStep p s).map id (·.setWprot f) := by
  cases p <;> rfl

/-- `sendCmd` tests int.R, int.N and T2 (R139). -/
theorem sendStep_setWprot (idx : BitVec 6) (arg : Word) (p : SendPos) (s : State) (f : Bool) :
    sendStep idx arg p (s.setWprot f) = (sendStep idx arg p s).map id (·.setWprot f) := by
  cases p with
  | wait q =>
    simp only [sendStep, waitStep_setWprot]
    rcases waitStep q s with ⟨q' | w, t⟩
    · rfl
    · simp only [apply_ite (Prod.map id (State.setWprot · f))]
      rfl
  | frame | stuff | tries | poll | count => rfl

/-- RDBLK tests int.R, T1, CRCCHK and int.CRC (R181). -/
theorem rdblkStep_setWprot (len : Nat) (p : RdblkPos) (s : State) (f : Bool) :
    rdblkStep len p (s.setWprot f) = (rdblkStep len p s).setWprot f := by
  cases p with
  | tokenTest =>
    have htest : rdblkTokenTest (s.setWprot f) = (rdblkTokenTest s).map id (·.setWprot f) := by
      simp only [rdblkTokenTest, apply_ite (Prod.map id (State.setWprot · f))]
      rfl
    rw [rdblkStep, htest]
    rfl
  | payload k =>
    simp only [rdblkStep, State.rx_setWprot, State.cardByte_setWprot, State.setData_setWprot, State.runCrc_setWprot]
    rfl
  | arm | token | check1 | check0 | verify | finish => rfl

/-- WRBLK tests int.R, int.N and T2, and not WPROT: a write to a protected card goes on the wire (R186, R262). -/
theorem wrblkStep_setWprot (tok : Token) (p : WrblkPos) (s : State) (f : Bool) :
    wrblkStep tok p (s.setWprot f) = (wrblkStep tok p s).setWprot f := by
  cases p with
  | wait q =>
    simp only [wrblkStep, waitStep_setWprot]
    rcases waitStep q s with ⟨q' | w, t⟩ <;> rfl
  | token | payload | filler | tries | response | count | armBusy | busy | busyTest | finish => rfl

/-- The step of op `i` is a `finish` that returns status(), whatever WPROT is. -/
def FinishesWithStatus (i : Instr) (s : State) : Prop :=
  ∃ (r : State) (c : Cause), ∀ f, exec i (s.setWprot f) = .next ((r.setWprot f).finish c (some (r.setWprot f).stat.status))

/-- INIT makes the same step at either WPROT, or it is the `finish` that returns status() (R220, R232). -/
theorem initStep_setWprot (p : InitPos) (s : State) :
    (∀ f, initStep p (s.setWprot f) = (initStep p s).setWprot f) ∨
      ∃ c, ∀ f, initStep p (s.setWprot f) = (s.setWprot f).finishInit c := by
  cases p with
  | diskTest =>
    by_cases hdisk : s.stat.nodisk = true
    · exact .inr ⟨.notReady, fun f => if_pos hdisk⟩
    · have hgo : initStep .diskTest s = initGoto (.power .deselect, s) := if_neg hdisk
      refine .inl fun f => ?_
      rw [hgo]
      exact if_neg hdisk
  | power q =>
    refine .inl fun f => ?_
    simp only [initStep, powerStep_setWprot]
    rcases powerStep q s with ⟨q' | r, t⟩ <;> rfl
  | cmd c q =>
    refine .inl fun f => ?_
    simp only [initStep, sendStep_setWprot]
    rcases sendStep c.index c.argument q s with ⟨q' | r, t⟩ <;> rfl
  | finish c => exact .inr ⟨c, fun _ => rfl⟩
  | select | clearType | armBudget | echo | clearOk | setOk | loopTest | ocr | ocrType | legacyType | setCtype | deselect
  | trailing | powerOff | setNoinit | clearNoinit => exact .inl fun _ => rfl

/-- The step of op `i` is the same one whatever WPROT is, which it keeps or writes. -/
def SameAtWprot (i : Instr) (s : State) : Prop := ∀ f, ∃ g, exec i (s.setWprot f) = Result.setWprot g (exec i s)

/-- INIT's step, at either WPROT. -/
theorem init_sameAtWprot_or_finishes (s : State) : SameAtWprot .init s ∨ FinishesWithStatus .init s := by
  simp only [SameAtWprot, FinishesWithStatus, exec, execInit, State.posOf_setWprot]
  split
  case h_1 p _ =>
    rcases initStep_setWprot p s with h | ⟨c, h⟩
    · exact .inl fun f => ⟨f, congrArg _ (h f)⟩
    · exact .inr ⟨s.dropReplies, c, fun f => congrArg _ (h f)⟩
  all_goals exact .inl fun f => ⟨f, rfl⟩

/-- MEDIA's step, at either WPROT: it writes WPROT from the latched argument (R261). -/
theorem media_sameAtWprot_or_finishes (s : State) : SameAtWprot .media s ∨ FinishesWithStatus .media s := by
  simp only [SameAtWprot, FinishesWithStatus, exec, execMedia, State.posOf_setWprot]
  split
  case h_2 => exact .inl fun f => ⟨mediaWprot s.int.argl, rfl⟩
  case h_3 => exact .inr ⟨s, .none, fun f => rfl⟩
  all_goals exact .inl fun f => ⟨f, rfl⟩

/-- Every op but INIT and MEDIA does the same at either WPROT, and keeps it (R24, R262). -/
theorem exec_setWprot {i : Instr} (hinit : i ≠ .init) (hmedia : i ≠ .media) (s : State) (f : Bool) :
    exec i (s.setWprot f) = Result.setWprot f (exec i s) := by
  cases i with
  | init => exact absurd rfl hinit
  | media => exact absurd rfl hmedia
  | pwron =>
    simp only [exec, execPwron, State.posOf_setWprot, powerStep_setWprot]
    split
    case h_1 p _ => rcases powerStep p s with ⟨q | r, t⟩ <;> rfl
    all_goals rfl
  | waitrdy =>
    simp only [exec, execWaitrdy, State.posOf_setWprot, waitStep_setWprot]
    split
    case h_1 p _ => rcases waitStep p s with ⟨q | r, t⟩ <;> rfl
    all_goals rfl
  | cmd idx =>
    simp only [exec, execCmd, State.posOf_setWprot, State.setWprot_int, sendStep_setWprot]
    split
    case h_1 p _ => rcases sendStep idx s.int.argl p s with ⟨q | r, t⟩ <;> rfl
    all_goals rfl
  | pwroff | pwrchk | csel | cdesel | txb | rxb len | rdblk len | wrblk tok | saddr =>
    simp only [exec, execPwroff, execPwrchk, execCsel, execCdesel, execTxb, execRxb, execRdblk, execWrblk, execSaddr,
      State.posOf_setWprot, State.rx_setWprot, State.cardByte_setWprot, State.setData_setWprot, rdblkStep_setWprot,
      wrblkStep_setWprot]
    split <;> rfl

/-- Every op: its step is the same at either WPROT, or it is the `finish` of INIT or of MEDIA. -/
theorem exec_sameAtWprot_or_finishes (i : Instr) (s : State) :
    SameAtWprot i s ∨ (i = .init ∨ i = .media) ∧ FinishesWithStatus i s := by
  by_cases hinit : i = .init
  · subst hinit
    exact (init_sameAtWprot_or_finishes s).imp_right fun h => ⟨.inl rfl, h⟩
  by_cases hmedia : i = .media
  · subst hmedia
    exact (media_sameAtWprot_or_finishes s).imp_right fun h => ⟨.inr rfl, h⟩
  exact .inl fun f => ⟨f, exec_setWprot hinit hmedia s f⟩

/-- Past bit 2, status() does not depend on WPROT (R232). -/
theorem Stat.status_and_mask (t : Stat) : t.status &&& 0xFFFFFFFB = flagBit t.noinit 0 ||| flagBit t.nodisk 1 := by
  unfold Stat.status
  cases t.noinit <;> cases t.nodisk <;> cases t.wprot <;> rfl

/-- Settles O18: at the other WPROT the next state is the same one at some WPROT, or the same `finish` with status(). -/
theorem writeProtectionGatesNoOp : Obligations.WriteProtectionGatesNoOp := by
  intro i s t f hexec
  rcases exec_sameAtWprot_or_finishes i s with hsame | ⟨hi, r, c, hfinish⟩
  · obtain ⟨g, hg⟩ := hsame f
    rw [hexec] at hg
    exact ⟨t.setWprot g, hg, rfl, fun _ _ => rfl, rfl⟩
  · cases hexec.symm.trans (hfinish s.stat.wprot)
    refine ⟨_, hfinish f, rfl, fun hinit hmedia => (hi.elim hinit hmedia).elim, ?_⟩
    exact (Stat.status_and_mask (r.setWprot f).stat).trans (Stat.status_and_mask (r.setWprot s.stat.wprot).stat).symm

end Sys2Proof.Machine

/-! PROOFS. Acceptance, discarded writes, and the counters: ticks, and which ops arm them (60_exceptions.md R280 to R286, R294). -/

namespace Sys2Proof.Machine

/-! ### Which ops arm the counters -/

/-- The budgets that op `i` arms T1 with (R294). -/
def t1Budgets (i : Instr) (p : Params) : List Nat :=
  match i with
  | .init => [p.initTicks]
  | .rdblk _ => [p.tokenTicks]
  | .pwron | .pwroff | .pwrchk | .waitrdy | .csel | .cdesel | .cmd _ | .txb | .rxb _ | .wrblk _ | .saddr | .media => []

/-- The budgets that op `i` arms T2 with (R294): the ops that hold a `waitReadyCore`, and WRBLK's busy drain. -/
def t2Budgets (i : Instr) (p : Params) : List Nat :=
  match i with
  | .waitrdy | .cmd _ | .init => [p.readyTicks]
  | .wrblk _ => [p.readyTicks, p.busyTicks]
  | .pwron | .pwroff | .pwrchk | .csel | .cdesel | .txb | .rxb _ | .rdblk _ | .saddr | .media => []

/-- From `s` to `t` each counter keeps its value or is armed with one of its budgets `ks1`, `ks2`. -/
def State.armsWithin (s t : State) (ks1 ks2 : List Nat) : Prop :=
  (t.t1 = s.t1 ∨ ∃ k ∈ ks1, t.t1 = s.armed k) ∧ (t.t2 = s.t2 ∨ ∃ k ∈ ks2, t.t2 = s.armed k)

/-- A step that leaves both counters is within any budgets. -/
theorem State.armsWithin.of_same {s t : State} (h1 : t.t1 = s.t1) (h2 : t.t2 = s.t2) (ks1 ks2 : List Nat) :
    s.armsWithin t ks1 ks2 :=
  ⟨.inl h1, .inl h2⟩

/-- A step of the readiness wait arms T2 only, with READY_TICKS (R130). -/
theorem waitStep_armsWithin (p : WaitPos) (s : State) {ks1 ks2 : List Nat} (hready : s.params.readyTicks ∈ ks2) :
    s.armsWithin (waitStep p s).2 ks1 ks2 := by
  obtain ⟨k, r, e, heq, hk, -⟩ := waitStep_frame p s
  rw [heq]
  exact ⟨.inl rfl, hk.imp_right fun h => ⟨_, hready, h⟩⟩

/-- So does a step of `sendCmd`, by its readiness gate (R139, R143). -/
theorem sendStep_armsWithin (idx : BitVec 6) (arg : Word) (p : SendPos) (s : State) {ks1 ks2 : List Nat}
    (hready : s.params.readyTicks ∈ ks2) : s.armsWithin (sendStep idx arg p s).2 ks1 ks2 := by
  obtain ⟨k, n, r, e, heq, hk, -⟩ := sendStep_frame idx arg p s
  rw [heq]
  exact ⟨.inl rfl, hk.imp_right fun h => ⟨_, hready, h⟩⟩

/-- A step of the power-on sequence arms no counter (R132). -/
theorem powerStep_armsWithin (p : PowerPos) (s : State) (ks1 ks2 : List Nat) :
    s.armsWithin (powerStep p s).2 ks1 ks2 := by
  obtain ⟨f, g, n, r, e, heq, -⟩ := powerStep_frame p s
  rw [heq]
  exact .of_same rfl rfl ks1 ks2

/-- RDBLK arms T1 at its first step (R181). -/
theorem rdblkStep_armsWithin (len : Nat) (p : RdblkPos) (s : State) :
    s.armsWithin (rdblkStep len p s) [s.params.tokenTicks] [] := by
  cases p with
  | arm => exact ⟨.inr ⟨_, List.mem_singleton_self _, rfl⟩, .inl rfl⟩
  | tokenTest =>
    simp only [rdblkStep, rdblkTokenTest]
    split_ifs <;> exact .of_same rfl rfl _ _
  | payload i => exact .of_same (by simp [rdblkStep]) (by simp [rdblkStep]) _ _
  | token | check1 | check0 | verify | finish => exact .of_same rfl rfl _ _

/-- WRBLK arms T2 in its readiness wait and before its busy drain (R186, R190). -/
theorem wrblkStep_armsWithin (tok : Token) (p : WrblkPos) (s : State) :
    s.armsWithin (wrblkStep tok p s) [] [s.params.readyTicks, s.params.busyTicks] := by
  cases p with
  | wait q =>
    have hwait := waitStep_armsWithin q s (ks1 := []) (List.mem_cons_self (l := [s.params.busyTicks]))
    simp only [wrblkStep]
    generalize waitStep q s = y at hwait ⊢
    rcases y with ⟨_ | _, t⟩ <;> exact hwait
  | armBusy r => exact ⟨.inl rfl, .inr ⟨s.params.busyTicks, by simp, rfl⟩⟩
  | token | payload | filler | tries | response | count | busy | busyTest | finish => exact .of_same rfl rfl _ _

/-- INIT arms T1 in step 2, and T2 in the readiness gate of each command it sends (R220, R223). -/
theorem initStep_armsWithin (p : InitPos) (s : State) :
    s.armsWithin (initStep p s) [s.params.initTicks] [s.params.readyTicks] := by
  cases p with
  | armBudget => exact ⟨.inr ⟨_, List.mem_singleton_self _, rfl⟩, .inl rfl⟩
  | cmd c q =>
    have hsend := sendStep_armsWithin c.index c.argument q s (ks1 := [s.params.initTicks]) (List.mem_singleton_self _)
    simp only [initStep]
    generalize sendStep c.index c.argument q s = y at hsend ⊢
    rcases y with ⟨_ | _, t⟩ <;> exact hsend
  | power q =>
    have hpower := powerStep_armsWithin q s [s.params.initTicks] [s.params.readyTicks]
    simp only [initStep]
    generalize powerStep q s = y at hpower ⊢
    rcases y with ⟨_ | _, t⟩ <;> exact hpower
  | diskTest =>
    simp only [initStep]
    split <;> exact .of_same rfl rfl _ _
  | _ => exact .of_same rfl rfl _ _

/-- Every op keeps each counter or arms it with one of its own budgets. -/
theorem exec_armsWithin {i : Instr} {s t : State} (h : exec i s = .next t) :
    s.armsWithin t (t1Budgets i s.params) (t2Budgets i s.params) := by
  cases i with
  | waitrdy =>
    simp only [exec, execWaitrdy] at h
    split at h
    case h_1 p _ =>
      have hwait := waitStep_armsWithin p s (ks1 := []) (List.mem_singleton_self s.params.readyTicks)
      generalize waitStep p s = y at hwait h
      rcases y with ⟨_ | _, t⟩ <;> cases h <;> exact hwait
    all_goals cases h; exact .of_same rfl rfl _ _
  | cmd idx =>
    simp only [exec, execCmd] at h
    split at h
    case h_1 p _ =>
      have hsend := sendStep_armsWithin idx s.int.argl p s (ks1 := []) (List.mem_singleton_self s.params.readyTicks)
      generalize sendStep idx s.int.argl p s = y at hsend h
      rcases y with ⟨_ | _, t⟩ <;> cases h <;> exact hsend
    all_goals cases h; exact .of_same rfl rfl _ _
  | pwron =>
    simp only [exec, execPwron] at h
    split at h
    case h_1 p _ =>
      have hpower := powerStep_armsWithin p s [] []
      generalize powerStep p s = y at hpower h
      rcases y with ⟨_ | _, t⟩ <;> cases h <;> exact hpower
    all_goals cases h; exact .of_same rfl rfl _ _
  | rdblk len =>
    simp only [exec, execRdblk] at h
    split at h <;> cases h
    · exact rdblkStep_armsWithin len _ s
    · exact .of_same rfl rfl _ _
  | wrblk tok =>
    simp only [exec, execWrblk] at h
    split at h <;> cases h
    · exact wrblkStep_armsWithin tok _ s
    · exact .of_same rfl rfl _ _
  | init =>
    simp only [exec, execInit] at h
    split at h <;> cases h
    · exact initStep_armsWithin _ s
    · exact .of_same rfl rfl _ _
  | pwroff | pwrchk | csel | cdesel | txb | rxb | saddr | media =>
    simp only [exec, execPwroff, execPwrchk, execCsel, execCdesel, execTxb, execRxb, execSaddr, execMedia] at h
    split at h <;> cases h <;> exact .of_same (by simp) (by simp) _ _

/-- The budgets of T1 as R294 lists them. -/
theorem mem_t1Budgets (k : Nat) (i : Instr) (p : Params) :
    k ∈ t1Budgets i p ↔ (i = .init ∧ k = p.initTicks) ∨ ∃ len, i = .rdblk len ∧ k = p.tokenTicks := by
  cases i <;> simp [t1Budgets]

/-- The budgets of T2 as R294 lists them. -/
theorem mem_t2Budgets (k : Nat) (i : Instr) (p : Params) :
    k ∈ t2Budgets i p ↔
      ((i = .waitrdy ∨ (∃ idx, i = .cmd idx) ∨ (∃ tok, i = .wrblk tok) ∨ i = .init) ∧ k = p.readyTicks) ∨
        ∃ tok, i = .wrblk tok ∧ k = p.busyTicks := by
  cases i <;> simp [t2Budgets]

/-- Settles O13: every step of an op stays within the op's budgets, and these are those of R294. -/
theorem onlyNamedOpsArmTheCounters : Obligations.OnlyNamedOpsArmTheCounters := by
  intro i s t hexec
  refine (exec_armsWithin hexec).imp (Or.imp_right ?_) (Or.imp_right ?_)
  · rintro ⟨k, hk, ht⟩
    rcases (mem_t1Budgets k i s.params).mp hk with ⟨hi, rfl⟩ | ⟨len, hi, rfl⟩
    · exact .inl ⟨hi, ht⟩
    · exact .inr ⟨len, hi, ht⟩
  · rintro ⟨k, hk, ht⟩
    rcases (mem_t2Budgets k i s.params).mp hk with ⟨hi, rfl⟩ | ⟨tok, hi, rfl⟩
    · exact .inl ⟨hi, ht⟩
    · exact .inr ⟨tok, hi, ht⟩

/-! ### Acceptance -/

/-- With no op running a write of `w` to OP is acceptance (R280). -/
theorem hostStep_write_op {s : State} (hrst : s.rstN = true) (hbusy : s.stat.busy = false) (w : Word) :
    hostStep s (.write 0 4 w) = acceptOp s w := by
  rw [hostStep_write (r := .op) w hrst rfl]
  exact if_neg (by simp [hbusy])

/-- Acceptance of a legal word latches it and starts its op (R280). -/
theorem acceptOp_of_legal {w : Word} {i : Instr} (h : decode w = .op i) (s : State) :
    acceptOp s w = .next ((s.latch w).begin i) := by
  simp only [acceptOp, h]
  exact exec_begin (State.posOf_idle rfl)

/-- Acceptance of an illegal word is also its `finish` (R285). -/
theorem acceptOp_of_illegal {w : Word} {e : Illegal} (h : decode w = .illegal e) (s : State) :
    acceptOp s w = .next ((s.latch w).finish .illegal none) := by
  simp only [acceptOp, h]

/-- An engine step of a running op is the op's (10_state.md R37). -/
theorem engineStep_of_standsAt {s : State} {i : Instr} {p : Pos} (h : s.standsAt i p) : engineStep s = exec i s := by
  simp only [engineStep, h]

/-- Settles O7: the write is acceptance, which latches and starts a legal op and finishes an illegal word. -/
theorem acceptanceLatchesTheOp : Obligations.AcceptanceLatchesTheOp := by
  intro s w hrst hbusy
  rw [hostStep_write_op hrst hbusy]
  exact ⟨fun i hdec => ⟨acceptOp_of_legal hdec s, fun t ht => engineStep_of_standsAt ht⟩,
    fun e hdec => ⟨_, acceptOp_of_illegal hdec s, rfl, rfl⟩⟩

/-- The low byte of STAT holds BUSY, DONE, FAIL, OVR and CAUSE, and nothing else (10_state.md R24). -/
theorem Stat.word_lowByte (t : Stat) :
    t.word &&& 0xFF =
      flagBit t.busy 0 ||| flagBit t.done 1 ||| flagBit t.fail 2 ||| flagBit t.ovr 3 ||| (t.cause.code.setWidth 32 <<< 4) := by
  apply BitVec.eq_of_getLsbD_eq
  intro j hj
  simp only [BitVec.getLsbD_and, Stat.word_getLsbD, BitVec.getLsbD_or, flagBit_getLsbD, codeBits_getLsbD, Nat.reduceLT]
  interval_cases j <;> simp [BitVec.getLsbD_of_ge]

/-- Settles O8: `latch` and then `finish` write these fields only, and the codes of the completion fields make 0x66. -/
theorem illegalOpFinishesAtOnce : Obligations.IllegalOpFinishesAtOnce := by
  intro s w e hrst hbusy hdec
  refine ⟨_, (hostStep_write_op hrst hbusy w).trans (acceptOp_of_illegal hdec s), rfl, ?_⟩
  refine (Stat.word_lowByte _).trans ?_
  simp only [State.finish_stat_busy, State.finish_stat_done, State.finish_stat_fail, State.finish_stat_ovr,
    State.latch_stat_ovr, State.finish_stat_cause]
  decide

/-! ### Discarded writes and OVR -/

/-- During an op a write to OP, ARG, CFG or DATA sets OVR and stores nothing (R283). -/
theorem hostWrite_discarded {s : State} (hbusy : s.stat.busy = true) {r : HostReg}
    (hr : r = .op ∨ r = .arg ∨ r = .cfg ∨ r.isData = true) (v : Word) : hostWrite s r v = .next s.discard := by
  cases r with
  | op => exact if_pos hbusy
  | arg | cfg | data i => exact congrArg Host.Outcome.next (if_pos hbusy)
  | stat | rdata | t1 | t2 | reserved => simp [HostReg.isData] at hr

/-- An engine step leaves OVR, whether an op runs or not. -/
theorem engineStep_ovr {s t : State} (h : engineStep s = .next t) : t.stat.ovr = s.stat.ovr := by
  unfold engineStep at h
  split at h
  · cases h; rfl
  · next i p hrun =>
    obtain ⟨-, -, -, -, -, -, hovr, -⟩ := noOpChangesTheHostsRegisters i s t h
    exact hovr

/-- Acceptance clears OVR, of a legal word and of an illegal one (R280; log 25). -/
theorem acceptOp_ovr {s t : State} {w : Word} (h : acceptOp s w = .next t) : t.stat.ovr = false := by
  rcases acceptOp_cases h with ⟨i, -, rfl⟩ | rfl <;> rfl

/-- Settles O49: the write of each register, the read, and OVR over engine steps, ticks, acceptance and reset. -/
theorem writesDuringAnOpAreDiscarded : Obligations.WritesDuringAnOpAreDiscarded := by
  refine ⟨fun s v hrst hbusy => ⟨fun off hoff => ?_, fun i hi => ?_⟩, fun s v hrst off ha hhi h0 h4 h18 => ?_,
    fun s off n r hrst hloc => ⟨_, hostStep_read hrst hloc, rfl, rfl⟩, fun s t h => ?_, fun s t w hrst hbusy h => ?_,
    fun s t h => ?_⟩
  · rcases hoff with rfl | rfl | rfl
    · exact (hostStep_write (r := .op) v hrst rfl).trans (hostWrite_discarded hbusy (.inl rfl) v)
    · exact (hostStep_write (r := .arg) v hrst rfl).trans (hostWrite_discarded hbusy (.inr (.inl rfl)) v)
    · exact (hostStep_write (r := .cfg) v hrst rfl).trans (hostWrite_discarded hbusy (.inr (.inr (.inl rfl))) v)
  · exact (hostStep_write v hrst (locate_data hi)).trans (hostWrite_discarded hbusy (.inr (.inr (.inr rfl))) v)
  · exact (hostStep_write v hrst (locate_word ha hhi)).trans (hostWrite_ignored h0 h4 h18 s v)
  · rcases h with hstep | htick
    · exact engineStep_ovr hstep
    · cases htick; rfl
  · rw [hostStep_write_op hrst hbusy] at h
    exact acceptOp_ovr h
  · cases h; rfl

/-! ### Ticks -/

/-- A tick in cases: a nonzero counter goes down by 1 and a counter at 0 stays (R286). -/
theorem State.tick_eq_ite (s : State) :
    s.tick = { s with t1 := if s.t1 ≠ 0 then s.t1 - 1 else 0, t2 := if s.t2 ≠ 0 then s.t2 - 1 else 0 } := by
  have hsat (k : Nat) : k - 1 = if k ≠ 0 then k - 1 else 0 := by split <;> omega
  simp only [State.tick, ← hsat]

/-- Settles O51: a tick is an event of its own, it saturates, and an arm overwrites what it left. -/
theorem ticksCountDownAndSaturate : Obligations.TicksCountDownAndSaturate :=
  ⟨fun _ _ hs => step_of_script hs, fun s => ⟨congrArg Host.Outcome.next s.tick_eq_ite, fun _ => ⟨rfl, rfl⟩⟩⟩

end Sys2Proof.Machine

/-! PROOFS. The reset event, and a readiness wait with no tick (70_reset_and_hazards.md R310, R312, R320). -/

namespace Sys2Proof.Machine

/-- While rst_n is low no access has an outcome (R310). -/
theorem hostStep_in_reset {s : State} (h : s.rstN = false) (a : HostAccess) : hostStep s a = .fault .hostAccessInReset := by
  simp [hostStep, h]

/-- Settles O53: the reset event's state lists its reset values, with rst_n low and one reset more. -/
theorem resetBeatsARunningOp : Obligations.ResetBeatsARunningOp :=
  ⟨fun _ => ⟨_, rfl, rfl, rfl, rfl, rfl, rfl, rfl, rfl, rfl, rfl, rfl, rfl, rfl, rfl, rfl, fun _ => rfl,
    hostStep_in_reset rfl⟩, fun _ a h => hostStep_in_reset h a⟩

/-- The readiness wait from its read, T2 not 0: bytes that are not 0xFF take it back to the read, two steps for each (R130). -/
theorem waitRead_goes_on {i : Instr} {a : Word} {emb : WaitPos → Pos} (hin : WaitIn i a emb) {bs : List Byte} {s : State}
    (ha : s.int.argl = a) (hs : s.standsAt i (emb .read)) (ht : s.t2 ≠ 0) (hb : ∀ b ∈ bs, b ≠ 0xFF) (hc : s.env.sends bs)
    {k : Nat} (hk : k ≤ 2 * bs.length) : ∃ t p, execN i k s = .next t ∧ t.standsAt i (emb p) := by
  induction bs generalizing s k with
  | nil =>
    obtain rfl : k = 0 := by simpa using hk
    exact ⟨s, .read, rfl, hs⟩
  | cons b bs ih =>
    obtain ⟨hbyte, hrest⟩ := hc
    let u : State := s.rx.goto i (emb .test)
    have hread : exec i s = .next u := hin s s.rx .read .test ha hs rfl
    have hne : u.int.r ≠ 0xFF := fun h => hb b List.mem_cons_self (hbyte.symm.trans h)
    have htest : exec i u = .next (u.goto i (emb .read)) :=
      hin u u .test .read ha rfl (if_neg (not_or.mpr ⟨hne, ht⟩))
    match k, hk with
    | 0, _ => exact ⟨s, .read, rfl, hs⟩
    | 1, _ => exact ⟨u, .test, execN_succ hread 0, rfl⟩
    | k + 2, hk =>
      rw [execN_succ hread, execN_succ htest]
      exact ih (s := u.goto i (emb .read)) ha rfl ht (fun x hx => hb x (List.mem_cons_of_mem b hx))
        ((Env.sends_setBus ..).mpr hrest) (by simp only [List.length_cons] at hk; omega)

/-- Settles O26: after the arm, the wait goes on as long as the bytes last. -/
theorem waitrdyGoesOnWithoutTicks : Obligations.WaitrdyGoesOnWithoutTicks := by
  intro s bs hs hticks hbytes hsends k hk
  have hin := waitIn_waitrdy s.int.argl
  match k, hk with
  | 0, _ => exact ⟨s, .arm, rfl, hs⟩
  | k + 1, hk =>
    rw [execN_succ (hin s _ .arm .read rfl hs rfl)]
    exact waitRead_goes_on (s := (s.armT2 s.params.readyTicks).goto .waitrdy (.waitrdy (.wait .read))) hin rfl rfl hticks
      hbytes hsends (Nat.le_of_succ_le hk)

end Sys2Proof.Machine

/-! PROOFS. How far an op is from its end: every engine step comes nearer to it, or goes round a poll whose tick counter is not
0 (10_state.md R37, 70_reset_and_hazards.md R320). -/

namespace Sys2Proof.Machine

/-! ### The engine steps left in the shared sequences -/

/-- 1 before the readiness wait's arm of T2, and 0 after it. -/
def WaitPos.stage : WaitPos → Nat
  | .arm => 1
  | .read | .test => 0

/-- The engine steps left in the readiness wait after the one at hand, if T2 is 0 (R130). -/
def WaitPos.rest : WaitPos → Nat
  | .arm => 2
  | .read => 1
  | .test => 0

/-- 1 before the arm of T2 in the readiness gate of `sendCmd`, and 0 after it. -/
def SendPos.stage : SendPos → Nat
  | .wait q => q.stage
  | .frame _ | .stuff | .tries | .poll | .count => 0

/-- A bound on the engine steps left in `sendCmd` after the one at hand, if T2 is 0: `tries` are R1_TRIES and `n` those left
(R139, R142). -/
def SendPos.rest (tries n : Nat) : SendPos → Nat
  | .wait q => 2 * tries + 10 + q.rest
  | .frame k => 2 * tries + 4 + (5 - k)
  | .stuff => 2 * tries + 3
  | .tries => 2 * tries + 2
  | .poll => 2 * n + 1
  | .count => 2 * n

/-- A bound on the engine steps left in the power-on sequence after the one at hand, `n` reads of the poll being left (R132). -/
def PowerPos.rest (P : Params) (n : Nat) : PowerPos → Nat
  | .deselect => 2 * P.pollReads + 13 + P.idleBytes
  | .idle k => 2 * P.pollReads + 12 + (P.idleBytes - k)
  | .select => 2 * P.pollReads + 11
  | .frame k => 2 * P.pollReads + 5 + (5 - k)
  | .tries => 2 * P.pollReads + 4
  | .poll => 2 * n + 3
  | .count => 2 * n + 2
  | .release => 1
  | .setPower => 0

/-! ### The engine steps left in an op -/

/-- 2 before WRBLK's readiness wait arms T2, 1 until its busy drain arms it again, and 0 from there on (R186). -/
def WrblkPos.stage : WrblkPos → Nat
  | .wait q => 1 + q.stage
  | .token | .payload _ | .filler _ | .tries | .response | .count | .armBusy _ => 1
  | .busy _ | .busyTest _ | .finish _ _ => 0

/-- A bound on the engine steps left in the stage of WRBLK at hand, if T2 is 0. -/
def WrblkPos.rest (tries n : Nat) : WrblkPos → Nat
  | .wait q => 2 * tries + 520 + q.rest
  | .token => 2 * tries + 519
  | .payload i => 2 * tries + 6 + (512 - i)
  | .filler k => 2 * tries + 4 + (1 - k)
  | .tries => 2 * tries + 3
  | .response => 2 * n + 2
  | .count => 2 * n + 1
  | .armBusy _ => 0
  | .busy _ => 2
  | .busyTest _ => 1
  | .finish _ _ => 0

/-- A bound on the engine steps left in RDBLK, if T1 is 0 (R181). -/
def RdblkPos.rest (len : Nat) : RdblkPos → Nat
  | .arm => len + 7
  | .token => len + 6
  | .tokenTest => len + 5
  | .payload i => 4 + (len - i)
  | .check1 => 3
  | .check0 _ => 2
  | .verify _ _ | .finish _ _ => 0

/-- The place of a command of INIT in the order in which INIT leaves its stages behind while T1 is 0 (R220). -/
def InitCmd.stage : InitCmd → Nat
  | .goIdle => 30
  | .ifCond => 27
  | .probePrefix => 21
  | .probeInit => 19
  | .v2Prefix | .sdPrefix => 16
  | .v2Init | .sdInit | .mmcInit => 14
  | .readOcr | .blockLen _ => 11

/-- The place of a position of INIT in that order. A command has two stages, before and after its gate arms T2. -/
def InitPos.stage : InitPos → Nat
  | .diskTest => 35
  | .power _ => 34
  | .select => 33
  | .clearType => 32
  | .armBudget => 29
  | .cmd c q => c.stage + q.stage
  | .echo k => 23 + (3 - k)
  | .clearOk _ => 18
  | .setOk _ | .loopTest _ => 13
  | .ocr k => 7 + (3 - k)
  | .ocrType | .legacyType _ => 6
  | .setCtype => 5
  | .deselect => 4
  | .trailing => 3
  | .powerOff => 2
  | .setNoinit | .clearNoinit => 1
  | .finish _ => 0

/-- A bound on the engine steps left in the stage of INIT at hand, if T2 is 0. -/
def InitPos.rest (P : Params) (n : Nat) : InitPos → Nat
  | .power q => q.rest P n
  | .cmd _ q => q.rest P.r1Tries n
  | _ => 0

/-- 1 up to the op's arm of T1, and 0 after it and in an op that arms no T1 (60_exceptions.md R294). -/
def Pos.epoch : Pos → Nat
  | .rdblk .arm => 1
  | .init p => if InitPos.armBudget.stage ≤ p.stage then 1 else 0
  | _ => 0

/-- What only falls within an epoch while T1 is 0. No stage arms T2 but by leaving it. -/
def Pos.stage : Pos → Nat
  | .waitrdy (.wait q) => q.stage
  | .cmd (.send q) => q.stage
  | .wrblk p => p.stage
  | .init p => p.stage
  | _ => 0

/-- The LEN of an op that has one. -/
def lenOf : Instr → Nat
  | .rxb len | .rdblk len => len
  | _ => 0

/-- What falls with every engine step within a stage while T1 and T2 are 0: a bound on the engine steps left in it after the
one at hand. -/
def Pos.rest (len : Nat) (P : Params) (n : Nat) : Pos → Nat
  | .pwron (.seq q) => 1 + q.rest P n
  | .pwroff .clear | .csel .drive | .cdesel .drive | .txb .exchange | .media .setWprot => 1
  | .media .setNodisk => 2
  | .rxb (.read k) => 1 + (len - k)
  | .waitrdy (.wait q) => 1 + q.rest
  | .cmd (.send q) => 1 + q.rest P.r1Tries n
  | .rdblk p => p.rest len
  | .wrblk p => p.rest P.respTries n
  | .init p => p.rest P n
  | _ => 0

/-- The epoch of the position the engine stands at. -/
def State.epoch (s : State) : Nat :=
  match s.int.phase with
  | .idle => 0
  | .run _ p => p.epoch

/-- The stage of the position the engine stands at. -/
def State.stage (s : State) : Nat :=
  match s.int.phase with
  | .idle => 0
  | .run _ p => p.stage

/-- The bound on the engine steps left in the stage at hand. -/
def State.rest (s : State) : Nat :=
  match s.int.phase with
  | .idle => 0
  | .run i p => p.rest (lenOf i) s.params s.int.n

theorem State.epoch_of_standsAt {s : State} {i : Instr} {p : Pos} (h : s.standsAt i p) : s.epoch = p.epoch := by
  simp only [State.epoch, h]

theorem State.stage_of_standsAt {s : State} {i : Instr} {p : Pos} (h : s.standsAt i p) : s.stage = p.stage := by
  simp only [State.stage, h]

theorem State.rest_of_standsAt {s : State} {i : Instr} {p : Pos} (h : s.standsAt i p) :
    s.rest = p.rest (lenOf i) s.params s.int.n := by
  simp only [State.rest, h]

/-! ### Coming nearer to the end -/

/-- From `s` to `t` the pair (stage, rest) goes from `x` down to `y`; where the stage stays, T2 is kept, and then the rest need
not go down if T2 is not 0. -/
def FallsTo (s t : State) (x y : Nat × Nat) : Prop :=
  y.1 < x.1 ∨ (y.1 = x.1 ∧ t.t2 = s.t2 ∧ (s.t2 ≠ 0 ∨ y.2 < x.2))

/-- The same pairs counted from elsewhere. -/
theorem FallsTo.shift {s t : State} {a b a' b' : Nat} (h : FallsTo s t (a, b) (a', b')) (c d : Nat) :
    FallsTo s t (c + a, d + b) (c + a', d + b') := by
  simp only [FallsTo] at h ⊢
  omega

/-- The stage does not rise. -/
theorem FallsTo.stage_le {s t : State} {x y : Nat × Nat} (h : FallsTo s t x y) : y.1 ≤ x.1 := by
  simp only [FallsTo] at h
  omega

/-- A step of event `e` from `s` to `t` does not lead away from the op's end: the epoch does not rise; within an epoch T1 does
not, and once it is 0 the stage does not; within such a stage T2 does not, and once it is 0 the rest does not, and falls if the
step is the engine's. -/
def Descends (e : Event) (s t : State) : Prop :=
  t.epoch ≤ s.epoch ∧ (t.epoch = s.epoch → t.t1 ≤ s.t1 ∧ (s.t1 = 0 → t.stage ≤ s.stage ∧ (t.stage = s.stage →
    t.t2 ≤ s.t2 ∧ (s.t2 = 0 → t.rest ≤ s.rest ∧ (e = .engine → t.rest < s.rest)))))

/-- A step that leaves an epoch. -/
theorem Descends.of_epoch_lt {e : Event} {s t : State} (h : t.epoch < s.epoch) : Descends e s t :=
  ⟨h.le, fun heq => absurd heq h.ne⟩

/-- A step round a poll that T1 bounds. -/
theorem Descends.of_t1 {e : Event} {s t : State} (he : t.epoch = s.epoch) (ht : t.t1 = s.t1) (h : s.t1 ≠ 0) :
    Descends e s t :=
  ⟨he.le, fun _ => ⟨ht.le, fun h0 => absurd h0 h⟩⟩

/-- An engine step that writes `u` and goes on to `q`, by what its stage and rest do. -/
theorem Descends.of_fallsTo {s u : State} {i : Instr} {p q : Pos} (hs : s.standsAt i p) (he : q.epoch ≤ p.epoch)
    (h1 : u.t1 = s.t1)
    (h : FallsTo s u (p.stage, p.rest (lenOf i) s.params s.int.n) (q.stage, q.rest (lenOf i) u.params u.int.n)) (e : Event) :
    Descends e s (u.goto i q) := by
  rw [← State.stage_of_standsAt hs, ← State.rest_of_standsAt hs] at h
  rw [← State.epoch_of_standsAt hs] at he
  simp only [FallsTo] at h
  refine ⟨he, fun _ => ⟨h1.le, fun _ => ?_⟩⟩
  show q.stage ≤ s.stage ∧ (q.stage = s.stage → u.t2 ≤ s.t2 ∧ (s.t2 = 0 → q.rest (lenOf i) u.params u.int.n ≤ s.rest ∧
    (e = .engine → q.rest (lenOf i) u.params u.int.n < s.rest)))
  omega

/-! ### The shared sequences -/

/-- The readiness wait comes nearer to its end, or goes back to its read with T2 not 0 (R130). -/
theorem waitStep_fallsTo {p q : WaitPos} {s t : State} (h : waitStep p s = (.more q, t)) :
    FallsTo s t (p.stage, p.rest) (q.stage, q.rest) := by
  rcases waitStep_cases p s with ⟨rfl, hstep⟩ | ⟨rfl, hstep⟩ | ⟨rfl, -, ht, hstep⟩ | ⟨rfl, -, hstep⟩ <;>
    cases h.symm.trans hstep
  · exact .inl Nat.zero_lt_one
  · exact .inr ⟨rfl, rfl, .inr Nat.zero_lt_one⟩
  · exact .inr ⟨rfl, rfl, .inl ht⟩

/-- The readiness wait ends at its test, which changes nothing (R130). -/
theorem waitStep_done {p : WaitPos} {w : Byte} {s t : State} (h : waitStep p s = (.done w, t)) : p = .test ∧ t = s := by
  rcases waitStep_cases p s with ⟨-, hstep⟩ | ⟨-, hstep⟩ | ⟨-, -, -, hstep⟩ | ⟨hp, -, hstep⟩ <;> cases h.symm.trans hstep
  exact ⟨hp, rfl⟩

/-- The readiness wait leaves T1, int.N and the parameters. -/
theorem waitStep_keeps {p : WaitPos} {y : Progress WaitPos Byte} {s t : State} (h : waitStep p s = (y, t)) :
    t.t1 = s.t1 ∧ t.int.n = s.int.n ∧ t.params = s.params := by
  obtain ⟨k, r, e, heq, -, -⟩ := waitStep_frame p s
  rw [h] at heq
  subst heq
  exact ⟨rfl, rfl, rfl⟩

/-- `sendCmd` leaves T1 and the parameters. -/
theorem sendStep_keeps {idx : BitVec 6} {arg : Word} {p : SendPos} {y : Progress SendPos (Byte × Cause)} {s t : State}
    (h : sendStep idx arg p s = (y, t)) : t.t1 = s.t1 ∧ t.params = s.params := by
  obtain ⟨k, n, r, e, heq, -, -⟩ := sendStep_frame idx arg p s
  rw [h] at heq
  subst heq
  exact ⟨rfl, rfl⟩

/-- `sendCmd` comes nearer to its end, or its gate goes back to its read with T2 not 0 (R139). -/
theorem sendStep_fallsTo {idx : BitVec 6} {arg : Word} {p q : SendPos} {s t : State}
    (h : sendStep idx arg p s = (.more q, t)) :
    FallsTo s t (p.stage, p.rest s.params.r1Tries s.int.n) (q.stage, q.rest t.params.r1Tries t.int.n) := by
  rcases sendStep_cases idx arg p s with ⟨w, w', u, rfl, hw, hstep⟩ | ⟨w, u, rfl, hw, hstep⟩ | ⟨w, b, u, rfl, -, -, hstep⟩ |
    ⟨k, rfl, hstep⟩ | ⟨rfl, hstep⟩ | ⟨rfl, hstep⟩ | ⟨rfl, hstep⟩ | ⟨rfl, -, hstep⟩ | ⟨rfl, -, -, hstep⟩ |
    ⟨rfl, -, hn, hstep⟩ <;> cases h.symm.trans hstep
  · obtain ⟨-, -, hparams⟩ := waitStep_keeps hw
    have hfall := (waitStep_fallsTo hw).shift 0 (2 * s.params.r1Tries + 10)
    simpa only [SendPos.stage, SendPos.rest, hparams, Nat.zero_add] using hfall
  · obtain ⟨rfl, rfl⟩ := waitStep_done hw
    exact .inr ⟨rfl, rfl, .inr (by simp [SendPos.rest, WaitPos.rest])⟩
  · refine .inr ⟨?_, rfl, .inr ?_⟩ <;> unfold afterFrame <;> split_ifs <;> simp [SendPos.stage, SendPos.rest] <;> omega
  · exact .inr ⟨rfl, rfl, .inr (Nat.lt_succ_self _)⟩
  · exact .inr ⟨rfl, rfl, .inr (Nat.lt_succ_self _)⟩
  · exact .inr ⟨rfl, rfl, .inr (Nat.lt_succ_self _)⟩
  · exact .inr ⟨rfl, rfl, .inr (by simp only [SendPos.rest, State.setN_int_n]; omega)⟩

/-- The power-on sequence comes nearer to its end (R132). -/
theorem powerStep_rest {p q : PowerPos} {s t : State} (h : powerStep p s = (.more q, t)) :
    q.rest t.params t.int.n < p.rest s.params s.int.n := by
  cases p <;> cases h
  case deselect | idle => unfold afterIdle; split <;> simp [PowerPos.rest] <;> omega
  case frame => split_ifs <;> simp [PowerPos.rest] <;> omega
  case count => unfold afterPowerCount; split <;> simp [PowerPos.rest] ; omega
  all_goals simp [PowerPos.rest]

/-- `sendCmd` ends past its gate's arm of T2, which it leaves as it is then (R139). -/
theorem sendStep_done {idx : BitVec 6} {arg : Word} {p : SendPos} {r : Byte × Cause} {s t : State}
    (h : sendStep idx arg p s = (.done r, t)) : p.stage = 0 ∧ t.t2 = s.t2 := by
  rcases sendStep_cases idx arg p s with ⟨w, w', u, rfl, -, hstep⟩ | ⟨w, u, rfl, -, hstep⟩ | ⟨w, b, u, rfl, hw, -, hstep⟩ |
    ⟨k, rfl, hstep⟩ | ⟨rfl, hstep⟩ | ⟨rfl, hstep⟩ | ⟨rfl, hstep⟩ | ⟨rfl, -, hstep⟩ | ⟨rfl, -, -, hstep⟩ |
    ⟨rfl, -, hn, hstep⟩ <;> cases h.symm.trans hstep
  · obtain ⟨rfl, rfl⟩ := waitStep_done hw
    exact ⟨rfl, rfl⟩
  · exact ⟨rfl, rfl⟩
  · exact ⟨rfl, rfl⟩

/-! ### The counted ops -/

/-- The ops whose every loop runs over a count (70_reset_and_hazards.md R320, first part). -/
def counted : Instr → Bool
  | .pwron | .pwroff | .pwrchk | .csel | .cdesel | .txb | .rxb _ | .saddr | .media => true
  | .waitrdy | .cmd _ | .rdblk _ | .wrblk _ | .init => false

/-- The step of op `i` at `s` ends the op, or goes on in it with less left, whatever the card sends and the counters hold. -/
def CountsDown (i : Instr) (p : Pos) (s : State) : Prop :=
  ∃ t, exec i s = .next t ∧ ((t.stat.busy = false ∧ t.stat.done = true) ∨
    ∃ q, posFits i q = true ∧ t.standsAt i q ∧ t.params = s.params ∧
      q.rest (lenOf i) t.params t.int.n < p.rest (lenOf i) s.params s.int.n)

/-- PWRON counts down its power-on sequence and then finishes (R131, R132). -/
theorem pwron_countsDown {s : State} {p : PwronPos} (h : s.standsAt .pwron (.pwron p)) :
    CountsDown .pwron (.pwron p) s := by
  have hpos := State.posOf_eq h
  cases p with
  | seq p =>
    have hparams : (powerStep p s).2.params = s.params := by
      obtain ⟨f, g, n, r, e, heq, -⟩ := powerStep_frame p s
      rw [heq]
    rcases hstep : powerStep p s with ⟨q | r, t⟩ <;> rw [hstep] at hparams <;>
      simp only [CountsDown, exec, execPwron, hpos, hstep]
    · exact ⟨_, rfl, .inr ⟨_, rfl, rfl, hparams, Nat.add_lt_add_left (powerStep_rest hstep) 1⟩⟩
    · exact ⟨_, rfl, .inr ⟨_, rfl, rfl, hparams, Nat.lt_of_lt_of_le Nat.zero_lt_one (Nat.le_add_right 1 _)⟩⟩
  | finish =>
    simp only [CountsDown, exec, execPwron, hpos]
    exact ⟨_, rfl, .inl ⟨rfl, rfl⟩⟩

/-- Every step of a counted op counts down. -/
theorem counted_countsDown {i : Instr} {p : Pos} {s : State} (hi : counted i = true) (h : s.standsAt i p)
    (hfit : posFits i p = true) : CountsDown i p s := by
  have hpos := State.posOf_eq h
  cases i <;> cases p <;> cases hfit
  case waitrdy.waitrdy | cmd.cmd | rdblk.rdblk | wrblk.wrblk | init.init => cases hi
  case pwron.pwron p => exact pwron_countsDown h
  case pwroff.pwroff p =>
    cases p <;> simp only [CountsDown, exec, execPwroff, hpos]
    · exact ⟨_, rfl, .inr ⟨_, rfl, rfl, rfl, Nat.zero_lt_one⟩⟩
    · exact ⟨_, rfl, .inl ⟨rfl, rfl⟩⟩
  case csel.csel p =>
    cases p <;> simp only [CountsDown, exec, execCsel, hpos]
    · exact ⟨_, rfl, .inr ⟨_, rfl, rfl, rfl, Nat.zero_lt_one⟩⟩
    · exact ⟨_, rfl, .inl ⟨rfl, rfl⟩⟩
  case cdesel.cdesel p =>
    cases p <;> simp only [CountsDown, exec, execCdesel, hpos]
    · exact ⟨_, rfl, .inr ⟨_, rfl, rfl, rfl, Nat.zero_lt_one⟩⟩
    · exact ⟨_, rfl, .inl ⟨rfl, rfl⟩⟩
  case txb.txb p =>
    cases p <;> simp only [CountsDown, exec, execTxb, hpos]
    · exact ⟨_, rfl, .inr ⟨_, rfl, rfl, rfl, Nat.zero_lt_one⟩⟩
    · exact ⟨_, rfl, .inl ⟨rfl, rfl⟩⟩
  case rxb.rxb len p =>
    cases p <;> simp only [CountsDown, exec, execRxb, hpos]
    · refine ⟨_, rfl, .inr ⟨_, rfl, rfl, by simp, ?_⟩⟩
      split <;> simp only [Pos.rest, lenOf] <;> omega
    · exact ⟨_, rfl, .inl ⟨rfl, rfl⟩⟩
  case media.media p =>
    cases p <;> simp only [CountsDown, exec, execMedia, hpos]
    · exact ⟨_, rfl, .inr ⟨_, rfl, rfl, rfl, Nat.one_lt_two⟩⟩
    · exact ⟨_, rfl, .inr ⟨_, rfl, rfl, rfl, Nat.zero_lt_one⟩⟩
    · exact ⟨_, rfl, .inl ⟨rfl, rfl⟩⟩
  case pwrchk.pwrchk | saddr.saddr =>
    simp only [CountsDown, exec, execPwrchk, execSaddr, hpos]
    exact ⟨_, rfl, .inl ⟨rfl, rfl⟩⟩

/-- A counted op ends within its bound and one step more. -/
theorem counted_ends {i : Instr} (hi : counted i = true) {p : Pos} {s : State} (h : s.standsAt i p)
    (hfit : posFits i p = true) {bound : Nat} (hrest : p.rest (lenOf i) s.params s.int.n < bound) :
    ∃ k t, k ≤ bound ∧ execN i k s = .next t ∧ t.stat.busy = false ∧ t.stat.done = true := by
  induction bound generalizing s p with
  | zero => exact absurd hrest (Nat.not_lt_zero _)
  | succ bound ih =>
    obtain ⟨u, hexec, hend | ⟨q, hq, hu, -, hlt⟩⟩ := counted_countsDown hi h hfit
    · exact ⟨1, u, Nat.le_add_left 1 bound, execN_succ hexec 0, hend⟩
    · obtain ⟨k, t, hk, hrun, hend⟩ := ih hu hq (Nat.lt_of_lt_of_le hlt (Nat.le_of_lt_succ hrest))
      exact ⟨k + 1, t, Nat.succ_le_succ hk, (execN_succ hexec k).trans hrun, hend⟩

/-- Where an op starts, the bound does not depend on what int.N holds from before. -/
theorem rest_startPos (i : Instr) (len : Nat) (P : Params) (n : Nat) :
    (startPos i).rest len P n = (startPos i).rest len P 0 := by
  cases i <;> rfl

/-- Settles O59: the ops listed are counted, and the bound at their start depends on the parameters and the op only. -/
theorem countedOpsAlwaysEnd : Obligations.CountedOpsAlwaysEnd := by
  intro i hmem P
  have hi : counted i = true := by
    simp only [List.mem_append, List.mem_map] at hmem
    rcases hmem with hlisted | ⟨len, -, rfl⟩
    · revert i; decide
    · rfl
  refine ⟨(startPos i).rest (lenOf i) P 0 + 1, fun s hparams hs => counted_ends hi hs (by cases i <;> rfl) ?_⟩
  rw [hparams, rest_startPos]
  exact Nat.lt_succ_self _

end Sys2Proof.Machine

/-! PROOFS. Under tick fairness every op ends (70_reset_and_hazards.md R320, 42_card_type_detector.md R233). -/

namespace Sys2Proof.Machine

/-! ### Each op's engine step -/

/-- The engine step from `s` to `t` ends the op or descends. -/
def EndsOrDescends (s t : State) : Prop := t.stat.busy = false ∨ Descends .engine s t

/-- A counted op has one epoch and one stage. -/
theorem counted_position {i : Instr} {p : Pos} (hi : counted i = true) (hfit : posFits i p = true) :
    p.epoch = 0 ∧ p.stage = 0 := by
  cases i <;> cases p <;> cases hfit
  case waitrdy.waitrdy | cmd.cmd | rdblk.rdblk | wrblk.wrblk | init.init => cases hi
  all_goals exact ⟨rfl, rfl⟩

/-- A counted op has no budget (60_exceptions.md R294). -/
theorem counted_budgets {i : Instr} (hi : counted i = true) (P : Params) : t1Budgets i P = [] ∧ t2Budgets i P = [] := by
  cases i with
  | waitrdy | cmd | rdblk | wrblk | init => cases hi
  | _ => exact ⟨rfl, rfl⟩

/-- A counted op arms no counter, so counting down is descending. -/
theorem counted_descends {i : Instr} {p : Pos} {s t : State} (hi : counted i = true) (h : s.standsAt i p)
    (hfit : posFits i p = true) (hexec : exec i s = .next t) : EndsOrDescends s t := by
  obtain ⟨h1, h2⟩ : t.t1 = s.t1 ∧ t.t2 = s.t2 := by
    simpa [State.armsWithin, counted_budgets hi] using exec_armsWithin hexec
  obtain ⟨u, hu, hend | ⟨q, hq, ht, -, hrest⟩⟩ := counted_countsDown hi h hfit <;> cases hexec.symm.trans hu
  · exact .inl hend.1
  · obtain ⟨hpe, hps⟩ := counted_position hi hfit
    obtain ⟨hqe, hqs⟩ := counted_position hi hq
    rw [← State.goto_self ht]
    exact .inr (.of_fallsTo h (by simp [hpe, hqe]) h1 (.inr ⟨hqs.trans hps.symm, h2, .inr hrest⟩) _)

/-- WAITRDY's steps (R136). -/
theorem waitrdy_descends {s t : State} {p : WaitrdyPos} (h : s.standsAt .waitrdy (.waitrdy p))
    (hexec : exec .waitrdy s = .next t) : EndsOrDescends s t := by
  have hpos := State.posOf_eq h
  cases p with
  | wait p =>
    rcases hstep : waitStep p s with ⟨q | w, u⟩ <;> simp only [exec, execWaitrdy, hpos, hstep] at hexec <;> cases hexec
    · obtain ⟨h1, -, -⟩ := waitStep_keeps hstep
      have hfall := (waitStep_fallsTo hstep).shift 0 1
      rw [Nat.zero_add, Nat.zero_add] at hfall
      exact .inr (.of_fallsTo (q := .waitrdy (.wait q)) h le_rfl h1 hfall _)
    · obtain ⟨rfl, rfl⟩ := waitStep_done hstep
      exact .inr (.of_fallsTo (q := .waitrdy .finish) h le_rfl rfl (.inr ⟨rfl, rfl, .inr Nat.zero_lt_one⟩) _)
  | finish =>
    simp only [exec, execWaitrdy, hpos] at hexec
    cases hexec
    exact .inl rfl

/-- CMD's steps (R140). -/
theorem cmd_descends {idx : BitVec 6} {s t : State} {p : CmdPos} (h : s.standsAt (.cmd idx) (.cmd p))
    (hexec : exec (.cmd idx) s = .next t) : EndsOrDescends s t := by
  have hpos := State.posOf_eq h
  cases p with
  | send p =>
    rcases hstep : sendStep idx s.int.argl p s with ⟨q | ⟨r, c⟩, u⟩ <;>
      simp only [exec, execCmd, hpos, hstep] at hexec <;> cases hexec
    · have hfall := (sendStep_fallsTo hstep).shift 0 1
      rw [Nat.zero_add, Nat.zero_add] at hfall
      exact .inr (.of_fallsTo (q := .cmd (.send q)) h le_rfl (sendStep_keeps hstep).1 hfall _)
    · obtain ⟨hstage, h2⟩ := sendStep_done hstep
      refine .inr (.of_fallsTo (q := .cmd (.finish r c)) h le_rfl (sendStep_keeps hstep).1 (.inr ⟨hstage.symm, h2, .inr ?_⟩) _)
      exact Nat.lt_of_lt_of_le Nat.zero_lt_one (Nat.le_add_right 1 _)
  | finish r c =>
    simp only [exec, execCmd, hpos] at hexec
    cases hexec
    exact .inl rfl

/-- RDBLK's steps: its token poll goes round while T1 is not 0 (R181, R182). -/
theorem rdblkStep_descends {len : Nat} {s : State} {p : RdblkPos} (h : s.standsAt (.rdblk len) (.rdblk p)) :
    EndsOrDescends s (rdblkStep len p s) := by
  have hdown {q : RdblkPos} {u : State} (he : (Pos.rdblk q).epoch ≤ (Pos.rdblk p).epoch) (h1 : u.t1 = s.t1)
      (h2 : u.t2 = s.t2) (hrest : q.rest len < p.rest len) : EndsOrDescends s (u.goto (.rdblk len) (.rdblk q)) :=
    .inr (.of_fallsTo h he h1 (.inr ⟨rfl, h2, .inr hrest⟩) _)
  have hepoch := State.epoch_of_standsAt h
  cases p with
  | arm => exact .inr (.of_epoch_lt (by rw [hepoch]; exact Nat.zero_lt_one))
  | token => exact hdown le_rfl rfl rfl (Nat.lt_succ_self _)
  | tokenTest =>
    by_cases hidle : s.int.r = 0xFF ∧ s.t1 ≠ 0
    · rw [rdblkStep_tokenTest_idle len hidle.1 hidle.2]
      exact .inr (.of_t1 hepoch.symm rfl hidle.2)
    · by_cases hstart : s.int.r = 0xFE
      · rw [rdblkStep_tokenTest_start len hstart]
        exact hdown le_rfl rfl rfl (by simp only [RdblkPos.rest]; omega)
      · rw [rdblkStep_tokenTest_fail len (by tauto)]
        exact hdown le_rfl rfl rfl (by simp only [RdblkPos.rest]; omega)
  | payload i =>
    simp only [rdblkStep]
    split
    · exact hdown le_rfl (by simp) (by simp) (by simp only [RdblkPos.rest]; omega)
    · exact hdown le_rfl (by simp) (by simp) (by simp only [RdblkPos.rest]; omega)
  | check1 => exact hdown le_rfl rfl rfl (Nat.lt_succ_self 2)
  | check0 c1 => exact hdown le_rfl rfl rfl Nat.zero_lt_two
  | verify | finish => exact .inl rfl

/-- WRBLK's steps: its two waits go round while T2 is not 0 (R186, R190). -/
theorem wrblkStep_descends {tok : Token} {s : State} {p : WrblkPos} (h : s.standsAt (.wrblk tok) (.wrblk p)) :
    EndsOrDescends s (wrblkStep tok p s) := by
  have hgoto {q : WrblkPos} {u : State} (h1 : u.t1 = s.t1) (hparams : u.params = s.params)
      (hfall : FallsTo s u (p.stage, p.rest s.params.respTries s.int.n) (q.stage, q.rest s.params.respTries u.int.n)) :
      EndsOrDescends s (u.goto (.wrblk tok) (.wrblk q)) :=
    .inr (.of_fallsTo (q := .wrblk q) h le_rfl h1 (by rw [hparams]; exact hfall) _)
  cases p with
  | wait p =>
    rcases hstep : waitStep p s with ⟨q | w, u⟩ <;> simp only [wrblkStep, hstep] <;>
      obtain ⟨h1, -, hparams⟩ := waitStep_keeps hstep
    · exact hgoto h1 hparams ((waitStep_fallsTo hstep).shift 1 (2 * s.params.respTries + 520))
    · obtain ⟨rfl, rfl⟩ := waitStep_done hstep
      split
      · exact hgoto rfl rfl (.inr ⟨rfl, rfl, .inr (Nat.lt_succ_self _)⟩)
      · exact hgoto rfl rfl (.inl Nat.zero_lt_one)
  | token =>
    simp only [wrblkStep]
    split
    · exact hgoto rfl rfl (.inl Nat.zero_lt_one)
    · exact hgoto rfl rfl (.inr ⟨rfl, rfl, .inr (Nat.lt_succ_self _)⟩)
  | payload i =>
    simp only [wrblkStep]
    split
    · next hi =>
      unfold blockLen at hi
      exact hgoto rfl rfl (.inr ⟨rfl, rfl, .inr (by simp only [WrblkPos.rest]; omega)⟩)
    · exact hgoto rfl rfl (.inr ⟨rfl, rfl, .inr (by simp only [WrblkPos.rest]; omega)⟩)
  | filler k =>
    simp only [wrblkStep]
    split
    · next hk => subst hk; exact hgoto rfl rfl (.inr ⟨rfl, rfl, .inr (Nat.lt_succ_self _)⟩)
    · exact hgoto rfl rfl (.inr ⟨rfl, rfl, .inr (by simp only [WrblkPos.rest]; omega)⟩)
  | tries => exact hgoto rfl rfl (.inr ⟨rfl, rfl, .inr (Nat.lt_succ_self _)⟩)
  | response => exact hgoto rfl rfl (.inr ⟨rfl, rfl, .inr (Nat.lt_succ_self _)⟩)
  | count =>
    simp only [wrblkStep, afterRespCount]
    split_ifs with hacc hn
    · exact hgoto rfl rfl (.inr ⟨rfl, rfl, .inr (Nat.succ_pos _)⟩)
    · exact hgoto rfl rfl (.inl Nat.zero_lt_one)
    · exact hgoto rfl rfl (.inr ⟨rfl, rfl, .inr (by simp only [WrblkPos.rest, State.setN_int_n]; omega)⟩)
  | armBusy r => exact hgoto rfl rfl (.inl Nat.zero_lt_one)
  | busy r => exact hgoto rfl rfl (.inr ⟨rfl, rfl, .inr (Nat.lt_succ_self 1)⟩)
  | busyTest r =>
    simp only [wrblkStep, wrblkBusyTest]
    split_ifs with hr ht
    · exact hgoto rfl rfl (.inr ⟨rfl, rfl, .inr Nat.zero_lt_one⟩)
    · exact hgoto rfl rfl (.inr ⟨rfl, rfl, .inr Nat.zero_lt_one⟩)
    · exact hgoto rfl rfl (.inr ⟨rfl, rfl, .inl ht⟩)
  | finish c r => exact .inl rfl

/-- A response to a command of INIT leads to an earlier stage (R222 to R229). -/
theorem initReply_stage_lt (c : InitCmd) (r : Byte) : (initReply c r).stage < c.stage := by
  cases c with
  | probeInit => exact Nat.lt_succ_self 18
  | blockLen t =>
    simp only [initReply]
    split
    · exact (by decide : 6 < 11)
    · exact (by decide : 5 < 11)
  | _ => simp only [initReply]; split <;> decide

/-- A loop of INIT ends in an earlier stage (R226, R229). -/
theorem afterLoop_stage_lt (l : InitLoop) (ok : Bool) : (afterLoop l ok).stage < 13 := by
  rcases l with _ | _ | _ <;> cases ok <;> decide

/-- A loop's first command is sent in an earlier stage than its start (R225, R228). -/
theorem first_stage_lt (l : InitLoop) : l.first.stage < 18 := by
  rcases l with _ | _ | _ <;> decide

/-- INIT's steps: its gates go round while T2 is not 0, and its negotiation loops while T1 is not 0 (R220, R225, R228). -/
theorem initStep_descends {s : State} {p : InitPos} (h : s.standsAt .init (.init p)) : EndsOrDescends s (initStep p s) := by
  have hgoto {q : InitPos} {u : State} (h1 : u.t1 = s.t1)
      (hfall : FallsTo s u (p.stage, p.rest s.params s.int.n) (q.stage, q.rest u.params u.int.n)) :
      EndsOrDescends s (initGoto (q, u)) := by
    refine .inr (.of_fallsTo (q := .init q) h ?_ h1 hfall _)
    have hle : q.stage ≤ p.stage := hfall.stage_le
    simp only [Pos.epoch]
    split_ifs <;> omega
  have hleave {q : InitPos} {u : State} (h1 : u.t1 = s.t1) (hlt : q.stage < p.stage) : EndsOrDescends s (initGoto (q, u)) :=
    hgoto h1 (.inl hlt)
  cases p with
  | diskTest =>
    simp only [initStep]
    split
    · exact .inl rfl
    · exact hleave rfl (Nat.lt_succ_self 34)
  | power p =>
    obtain ⟨h1, h2⟩ : (powerStep p s).2.t1 = s.t1 ∧ (powerStep p s).2.t2 = s.t2 := by
      simpa [State.armsWithin] using powerStep_armsWithin p s [] []
    rcases hstep : powerStep p s with ⟨q | r, u⟩ <;> rw [hstep] at h1 h2 <;> simp only [initStep, hstep]
    · exact hgoto h1 (.inr ⟨rfl, h2, .inr (powerStep_rest hstep)⟩)
    · exact hleave h1 (Nat.lt_succ_self 33)
  | cmd c p =>
    rcases hstep : sendStep c.index c.argument p s with ⟨q | ⟨r, k⟩, u⟩ <;> simp only [initStep, hstep]
    · have hfall := (sendStep_fallsTo hstep).shift c.stage 0
      rw [Nat.zero_add, Nat.zero_add] at hfall
      exact hgoto (sendStep_keeps hstep).1 hfall
    · exact hleave (sendStep_keeps hstep).1 (Nat.lt_of_lt_of_le (initReply_stage_lt c r) (Nat.le_add_right ..))
  | armBudget =>
    refine .inr (.of_epoch_lt ?_)
    rw [State.epoch_of_standsAt h]
    exact Nat.zero_lt_one
  | echo k =>
    refine hleave rfl ?_
    unfold initAfterEcho
    split_ifs <;> simp [InitPos.stage] <;> omega
  | ocr k =>
    refine hleave rfl ?_
    unfold initAfterOcr
    split_ifs <;> simp [InitPos.stage] <;> omega
  | clearOk l => exact hleave rfl (first_stage_lt l)
  | setOk l => exact hleave rfl (afterLoop_stage_lt l true)
  | loopTest l =>
    simp only [initStep]
    split
    · exact hleave rfl (afterLoop_stage_lt l s.int.ok)
    · next ht =>
      refine .inr (.of_t1 ?_ rfl ht)
      rw [State.epoch_of_standsAt h]
      rcases l with _ | _ | _ <;> rfl
  | ocrType | legacyType => exact hleave rfl (Nat.lt_succ_self 5)
  | select | clearType | setCtype | deselect | powerOff | setNoinit | clearNoinit =>
    exact hleave rfl (by decide)
  | trailing =>
    refine hleave rfl ?_
    split <;> decide
  | finish c => exact .inl rfl

/-- An engine step of a running op ends it or descends. -/
theorem exec_endsOrDescends {i : Instr} {p : Pos} {s t : State} (h : s.standsAt i p) (hfit : posFits i p = true)
    (hexec : exec i s = .next t) : EndsOrDescends s t := by
  cases i <;> cases p <;> cases hfit
  case waitrdy.waitrdy => exact waitrdy_descends h hexec
  case cmd.cmd => exact cmd_descends h hexec
  case rdblk.rdblk =>
    cases (exec_rdblk_at h).symm.trans hexec
    exact rdblkStep_descends h
  case wrblk.wrblk =>
    cases (exec_wrblk_at h).symm.trans hexec
    exact wrblkStep_descends h
  case init.init =>
    cases (exec_init_at h).symm.trans hexec
    exact initStep_descends h
  all_goals exact counted_descends rfl h rfl hexec

/-! ### Each event during an op -/

/-- Event `e` from `s` to `t` leaves the engine where it stands: it keeps the hidden state, and the counters but for a tick. -/
structure Waits (e : Event) (s t : State) : Prop where
  not_engine : e ≠ .engine
  int : t.int = s.int
  params : t.params = s.params
  t1 : t.t1 = if e = .tick then s.t1 - 1 else s.t1
  t2 : t.t2 = if e = .tick then s.t2 - 1 else s.t2

/-- An event that leaves the engine where it stands descends. -/
theorem Waits.descends {e : Event} {s t : State} (h : Waits e s t) : Descends e s t := by
  have hepoch : t.epoch = s.epoch := by simp only [State.epoch, h.int]
  have hstage : t.stage = s.stage := by simp only [State.stage, h.int]
  have hrest : t.rest = s.rest := by simp only [State.rest, h.int, h.params]
  have hle (k : Nat) : (if e = .tick then k - 1 else k) ≤ k := by split <;> omega
  exact ⟨hepoch.le, fun _ => ⟨h.t1.trans_le (hle _), fun _ => ⟨hstage.le, fun _ => ⟨h.t2.trans_le (hle _), fun _ =>
    ⟨hrest.le, fun he => absurd he h.not_engine⟩⟩⟩⟩⟩

/-- During an op a host access is a read or a discarded write (60_exceptions.md R283). -/
theorem hostStep_waits {s t : State} {a : HostAccess} {e : Event} (he : e ≠ .engine ∧ e ≠ .tick)
    (hbusy : s.stat.busy = true) (h : hostStep s a = .next t) : Waits e s t := by
  obtain ⟨hne, hnt⟩ := he
  rcases hostStep_cases h with ⟨v, -, rfl⟩ | ⟨-, rfl⟩ | ⟨hfree, -⟩
  · exact ⟨hne, rfl, rfl, (if_neg hnt).symm, (if_neg hnt).symm⟩
  · exact ⟨hne, rfl, rfl, (if_neg hnt).symm, (if_neg hnt).symm⟩
  · cases hbusy.symm.trans hfree

/-- During an op that the event does not end, the event is the engine's and descends, or leaves the engine where it stands. -/
theorem applyEvent_descends_or_waits {e : Event} {s t : State} (hinv : s.Inv) (hs : s.stat.busy = true)
    (ht : t.stat.busy = true) (h : applyEvent e s = .next t) : (e = .engine ∧ Descends e s t) ∨ Waits e s t := by
  cases e with
  | engine =>
    cases hphase : s.int.phase with
    | idle => exact absurd hphase (hinv.busy_iff.mp hs)
    | run i p =>
      have hexec : exec i s = .next t := (engineStep_of_standsAt hphase).symm.trans h
      rcases exec_endsOrDescends hphase (hinv.running i p hphase).2 hexec with hend | hdesc
      · cases ht.symm.trans hend
      · exact .inl ⟨rfl, hdesc⟩
  | tick =>
    cases h
    exact .inr ⟨by decide, rfl, rfl, rfl, rfl⟩
  | host a => exact .inr (hostStep_waits ⟨by simp, by simp⟩ hs h)
  | program =>
    rcases programStep_cases h with rfl | ⟨a, u, v, hu, -, rfl⟩
    · exact .inr ⟨by decide, rfl, rfl, rfl, rfl⟩
    · have hwait := hostStep_waits (e := .program) ⟨by decide, by decide⟩ hs hu
      exact .inr { hwait with }
  | resetLow => cases h; cases ht
  | resetHigh => cases h; exact .inr ⟨by decide, rfl, rfl, rfl, rfl⟩

/-! ### Runs -/

section

open Filter

/-- What in the end never rises is constant in the end. -/
theorem eventually_const_of_eventually_le {f : Nat → Nat} (h : ∀ᶠ k in atTop, f (k + 1) ≤ f k) :
    ∃ c, ∀ᶠ k in atTop, f k = c := by
  obtain ⟨K, hK⟩ := eventually_atTop.mp h
  have hanti : Antitone fun j => f (K + j) := antitone_nat_of_succ_le fun j => hK (K + j) (Nat.le_add_right K j)
  obtain ⟨n, hn⟩ := WellFoundedLT.antitone_chain_condition hanti
  refine ⟨f (K + n), eventually_atTop.mpr ⟨K + n, fun k hk => ?_⟩⟩
  obtain ⟨j, rfl⟩ := Nat.exists_eq_add_of_le hk
  rw [Nat.add_assoc]
  exact (hn (n + j) (Nat.le_add_right n j)).symm

/-- So two moments in a row agree in the end. -/
theorem eventually_succ_eq_of_eventually_le {f : Nat → Nat} (h : ∀ᶠ k in atTop, f (k + 1) ≤ f k) :
    ∀ᶠ k in atTop, f (k + 1) = f k := by
  obtain ⟨c, hc⟩ := eventually_const_of_eventually_le h
  filter_upwards [hc, (tendsto_add_atTop_nat 1).eventually hc] with k hk hk1
  exact hk1.trans hk.symm

/-- A counter that in the end is not armed again is 0 in the end, when ticks go on. -/
theorem eventually_zero_of_ticks {ev : Nat → Event} {f : Nat → Nat} (hticks : ∃ᶠ k in atTop, ev k = .tick)
    (htick : ∀ k, ev k = .tick → f (k + 1) = f k - 1) (h : ∀ᶠ k in atTop, f (k + 1) ≤ f k) : ∀ᶠ k in atTop, f k = 0 := by
  obtain ⟨c, hc⟩ := eventually_const_of_eventually_le h
  obtain ⟨k, hk, hsame, hkc⟩ := (hticks.and_eventually ((eventually_succ_eq_of_eventually_le h).and hc)).exists
  have hzero : c = 0 := by
    have hlow := htick k hk
    omega
  exact hzero ▸ hc

/-- The engine's steps go on. -/
theorem EngineGoesOn.frequently {ev : Nat → Event} (h : EngineGoesOn ev) : ∃ᶠ k in atTop, ev k = .engine :=
  frequently_atTop.mpr fun k => by
    obtain ⟨n, hn⟩ := h k
    exact ⟨k + n, Nat.le_add_right k n, hn⟩

/-- Ticks go on when the engine does: one follows each engine step. -/
theorem TickBound.frequently_tick {m : Nat} {ev : Nat → Event} (h : TickBound m ev) (hengine : EngineGoesOn ev) :
    ∃ᶠ k in atTop, ev k = .tick :=
  frequently_atTop.mpr fun k => by
    obtain ⟨n, hn⟩ := hengine k
    obtain ⟨j, hj, -⟩ := h (k + n) hn
    exact ⟨k + n + 1 + j, by omega, hj⟩

/-- No run in which every event descends goes on with engine steps and ticks: in the end the epoch is constant, then T1 is 0, then
the stage is constant, then T2 is 0, and then every engine step would lower the rest for ever. -/
theorem not_forall_descends {ev : Nat → Event} {tr : Nat → State} (hengine : ∃ᶠ k in atTop, ev k = .engine)
    (hticks : ∃ᶠ k in atTop, ev k = .tick)
    (htick : ∀ k, ev k = .tick → (tr (k + 1)).t1 = (tr k).t1 - 1 ∧ (tr (k + 1)).t2 = (tr k).t2 - 1) :
    ¬ ∀ k, Descends (ev k) (tr k) (tr (k + 1)) := by
  intro hdesc
  have hepoch : ∀ᶠ k in atTop, (tr (k + 1)).epoch = (tr k).epoch :=
    eventually_succ_eq_of_eventually_le (f := fun k => (tr k).epoch) (.of_forall fun k => (hdesc k).1)
  have ht1 : ∀ᶠ k in atTop, (tr k).t1 = 0 := by
    refine eventually_zero_of_ticks (f := fun k => (tr k).t1) hticks (fun k hk => (htick k hk).1) ?_
    filter_upwards [hepoch] with k he
    exact ((hdesc k).2 he).1
  have hstage : ∀ᶠ k in atTop, (tr (k + 1)).stage = (tr k).stage := by
    refine eventually_succ_eq_of_eventually_le (f := fun k => (tr k).stage) ?_
    filter_upwards [hepoch, ht1] with k he h1
    exact (((hdesc k).2 he).2 h1).1
  have ht2 : ∀ᶠ k in atTop, (tr k).t2 = 0 := by
    refine eventually_zero_of_ticks (f := fun k => (tr k).t2) hticks (fun k hk => (htick k hk).2) ?_
    filter_upwards [hepoch, ht1, hstage] with k he h1 hst
    exact ((((hdesc k).2 he).2 h1).2 hst).1
  have hlast : ∀ᶠ k in atTop, (tr (k + 1)).rest ≤ (tr k).rest ∧ (ev k = .engine → (tr (k + 1)).rest < (tr k).rest) := by
    filter_upwards [hepoch, ht1, hstage, ht2] with k he h1 hst h2
    exact ((((hdesc k).2 he).2 h1).2 hst).2 h2
  have hrest := eventually_succ_eq_of_eventually_le (f := fun k => (tr k).rest) (hlast.mono fun k h => h.1)
  obtain ⟨k, hk, hsame, -, hlt⟩ := (hengine.and_eventually (hrest.and hlast)).exists
  exact (hlt hk).ne hsame

end

/-- The invariant holds along a run of events. -/
theorem RunOf.inv {ev : Nat → Event} {tr : Nat → State} (hrun : RunOf ev tr) (h0 : (tr 0).Inv) (k : Nat) : (tr k).Inv := by
  induction k with
  | zero => exact h0
  | succ k ih => exact applyEvent_inv ih (hrun k)

/-- Settles O60: if BUSY stayed 1, every event would descend. -/
theorem everyOpEndsUnderTickFairness : Obligations.EveryOpEndsUnderTickFairness := by
  intro m ev tr hrun hbound hengine h0
  by_contra hnever
  have hbusy (k : Nat) : (tr k).stat.busy = true := Bool.not_eq_false _ ▸ fun h => hnever ⟨k, h⟩
  have hstep (k : Nat) := applyEvent_descends_or_waits (hrun.inv h0 k) (hbusy k) (hbusy (k + 1)) (hrun k)
  refine not_forall_descends (tr := tr) hengine.frequently (hbound.frequently_tick hengine) (fun k hk => ?_) fun k => ?_
  · rcases hstep k with ⟨he, -⟩ | hwait
    · cases hk.symm.trans he
    · exact ⟨hwait.t1.trans (if_pos hk), hwait.t2.trans (if_pos hk)⟩
  · rcases hstep k with ⟨-, hdesc⟩ | hwait
    · exact hdesc
    · exact hwait.descends

end Sys2Proof.Machine
